-- ==== Sys2Proof/Word.lean ====
section
/-!
DEFINITION. The word of the register bus, and the one sparse table the state uses.
-/

namespace Sys2Proof

/-- A 32-bit register word, command word or operand word (R7, R55, R90): bit 0 is the least significant. -/
abbrev Word := BitVec 32

/-- A table from byte offsets to values, rising in its keys, an unlisted key having a default. -/
abbrev Sparse (α : Type) := List (Nat × α)

end Sys2Proof
end

