-- ==== Sys2Proof/Config.lean ====
section
/-!
DEFINITION. What an instance of the block fixes (R5), and the free values no rule determines.
-/

namespace Sys2Proof

/-- A valid pin index, 0 to 57: `NPINS` is 58 (R5). -/
abbrev PinIndex := Fin 58

/-- The OPEN parameters of R5. `NPORTS` is not listed here: it is the length of the state's list of ports. -/
structure Params where
  /-- `BASE`: the bus address of offset 0 (R50). -/
  base      : Nat
  /-- `REGION_LEN`: the region's length in bytes (R50). -/
  regionLen : Nat
  /-- `OFF_REN`: offset of word 0 of RisingEdge (R52). -/
  offRen    : Nat
  /-- `OFF_FEN`: offset of word 0 of FallingEdge (R52). -/
  offFen    : Nat
  /-- `OFF_HEN`: offset of word 0 of HighLevel (R52). -/
  offHen    : Nat
  /-- `OFF_LEN`: offset of word 0 of LowLevel (R52). -/
  offLen    : Nat
  /-- `OFF_AREN`: offset of word 0 of AsyncRising (R52). -/
  offAren   : Nat
  /-- `OFF_AFEN`: offset of word 0 of AsyncFalling (R52). -/
  offAfen   : Nat
  /-- `EXT_MASTER`: other bus masters may access the region (R70 move E3). -/
  extMaster : Bool
deriving DecidableEq, Repr

/-- The defaults of R5. `BASE` has none there: zero is this model's (DESIGN CHOICE, log entry 2). -/
def Params.default : Params :=
  { base := 0, regionLen := 0xF4
    offRen := 0x4C, offFen := 0x58, offHen := 0x64, offLen := 0x70, offAren := 0x7C, offAfen := 0x88
    extMaster := true }

/-- The `n`-th value drawn by the machine once the supplied draws have run out (R9 `draw`, U1, U3, U4, U5).
Nothing constrains it. -/
opaque Config.freeWord : Nat → BitVec 32

/-- What the 12-bit response field `r_off` holds for an offset that does not fit it; R99 does not say. -/
opaque Config.wideOffset : Nat → BitVec 12

end Sys2Proof
end

