-- ==== Sys2Proof/Syntax.lean ====
section
/-!
DEFINITION. The twelve register families, the eight pin functions and the 37 commands of the opcode table.
-/

namespace Sys2Proof

/-- The register families, in the order of their codes (R10, R93). -/
inductive Family where
  | functionSelect
  | set
  | clear
  | level
  | eventStatus
  | risingEdge
  | fallingEdge
  | highLevel
  | lowLevel
  | asyncRising
  | asyncFalling
  | pullConfig
deriving DecidableEq, Repr

/-- The eight functions of a pin, in the order of their codes 0 to 7 (R28, R94). -/
inductive Fn where
  | input
  | output
  | alt5
  | alt4
  | alt0
  | alt1
  | alt2
  | alt3
deriving DecidableEq, Repr

/-- The commands, one constructor per row of `spec/opcode_table.json` (R92). A pin is the 16-bit field
`cmd[15:0]`; a value is the operand word of WRITE_FIELD and WRITE_LEVEL (R95). -/
inductive Instr where
  | resolveFunctionSelect (pin : Nat)
  | resolveSet (pin : Nat)
  | resolveClear (pin : Nat)
  | resolveLevel (pin : Nat)
  | resolveEventStatus (pin : Nat)
  | resolveRisingEdge (pin : Nat)
  | resolveFallingEdge (pin : Nat)
  | resolveHighLevel (pin : Nat)
  | resolveLowLevel (pin : Nat)
  | resolveAsyncRising (pin : Nat)
  | resolveAsyncFalling (pin : Nat)
  | resolvePullConfig (pin : Nat)
  | readFieldFunctionSelect (pin : Nat)
  | readFieldLevel (pin : Nat)
  | readFieldEventStatus (pin : Nat)
  | readFieldRisingEdge (pin : Nat)
  | readFieldFallingEdge (pin : Nat)
  | readFieldHighLevel (pin : Nat)
  | readFieldLowLevel (pin : Nat)
  | readFieldAsyncRising (pin : Nat)
  | readFieldAsyncFalling (pin : Nat)
  | readFieldPullConfig (pin : Nat)
  | writeFieldFunctionSelect (pin : Nat) (value : Word)
  | writeFieldSet (pin : Nat) (value : Word)
  | writeFieldClear (pin : Nat) (value : Word)
  | writeFieldRisingEdge (pin : Nat) (value : Word)
  | writeFieldFallingEdge (pin : Nat) (value : Word)
  | writeFieldHighLevel (pin : Nat) (value : Word)
  | writeFieldLowLevel (pin : Nat) (value : Word)
  | writeFieldAsyncRising (pin : Nat) (value : Word)
  | writeFieldAsyncFalling (pin : Nat) (value : Word)
  | writeFieldPullConfig (pin : Nat) (value : Word)
  | request (pin : Nat)
  | configureFunction (pin : Nat) (fn : Fn)
  | writeLevel (pin : Nat) (value : Word)
  | readLevel (pin : Nat)
  | release (pin : Nat)
deriving DecidableEq, Repr

end Sys2Proof
end

