-- ==== Sys2Proof/WellFormed.lean ====
section
/-!
DEFINITION. Which instruction terms a command word can hold.
-/

namespace Sys2Proof

/-- The pin field of a command; every format has one (R91). -/
def Instr.pin : Instr → Nat
  | .resolveFunctionSelect pin => pin
  | .resolveSet pin => pin
  | .resolveClear pin => pin
  | .resolveLevel pin => pin
  | .resolveEventStatus pin => pin
  | .resolveRisingEdge pin => pin
  | .resolveFallingEdge pin => pin
  | .resolveHighLevel pin => pin
  | .resolveLowLevel pin => pin
  | .resolveAsyncRising pin => pin
  | .resolveAsyncFalling pin => pin
  | .resolvePullConfig pin => pin
  | .readFieldFunctionSelect pin => pin
  | .readFieldLevel pin => pin
  | .readFieldEventStatus pin => pin
  | .readFieldRisingEdge pin => pin
  | .readFieldFallingEdge pin => pin
  | .readFieldHighLevel pin => pin
  | .readFieldLowLevel pin => pin
  | .readFieldAsyncRising pin => pin
  | .readFieldAsyncFalling pin => pin
  | .readFieldPullConfig pin => pin
  | .writeFieldFunctionSelect pin _ => pin
  | .writeFieldSet pin _ => pin
  | .writeFieldClear pin _ => pin
  | .writeFieldRisingEdge pin _ => pin
  | .writeFieldFallingEdge pin _ => pin
  | .writeFieldHighLevel pin _ => pin
  | .writeFieldLowLevel pin _ => pin
  | .writeFieldAsyncRising pin _ => pin
  | .writeFieldAsyncFalling pin _ => pin
  | .writeFieldPullConfig pin _ => pin
  | .request pin => pin
  | .configureFunction pin _ => pin
  | .writeLevel pin _ => pin
  | .readLevel pin => pin
  | .release pin => pin

/-- A command fits its encoding: the pin is an unsigned 16-bit value (R91). Values 58 to 65535 are well formed;
they are rejected when the command runs, with `BadPin`. The other operands fit by their types. -/
def Instr.wellFormed (i : Instr) : Bool :=
  decide (i.pin < 65536)

end Sys2Proof
end

