-- ==== Sys2Proof/Decode.lean ====
section
/-!
DEFINITION. The command words: fields, the decoder, the encoder and the opcode table (R90 to R98).
-/

namespace Sys2Proof

/-- A command as it is presented: the command word and the operand word (R90). -/
structure Command where
  cmd  : Word
  opnd : Word
deriving DecidableEq, Repr

/-- Why a command word is illegal, in the order of R97 (a) to (e). -/
inductive Illegal where
  | reservedOpcode
  | mustBeZero
  | reservedFamily
  | unusedFunction
  | refusedPair
deriving DecidableEq, Repr

/-- The eight opcodes (R92). -/
inductive Op where
  | resolve
  | readField
  | writeField
  | request
  | configureFunction
  | writeLevel
  | readLevel
  | release
deriving DecidableEq, Repr

/-- The three formats (R91). -/
inductive Format where
  | core
  | line
  | lineFn
deriving DecidableEq, Repr

/-- `cmd[31:24]` (R91). -/
def opField (cmd : Word) : Nat := cmd.toNat / 2 ^ 24

/-- `cmd[23:20]` (R91). -/
def famField (cmd : Word) : Nat := cmd.toNat / 2 ^ 20 % 16

/-- `cmd[19]` (R91). -/
def zeroField (cmd : Word) : Nat := cmd.toNat / 2 ^ 19 % 2

/-- `cmd[18:16]` (R91). -/
def fnField (cmd : Word) : Nat := cmd.toNat / 2 ^ 16 % 8

/-- `cmd[15:0]`, an unsigned integer used as it stands (R91, R96). -/
def pinField (cmd : Word) : Nat := cmd.toNat % 2 ^ 16

/-- The opcode numbers (R92). -/
def Op.code : Op → Nat
  | .resolve => 0x01
  | .readField => 0x02
  | .writeField => 0x03
  | .request => 0x10
  | .configureFunction => 0x11
  | .writeLevel => 0x12
  | .readLevel => 0x13
  | .release => 0x14

/-- Every other value of `op` is reserved (R92). -/
def Op.ofCode : Nat → Option Op
  | 0x01 => some .resolve
  | 0x02 => some .readField
  | 0x03 => some .writeField
  | 0x10 => some .request
  | 0x11 => some .configureFunction
  | 0x12 => some .writeLevel
  | 0x13 => some .readLevel
  | 0x14 => some .release
  | _ => none

/-- The format of each opcode (R92). -/
def Op.format : Op → Format
  | .resolve => .core
  | .readField => .core
  | .writeField => .core
  | .request => .line
  | .configureFunction => .lineFn
  | .writeLevel => .line
  | .readLevel => .line
  | .release => .line

/-- The family codes (R93). -/
def Family.code : Family → Nat
  | .functionSelect => 0
  | .set => 1
  | .clear => 2
  | .level => 3
  | .eventStatus => 4
  | .risingEdge => 5
  | .fallingEdge => 6
  | .highLevel => 7
  | .lowLevel => 8
  | .asyncRising => 9
  | .asyncFalling => 10
  | .pullConfig => 11

/-- Family codes 12 to 15 are reserved (R93). -/
def Family.ofCode : Nat → Option Family
  | 0 => some .functionSelect
  | 1 => some .set
  | 2 => some .clear
  | 3 => some .level
  | 4 => some .eventStatus
  | 5 => some .risingEdge
  | 6 => some .fallingEdge
  | 7 => some .highLevel
  | 8 => some .lowLevel
  | 9 => some .asyncRising
  | 10 => some .asyncFalling
  | 11 => some .pullConfig
  | _ => none

/-- The function codes, the hardware's own (R28, R94). -/
def Fn.code : Fn → Nat
  | .input => 0
  | .output => 1
  | .alt5 => 2
  | .alt4 => 3
  | .alt0 => 4
  | .alt1 => 5
  | .alt2 => 6
  | .alt3 => 7

/-- All eight values of the 3-bit field are legal (R94). -/
def Fn.ofCode : Nat → Fn
  | 0 => .input
  | 1 => .output
  | 2 => .alt5
  | 3 => .alt4
  | 4 => .alt0
  | 5 => .alt1
  | 6 => .alt2
  | _ => .alt3

/-- RESOLVE accepts all twelve families (R98). -/
def Instr.ofResolve (f : Family) (pin : Nat) : Instr :=
  match f with
  | .functionSelect => .resolveFunctionSelect pin
  | .set => .resolveSet pin
  | .clear => .resolveClear pin
  | .level => .resolveLevel pin
  | .eventStatus => .resolveEventStatus pin
  | .risingEdge => .resolveRisingEdge pin
  | .fallingEdge => .resolveFallingEdge pin
  | .highLevel => .resolveHighLevel pin
  | .lowLevel => .resolveLowLevel pin
  | .asyncRising => .resolveAsyncRising pin
  | .asyncFalling => .resolveAsyncFalling pin
  | .pullConfig => .resolvePullConfig pin

/-- READ_FIELD refuses the write-only families Set and Clear (R98). -/
def Instr.ofReadField (f : Family) (pin : Nat) : Option Instr :=
  match f with
  | .functionSelect => some (.readFieldFunctionSelect pin)
  | .set => none
  | .clear => none
  | .level => some (.readFieldLevel pin)
  | .eventStatus => some (.readFieldEventStatus pin)
  | .risingEdge => some (.readFieldRisingEdge pin)
  | .fallingEdge => some (.readFieldFallingEdge pin)
  | .highLevel => some (.readFieldHighLevel pin)
  | .lowLevel => some (.readFieldLowLevel pin)
  | .asyncRising => some (.readFieldAsyncRising pin)
  | .asyncFalling => some (.readFieldAsyncFalling pin)
  | .pullConfig => some (.readFieldPullConfig pin)

/-- WRITE_FIELD refuses Level and EventStatus (R98). -/
def Instr.ofWriteField (f : Family) (pin : Nat) (value : Word) : Option Instr :=
  match f with
  | .functionSelect => some (.writeFieldFunctionSelect pin value)
  | .set => some (.writeFieldSet pin value)
  | .clear => some (.writeFieldClear pin value)
  | .level => none
  | .eventStatus => none
  | .risingEdge => some (.writeFieldRisingEdge pin value)
  | .fallingEdge => some (.writeFieldFallingEdge pin value)
  | .highLevel => some (.writeFieldHighLevel pin value)
  | .lowLevel => some (.writeFieldLowLevel pin value)
  | .asyncRising => some (.writeFieldAsyncRising pin value)
  | .asyncFalling => some (.writeFieldAsyncFalling pin value)
  | .pullConfig => some (.writeFieldPullConfig pin value)

/-- The command that an opcode and its operands stand for; `none` is a refused pair of R98. The operand word is
`value` for WRITE_FIELD and WRITE_LEVEL and is ignored elsewhere (R95). -/
def Instr.ofFields (op : Op) (f : Family) (fn : Fn) (pin : Nat) (opnd : Word) : Option Instr :=
  match op with
  | .resolve => some (Instr.ofResolve f pin)
  | .readField => Instr.ofReadField f pin
  | .writeField => Instr.ofWriteField f pin opnd
  | .request => some (.request pin)
  | .configureFunction => some (.configureFunction pin fn)
  | .writeLevel => some (.writeLevel pin opnd)
  | .readLevel => some (.readLevel pin)
  | .release => some (.release pin)

/-- The decoder, total on every pair of words. The tests stand in the order of R97. -/
def decode (cmd opnd : Word) : Except Illegal Instr :=
  match Op.ofCode (opField cmd) with
  | none => .error .reservedOpcode
  | some op =>
    if zeroField cmd ≠ 0 then .error .mustBeZero
    else
      match Family.ofCode (famField cmd) with
      | none => .error .reservedFamily
      | some f =>
        if op.format ≠ .core ∧ f ≠ .functionSelect then .error .reservedFamily
        else if op.format ≠ .lineFn ∧ fnField cmd ≠ 0 then .error .unusedFunction
        else
          match Instr.ofFields op f (Fn.ofCode (fnField cmd)) (pinField cmd) opnd with
          | none => .error .refusedPair
          | some i => .ok i

/-- A command word from its fields (R91, R102): `op<<24 | fam<<20 | fn<<16 | pin`. -/
def commandWord (op fam fn pin : Nat) : Word :=
  BitVec.ofNat 32 (op * 2 ^ 24 + fam * 2 ^ 20 + fn * 2 ^ 16 + pin)

/-- A format C command (R102). -/
def encodeCore (op : Op) (f : Family) (pin : Nat) (value : Word) : Command :=
  { cmd := commandWord op.code f.code 0 pin, opnd := value }

/-- A format L or F command (R102). -/
def encodeLine (op : Op) (fn pin : Nat) (value : Word) : Command :=
  { cmd := commandWord op.code 0 fn pin, opnd := value }

/-- The encoder, from the table of R102. An ignored operand word is presented as 0, as R102 does. -/
def encode : Instr → Command
  | .resolveFunctionSelect pin => encodeCore .resolve .functionSelect pin 0
  | .resolveSet pin => encodeCore .resolve .set pin 0
  | .resolveClear pin => encodeCore .resolve .clear pin 0
  | .resolveLevel pin => encodeCore .resolve .level pin 0
  | .resolveEventStatus pin => encodeCore .resolve .eventStatus pin 0
  | .resolveRisingEdge pin => encodeCore .resolve .risingEdge pin 0
  | .resolveFallingEdge pin => encodeCore .resolve .fallingEdge pin 0
  | .resolveHighLevel pin => encodeCore .resolve .highLevel pin 0
  | .resolveLowLevel pin => encodeCore .resolve .lowLevel pin 0
  | .resolveAsyncRising pin => encodeCore .resolve .asyncRising pin 0
  | .resolveAsyncFalling pin => encodeCore .resolve .asyncFalling pin 0
  | .resolvePullConfig pin => encodeCore .resolve .pullConfig pin 0
  | .readFieldFunctionSelect pin => encodeCore .readField .functionSelect pin 0
  | .readFieldLevel pin => encodeCore .readField .level pin 0
  | .readFieldEventStatus pin => encodeCore .readField .eventStatus pin 0
  | .readFieldRisingEdge pin => encodeCore .readField .risingEdge pin 0
  | .readFieldFallingEdge pin => encodeCore .readField .fallingEdge pin 0
  | .readFieldHighLevel pin => encodeCore .readField .highLevel pin 0
  | .readFieldLowLevel pin => encodeCore .readField .lowLevel pin 0
  | .readFieldAsyncRising pin => encodeCore .readField .asyncRising pin 0
  | .readFieldAsyncFalling pin => encodeCore .readField .asyncFalling pin 0
  | .readFieldPullConfig pin => encodeCore .readField .pullConfig pin 0
  | .writeFieldFunctionSelect pin value => encodeCore .writeField .functionSelect pin value
  | .writeFieldSet pin value => encodeCore .writeField .set pin value
  | .writeFieldClear pin value => encodeCore .writeField .clear pin value
  | .writeFieldRisingEdge pin value => encodeCore .writeField .risingEdge pin value
  | .writeFieldFallingEdge pin value => encodeCore .writeField .fallingEdge pin value
  | .writeFieldHighLevel pin value => encodeCore .writeField .highLevel pin value
  | .writeFieldLowLevel pin value => encodeCore .writeField .lowLevel pin value
  | .writeFieldAsyncRising pin value => encodeCore .writeField .asyncRising pin value
  | .writeFieldAsyncFalling pin value => encodeCore .writeField .asyncFalling pin value
  | .writeFieldPullConfig pin value => encodeCore .writeField .pullConfig pin value
  | .request pin => encodeLine .request 0 pin 0
  | .configureFunction pin fn => encodeLine .configureFunction fn.code pin 0
  | .writeLevel pin value => encodeLine .writeLevel 0 pin value
  | .readLevel pin => encodeLine .readLevel 0 pin 0
  | .release pin => encodeLine .release 0 pin 0

/-- A row of the opcode table: a command word is of the row when its bits under `mask` are `bits`. -/
structure OpcodeRow where
  mnemonic : String
  bits     : Word
  mask     : Word
deriving DecidableEq, Repr

/-- A command word is of the row. -/
def OpcodeRow.holds (r : OpcodeRow) (cmd : Word) : Bool :=
  cmd &&& r.mask == r.bits

/-- The table's RESOLVE rows. -/
def resolveRows : List OpcodeRow := [
  { mnemonic := "RESOLVE.FunctionSelect", bits := 0x01000000, mask := 0xFFFF0000 },
  { mnemonic := "RESOLVE.Set", bits := 0x01100000, mask := 0xFFFF0000 },
  { mnemonic := "RESOLVE.Clear", bits := 0x01200000, mask := 0xFFFF0000 },
  { mnemonic := "RESOLVE.Level", bits := 0x01300000, mask := 0xFFFF0000 },
  { mnemonic := "RESOLVE.EventStatus", bits := 0x01400000, mask := 0xFFFF0000 },
  { mnemonic := "RESOLVE.RisingEdge", bits := 0x01500000, mask := 0xFFFF0000 },
  { mnemonic := "RESOLVE.FallingEdge", bits := 0x01600000, mask := 0xFFFF0000 },
  { mnemonic := "RESOLVE.HighLevel", bits := 0x01700000, mask := 0xFFFF0000 },
  { mnemonic := "RESOLVE.LowLevel", bits := 0x01800000, mask := 0xFFFF0000 },
  { mnemonic := "RESOLVE.AsyncRising", bits := 0x01900000, mask := 0xFFFF0000 },
  { mnemonic := "RESOLVE.AsyncFalling", bits := 0x01A00000, mask := 0xFFFF0000 },
  { mnemonic := "RESOLVE.PullConfig", bits := 0x01B00000, mask := 0xFFFF0000 } ]

/-- The table's READ_FIELD rows. -/
def readFieldRows : List OpcodeRow := [
  { mnemonic := "READ_FIELD.FunctionSelect", bits := 0x02000000, mask := 0xFFFF0000 },
  { mnemonic := "READ_FIELD.Level", bits := 0x02300000, mask := 0xFFFF0000 },
  { mnemonic := "READ_FIELD.EventStatus", bits := 0x02400000, mask := 0xFFFF0000 },
  { mnemonic := "READ_FIELD.RisingEdge", bits := 0x02500000, mask := 0xFFFF0000 },
  { mnemonic := "READ_FIELD.FallingEdge", bits := 0x02600000, mask := 0xFFFF0000 },
  { mnemonic := "READ_FIELD.HighLevel", bits := 0x02700000, mask := 0xFFFF0000 },
  { mnemonic := "READ_FIELD.LowLevel", bits := 0x02800000, mask := 0xFFFF0000 },
  { mnemonic := "READ_FIELD.AsyncRising", bits := 0x02900000, mask := 0xFFFF0000 },
  { mnemonic := "READ_FIELD.AsyncFalling", bits := 0x02A00000, mask := 0xFFFF0000 },
  { mnemonic := "READ_FIELD.PullConfig", bits := 0x02B00000, mask := 0xFFFF0000 } ]

/-- The table's WRITE_FIELD rows. -/
def writeFieldRows : List OpcodeRow := [
  { mnemonic := "WRITE_FIELD.FunctionSelect", bits := 0x03000000, mask := 0xFFFF0000 },
  { mnemonic := "WRITE_FIELD.Set", bits := 0x03100000, mask := 0xFFFF0000 },
  { mnemonic := "WRITE_FIELD.Clear", bits := 0x03200000, mask := 0xFFFF0000 },
  { mnemonic := "WRITE_FIELD.RisingEdge", bits := 0x03500000, mask := 0xFFFF0000 },
  { mnemonic := "WRITE_FIELD.FallingEdge", bits := 0x03600000, mask := 0xFFFF0000 },
  { mnemonic := "WRITE_FIELD.HighLevel", bits := 0x03700000, mask := 0xFFFF0000 },
  { mnemonic := "WRITE_FIELD.LowLevel", bits := 0x03800000, mask := 0xFFFF0000 },
  { mnemonic := "WRITE_FIELD.AsyncRising", bits := 0x03900000, mask := 0xFFFF0000 },
  { mnemonic := "WRITE_FIELD.AsyncFalling", bits := 0x03A00000, mask := 0xFFFF0000 },
  { mnemonic := "WRITE_FIELD.PullConfig", bits := 0x03B00000, mask := 0xFFFF0000 } ]

/-- The table's line-layer rows. -/
def lineRows : List OpcodeRow := [
  { mnemonic := "REQUEST", bits := 0x10000000, mask := 0xFFFF0000 },
  { mnemonic := "CONFIGURE_FUNCTION", bits := 0x11000000, mask := 0xFFF80000 },
  { mnemonic := "WRITE_LEVEL", bits := 0x12000000, mask := 0xFFFF0000 },
  { mnemonic := "READ_LEVEL", bits := 0x13000000, mask := 0xFFFF0000 },
  { mnemonic := "RELEASE", bits := 0x14000000, mask := 0xFFFF0000 } ]

/-- The 37 rows of `spec/opcode_table.json` (R92). -/
def opcodeRows : List OpcodeRow := resolveRows ++ readFieldRows ++ writeFieldRows ++ lineRows

/-- What the decoder reads from an instruction whose bits are `w`, numbered as the opcode table numbers them: the
command word is bits 31:0, the operand word bits 63:32, and every bit from `nbits` on is 0. -/
def decodeTableWord (nbits w : Nat) : Option Instr :=
  let v := w % 2 ^ nbits
  match decode (BitVec.ofNat 32 v) (BitVec.ofNat 32 (v / 2 ^ 32)) with
  | .ok i => some i
  | .error _ => none

end Sys2Proof
end

