-- ==== Sys2Proof/Machine/State.lean ====
section
/-!
DEFINITION. The state of the machine (R20), its parts, the state after reset, and the reasons a step can stop.
-/

namespace Sys2Proof.Machine

/-- The nine statuses of a response (R200). -/
inductive Status where
  | ok
  | badPin
  | deviceOpenFailed
  | allocationFailed
  | mapFailed
  | nullState
  | pinMisconfigured
  | outOfRange
  | illegalCommand
deriving DecidableEq, Repr

/-- The response record (R99). -/
structure Response where
  status    : Status
  rdata     : Word
  wordIndex : BitVec 3
  off       : BitVec 12
  shift     : BitVec 5
  wmask     : Word
  rmask     : Word
deriving DecidableEq, Repr

/-- A ResolvedAddress (R120, R126): the word's offset from `BASE`, the position of the pin's field in it, and the
masks of the word's valid bits. -/
structure Resolved where
  wordIndex : Nat
  off       : Nat
  shift     : Nat
  writeMask : Word
  readMask  : Word
deriving DecidableEq, Repr

/-- The states of a line between commands (R31, R170). The source's `Mapped` lasts only inside a REQUEST. -/
inductive LineState where
  | unrequested
  | ready
  | released
deriving DecidableEq, Repr

/-- An entry of the line table (R31). `addr` holds the addresses of the twelve families, by family code; it is
`none` where the spec calls them meaningless. `lastFn` is `none` or the code last configured. -/
structure Line where
  state  : LineState
  addr   : Option (Vector Resolved 12)
  lastFn : Option Fn
deriving DecidableEq, Repr

/-- What a read-modify-write carries through its steps (R146): the word's address, the field's width, the value,
and, for CONFIGURE_FUNCTION, the entry whose `last_fn` is written at the end (R174). -/
structure Rmw where
  addr  : Resolved
  width : Nat
  value : Word
  note  : Option (PinIndex × Fn)
deriving DecidableEq, Repr

/-- The position a command has reached, with its temporaries (R34). Each but `start` is a point at which another
agent may move before the command goes on. -/
inductive Phase where
  /-- Accepted, nothing done. -/
  | start
  /-- Before step 1 of R146: the lock is to be taken. -/
  | rmwAcquire (j : Rmw)
  /-- Before step 2 of R146: the lock is held, the word is to be read. -/
  | rmwRead (j : Rmw)
  /-- Before step 3 of R146: the lock is held and `current` is the masked word read. -/
  | rmwWrite (j : Rmw) (current : Word)
  /-- Before step 1 of R147: the lock is to be taken. -/
  | strobeAcquire (a : Resolved) (data : Word)
  /-- Before step 2 of R147: the lock is held, the strobe is to be written. -/
  | strobeWrite (a : Resolved) (data : Word)
  /-- Before step 3 of R175, which takes the lock, writes the strobe and gives the lock back. -/
  | driveLevel (a : Resolved) (data : Word)
  /-- Before step 2 of R175: the live function is to be read; `target` is the Set or Clear address. -/
  | checkFn (fsel target : Resolved)
  /-- Before step 2 of R176. -/
  | readLevel (a : Resolved)
deriving DecidableEq, Repr

/-- A command in flight: the command pair and the position reached (R34). -/
structure InFlight where
  cmd  : Word
  opnd : Word
  pos  : Phase
deriving DecidableEq, Repr

/-- A command port (R6): the commands presented on it, oldest first, each a pair `(cmd, opnd)`; the command in
flight, if any; and the responses it has returned, oldest first. -/
structure Port where
  pending   : List (Word × Word)
  inflight  : Option InFlight
  responses : List Response
deriving DecidableEq, Repr

/-- A port with nothing presented, nothing in flight and nothing returned. -/
def Port.idle : Port := { pending := [], inflight := none, responses := [] }

/-- The kinds of bus transaction (R6). -/
inductive BusKind where
  | read
  | write
deriving DecidableEq, Repr

/-- A transaction of the block's register-bus master port (R6): `off` is a byte offset from `BASE`. -/
structure BusTxn where
  kind : BusKind
  off  : Nat
  data : Word
deriving DecidableEq, Repr

/-- The environment input of REQUEST (R104). -/
inductive EnvFail where
  | none
  | deviceOpenFailed
  | mapFailed
  | allocationFailed
deriving DecidableEq, Repr

/-- A move of one agent (R65, R70), an input of the block (R6), or the reset input (R230). -/
inductive Move where
  /-- Command port `k` takes a step, then `more` further steps before another agent moves. -/
  | port (k more : Nat)
  /-- The host presents a command on port `k`. -/
  | present (k : Nat) (cmd opnd : Word)
  /-- The environment input `env_fail` takes a value. -/
  | failInput (e : EnvFail)
  /-- E1: the outside world puts a level on a pin. -/
  | pad (p : PinIndex) (b : Bool)
  /-- E2: an event is latched. -/
  | event (p : PinIndex)
  /-- E3: another master reads. -/
  | extRead (off : Nat)
  /-- E3: another master writes. -/
  | extWrite (off : Nat) (v : Word)
  /-- The reset input is asserted. -/
  | reset
deriving DecidableEq, Repr

/-- The state. Spec's own: `csr`, `olat`, `pad`, `eds` (the controller's), `lines`, `refcount`, `locks` and the
ports' commands in flight (the block's). Inputs, outputs and the model's own: the rest. -/
@[ext]
structure State where
  /-- The parameters of R5, which no step changes (log entry 1). -/
  params   : Params
  /-- `csr[off]`: the stored words of the read-write families, by byte offset; unlisted is 0 (R20). -/
  csr      : Sparse Word
  /-- The output latches (R35). -/
  olat     : Vector Bool 58
  /-- The levels the outside world puts on the pins (R35). -/
  pad      : Vector Bool 58
  /-- The event latches (R35). -/
  eds      : Vector Bool 58
  /-- The line table (R31). -/
  lines    : Vector Line 58
  /-- The number of `Ready` entries; the region is mapped when it is above 0 (R32). -/
  refcount : Nat
  /-- The locks that are held, by the offset of the word: the port that holds each; unlisted is free (R33). -/
  locks    : Sparse Nat
  /-- The command ports; their number is `NPORTS` (R5, R6). -/
  ports    : List Port
  /-- The environment input `env_fail` (R6, R104). -/
  envFail  : EnvFail
  /-- The port whose step this is. -/
  active   : Nat
  /-- How many further steps the active port takes before another agent moves. -/
  turn     : Nat
  /-- The moves to come, first first; when it is empty no agent but the ports moves (R65, log entry 4). -/
  sched    : List Move
  /-- Values supplied for the draws to come (R9, log entry 5). -/
  supply   : List Word
  /-- How many draws were taken after the supplied ones ran out. -/
  drawn    : Nat
  /-- The transactions the block has issued, oldest first (R6, R154). -/
  bus      : List BusTxn
deriving DecidableEq, Repr

/-- No step of this machine faults: every command word and every operand value has a defined response, an error is
an ordinary response (R211, R213), and no bus transaction fails (R215, U14). The type has no constructor. -/
inductive Fault where
deriving DecidableEq, Repr

/-- Why a step has no meaning. -/
inductive Refusal where
  /-- Raised by an arm of `exec` whose instruction has no meaning yet; safe. No arm raises it. -/
  | notModelled (mnemonic : String)
  /-- Raised by `step` alone, when the parameters break a constraint of R5 ("A parameter set that breaks a constraint
  is refused (the model has no meaning for it)") or there is no port; safe. -/
  | badParameters
deriving DecidableEq, Repr

/-- The line table's entry after reset and before any request (R40). -/
def Line.unrequested : Line := { state := .unrequested, addr := none, lastFn := none }

/-- The machine right after reset, with nothing presented on its one port (R40, R44, R230). The controller's words
and hidden bits are unspecified there (R41, R42): zero is this model's choice (DESIGN CHOICE, log entry 3). -/
def State.reset : State :=
  { params   := Params.default
    csr      := []
    olat     := Vector.replicate 58 false
    pad      := Vector.replicate 58 false
    eds      := Vector.replicate 58 false
    lines    := Vector.replicate 58 Line.unrequested
    refcount := 0
    locks    := []
    ports    := [Port.idle]
    envFail  := .none
    active   := 0
    turn     := 0
    sched    := []
    supply   := []
    drawn    := 0
    bus      := [] }

end Sys2Proof.Machine
end

