-- ==== Sys2Proof/Machine/Operands.lean ====
section
/-!
DEFINITION. The Register Layout Table (R24, R25, R51), the Pin Address Resolver (R120 to R126) and the masks and
shifts of the accessor (R141, R146, R147).
-/

namespace Sys2Proof

/-- What a bus read and a bus write of a family's words do (R24). -/
inductive Access where
  | readWrite
  | strobe
  | readOnly
  | writeOneToClear
deriving DecidableEq, Repr

/-- `W`, the field width in bits per pin (R24). -/
def Family.width : Family → Nat
  | .functionSelect => 3
  | .pullConfig => 2
  | _ => 1

/-- `G`, the pins per word, a fixed number per family (R24, C5). -/
def Family.pinsPerWord : Family → Nat
  | .functionSelect => 10
  | .pullConfig => 16
  | _ => 32

/-- `WC`, the number of words (R24). -/
def Family.wordCount : Family → Nat
  | .functionSelect => 6
  | .pullConfig => 4
  | _ => 2

/-- The access type (R24, C9). -/
def Family.access : Family → Access
  | .set => .strobe
  | .clear => .strobe
  | .level => .readOnly
  | .eventStatus => .writeOneToClear
  | _ => .readWrite

/-- The valid bits of every word but the family's last (R124). -/
def Family.fullMask : Family → Word
  | .functionSelect => 0x3FFFFFFF
  | _ => 0xFFFFFFFF

/-- The valid bits of the family's last word (R124). -/
def Family.lastMask : Family → Word
  | .functionSelect => 0x00FFFFFF
  | .pullConfig => 0x000FFFFF
  | _ => 0x03FFFFFF

/-- The byte offset of the family's word 0 (R51, R52, R125). -/
def Family.baseOff (ps : Params) : Family → Nat
  | .functionSelect => 0x00
  | .set => 0x1C
  | .clear => 0x28
  | .level => 0x34
  | .eventStatus => 0x40
  | .risingEdge => ps.offRen
  | .fallingEdge => ps.offFen
  | .highLevel => ps.offHen
  | .lowLevel => ps.offLen
  | .asyncRising => ps.offAren
  | .asyncFalling => ps.offAfen
  | .pullConfig => 0xE4

/-- The mask of a word of the family: the narrower one for the last word (R123). -/
def Family.mask (f : Family) (wordIndex : Nat) : Word :=
  if wordIndex = f.wordCount - 1 then f.lastMask else f.fullMask

/-- The place of a family in the line table's address list: its code (R31, R93). -/
def Family.slot : Family → Fin 12
  | .functionSelect => 0
  | .set => 1
  | .clear => 2
  | .level => 3
  | .eventStatus => 4
  | .risingEdge => 5
  | .fallingEdge => 6
  | .highLevel => 7
  | .lowLevel => 8
  | .asyncRising => 9
  | .asyncFalling => 10
  | .pullConfig => 11

/-- The twelve families, by code (R93). -/
def families : List Family :=
  [.functionSelect, .set, .clear, .level, .eventStatus, .risingEdge, .fallingEdge, .highLevel, .lowLevel,
    .asyncRising, .asyncFalling, .pullConfig]

/-- One of the register words (R25): a family and the index of the word in it. -/
structure RegWord where
  fam : Family
  idx : Nat
deriving DecidableEq, Repr

/-- The thirty register words (R25). -/
def regWords : List RegWord :=
  families.flatMap fun f => (List.range f.wordCount).map fun k => { fam := f, idx := k }

/-- `off(f, wi)`, the effective address relative to `BASE` (R54). -/
def RegWord.off (ps : Params) (w : RegWord) : Nat := w.fam.baseOff ps + 4 * w.idx

/-- The bits of the word that belong to some pin (R25). -/
def RegWord.mask (w : RegWord) : Word := w.fam.mask w.idx

/-- The bus address of an offset of the region (R50, R54). -/
def Params.busAddress (ps : Params) (off : Nat) : Nat := ps.base + off

/-- The constraints of R5: the region's length, and the offsets of the register words, multiples of 4, below the
length and pairwise disjoint. -/
def Params.valid (ps : Params) : Bool :=
  decide (ps.regionLen % 4 = 0) && decide (0xF4 ≤ ps.regionLen) &&
    (regWords.all fun w => decide (w.off ps % 4 = 0) && decide (w.off ps < ps.regionLen)) &&
    decide (regWords.map (RegWord.off ps)).Nodup

/-- The register word at an offset; `none` is an unlisted offset (R51, R53). -/
def locate (ps : Params) (off : Nat) : Option RegWord :=
  regWords.find? fun w => w.off ps == off

/-- Only indices 0 to 57 name a pin (R201). -/
def pinIndex (pin : Nat) : Option PinIndex :=
  if h : pin < 58 then some ⟨pin, h⟩ else none

/-- `word_index` (R121). -/
def wordIndexOf (p : PinIndex) (f : Family) : Nat := p.val / f.pinsPerWord % f.wordCount

/-- `bit_shift` (R122). -/
def shiftOf (p : PinIndex) (f : Family) : Nat := p.val % f.pinsPerWord * f.width

/-- The Pin Address Resolver (R120 to R126): both masks are the word's one mask (C10). -/
def resolve (ps : Params) (p : PinIndex) (f : Family) : Machine.Resolved :=
  { wordIndex := wordIndexOf p f
    off := f.baseOff ps + 4 * wordIndexOf p f
    shift := shiftOf p f
    writeMask := f.mask (wordIndexOf p f)
    readMask := f.mask (wordIndexOf p f) }

/-- The addresses of all twelve families, by family code (R31, R171, D36). -/
def resolveAll (ps : Params) (p : PinIndex) : Vector Machine.Resolved 12 :=
  #v[resolve ps p .functionSelect, resolve ps p .set, resolve ps p .clear, resolve ps p .level,
    resolve ps p .eventStatus, resolve ps p .risingEdge, resolve ps p .fallingEdge, resolve ps p .highLevel,
    resolve ps p .lowLevel, resolve ps p .asyncRising, resolve ps p .asyncFalling, resolve ps p .pullConfig]

/-- `FM = (1 << W) - 1`, the unshifted field mask (R141, C6). -/
def unshiftedMask (width : Nat) : Word := ((1 : Word) <<< width) - 1

/-- `field_width_mask`, the bits of a word owned by the pin (R146). -/
def Machine.Resolved.fieldMask (a : Machine.Resolved) (width : Nat) : Word := unshiftedMask width <<< a.shift

/-- `clear_mask`: everything but the pin's field, and never a reserved bit (R146). -/
def Machine.Resolved.clearMask (a : Machine.Resolved) (width : Nat) : Word :=
  ~~~(a.fieldMask width) &&& a.writeMask

/-- The read algorithm: the pin's field of a word as read, reserved bits discarded (R141). -/
def Machine.Resolved.extract (a : Machine.Resolved) (width : Nat) (w : Word) : Word :=
  ((w &&& a.readMask) >>> a.shift) &&& unshiftedMask width

/-- The word a read-modify-write writes (R146); only the low bits of the value are used (R149). -/
def Machine.Resolved.merge (a : Machine.Resolved) (width : Nat) (current value : Word) : Word :=
  (current &&& a.clearMask width) ||| ((value &&& unshiftedMask width) <<< a.shift)

/-- The word a strobe write carries: `current` is 0 (R147). -/
def Machine.Resolved.strobeData (a : Machine.Resolved) (value : Word) : Word :=
  (value &&& 1) <<< a.shift

end Sys2Proof
end

