-- ==== Sys2Proof/Machine/Flags.lean ====
section
/-!
DEFINITION. The block has no flags (R23): what a command leaves behind as its outcome is its response, made here
(R99, R100, R200).
-/

namespace Sys2Proof.Machine

/-- The status codes (R200). -/
def Status.code : Status → BitVec 4
  | .ok => 0
  | .badPin => 1
  | .deviceOpenFailed => 2
  | .allocationFailed => 3
  | .mapFailed => 4
  | .nullState => 5
  | .pinMisconfigured => 6
  | .outOfRange => 7
  | .illegalCommand => 8

/-- A response with no data field set: every field a command does not set is 0, and on an error all are (R100). -/
def Response.bare (st : Status) : Response :=
  { status := st, rdata := 0, wordIndex := 0, off := 0, shift := 0, wmask := 0, rmask := 0 }

/-- The response of a command that reads a field (R99). -/
def Response.value (v : Word) : Response :=
  { Response.bare .ok with rdata := v }

/-- `r_off` is 12 bits wide and R99 does not say what it holds for an offset that does not fit (log entry 7). -/
def offField (off : Nat) : BitVec 12 :=
  if off < 2 ^ 12 then BitVec.ofNat 12 off else Config.wideOffset off

/-- The response of RESOLVE (R99, R120). -/
def Response.address (a : Resolved) : Response :=
  { status := .ok
    rdata := 0
    wordIndex := BitVec.ofNat 3 a.wordIndex
    off := offField a.off
    shift := BitVec.ofNat 5 a.shift
    wmask := a.writeMask
    rmask := a.readMask }

end Sys2Proof.Machine
end

