-- ==== Sys2Proof/Machine/Sparse.lean ====
section
/-!
DEFINITION. The operations of the sparse table: one canonical list per table, so that equal tables are equal lists.
-/

namespace Sys2Proof.Machine

/-- The value listed for a key. -/
def Sparse.find {α : Type} (k : Nat) : Sparse α → Option α
  | [] => none
  | (a, v) :: m => if k = a then some v else Sparse.find k m

/-- List a value for a key, in its place. -/
def Sparse.put {α : Type} (k : Nat) (v : α) : Sparse α → Sparse α
  | [] => [(k, v)]
  | (a, w) :: m =>
    if k < a then (k, v) :: (a, w) :: m
    else if k = a then (k, v) :: m
    else (a, w) :: Sparse.put k v m

/-- Take a key out of the list. -/
def Sparse.drop {α : Type} (k : Nat) (m : Sparse α) : Sparse α :=
  m.filter fun e => e.1 != k

/-- The keys rise strictly. -/
def Sparse.rising {α : Type} : Sparse α → Bool
  | [] => true
  | [_] => true
  | (a, _) :: (b, w) :: m => decide (a < b) && Sparse.rising ((b, w) :: m)

/-- What an unlisted word of the register file holds (R41 leaves it open; DESIGN CHOICE, log entry 3). -/
def Memory.unlisted : Word := 0

/-- The stored word at an offset. -/
def Memory.read (m : Sparse Word) (off : Nat) : Word :=
  (Sparse.find off m).getD Memory.unlisted

/-- Store a word, keeping the canonical form: what equals the unlisted value is not listed. -/
def Memory.write (m : Sparse Word) (off : Nat) (v : Word) : Sparse Word :=
  if v = Memory.unlisted then Sparse.drop off m else Sparse.put off v m

/-- The canonical form: rising offsets, no entry equal to what an unlisted offset reads as. -/
def Memory.wf (m : Sparse Word) : Bool :=
  Sparse.rising m && m.all fun e => e.2 != Memory.unlisted

end Sys2Proof.Machine
end

