-- ==== Sys2Proof/Machine/Ops.lean ====
section
/-!
DEFINITION. The named operations on the state: draws, the controller's answer to a bus read and a bus write, the
block's transactions, locks, responses (the error response among them), the line table, the steps of a command in
flight, the environment's moves, reset, and the taking of a command from a port.
-/

namespace Sys2Proof.Machine

/-! ### Draws -/

/-- The next draw of a word (R9): the first of the supplied values, or else a free value. -/
def State.drawValue (s : State) : Word :=
  match s.supply with
  | w :: _ => w
  | [] => Config.freeWord s.drawn

/-- A draw was taken: a supplied value, or else the next free one. -/
def State.afterDraw (s : State) : State :=
  { s with supply := s.supply.tail, drawn := s.drawn + if s.supply.isEmpty then 1 else 0 }

/-! ### The controller (R58 to R63) -/

/-- The live code in the pin's FunctionSelect field, as the controller holds it (R28, R60, R61). -/
def State.functionCode (s : State) (p : PinIndex) : Word :=
  let a := resolve s.params p .functionSelect
  a.extract 3 (Memory.read s.csr a.off)

/-- The pin's live function is OUTPUT (R28). -/
def State.isOutput (s : State) (p : PinIndex) : Bool := s.functionCode p == 1

/-- What Level shows of a pin: the latch of an output, else the pad (R61). -/
def State.levelBit (s : State) (p : PinIndex) : Bool :=
  if s.isOutput p then s.olat[p] else s.pad[p]

/-- The word whose bit for each pin of word `k` of a one-bit family is `f` of the pin (R26); reserved bits are 0. -/
def bitsOfWord (k : Nat) (f : PinIndex → Bool) : Word :=
  BitVec.ofFnLE fun j : Fin 32 => if h : 32 * k + j.val < 58 then f ⟨32 * k + j.val, h⟩ else false

/-- The bit of the pin in word `k` of a one-bit family when `v` is that word; false when the pin is in another. -/
def pinBit (k : Nat) (v : Word) (p : PinIndex) : Bool :=
  p.val / 32 == k && v.getLsbD (p.val % 32)

/-- The valid bits a register word shows on a bus read (R58, R61, R62). Set and Clear show none (R60). -/
def State.shown (s : State) (w : RegWord) : Word :=
  match w.fam.access with
  | .readWrite => Memory.read s.csr (w.off s.params)
  | .strobe => 0
  | .readOnly => bitsOfWord w.idx s.levelBit
  | .writeOneToClear => bitsOfWord w.idx fun p => s.eds[p]

/-- The bits of a bus read that the controller determines: none of a strobe word (R60). -/
def determinedBits (w : RegWord) : Word :=
  match w.fam.access with
  | .strobe => 0
  | _ => w.mask

/-- `MemRead(off, 4)`: the word the register file answers, drawing every bit the rules leave open (R58 to R62, U1,
U4), and all of it at an unlisted offset (U5). -/
def State.memRead (s : State) (off : Nat) : Word :=
  match locate s.params off with
  | none => s.drawValue
  | some w => (s.shown w &&& determinedBits w) ||| (s.drawValue &&& ~~~determinedBits w)

/-- The bits of all pins, given pin by pin. -/
def ofPins (f : PinIndex → Bool) : Vector Bool 58 := ⟨⟨(List.finRange 58).map f⟩, by simp⟩

/-- The output latches after a strobe (R60): each pin whose bit is 1 gets the level if its live function is OUTPUT, and
otherwise a drawn one; a 0 is a no-op. -/
def State.strobed (s : State) (k : Nat) (v : Word) (level : Bool) : Vector Bool 58 :=
  ofPins fun p =>
    if pinBit k v p then
      if s.isOutput p then level else s.drawValue.getLsbD (p.val % 32)
    else s.olat[p]

/-- A strobe of word `k` of Set or Clear (R60). -/
def State.strobe (s : State) (k : Nat) (v : Word) (level : Bool) : State :=
  { s with olat := s.strobed k v level }

/-- The event latches after a write of word `k` of EventStatus (R62): a 1 clears, a 0 has no effect. -/
def State.cleared (s : State) (k : Nat) (v : Word) : Vector Bool 58 :=
  ofPins fun p => s.eds[p] && !pinBit k v p

/-- The effect on the controller of a write of the word (R58, R60, R61, R62): only valid bits count. -/
def State.writeWord (s : State) (w : RegWord) (v : Word) : State :=
  match w.fam with
  | .set => (s.strobe w.idx (v &&& w.mask) true).afterDraw
  | .clear => (s.strobe w.idx (v &&& w.mask) false).afterDraw
  | .level => s
  | .eventStatus => { s with eds := s.cleared w.idx (v &&& w.mask) }
  | _ => { s with csr := Memory.write s.csr (w.off s.params) (v &&& w.mask) }

/-- `MemWrite(off, 4, v)`; a write of an unlisted offset has no effect (U5). -/
def State.memWrite (s : State) (off : Nat) (v : Word) : State :=
  match locate s.params off with
  | none => s
  | some w => s.writeWord w v

/-! ### The block's bus port (R6, R154) -/

/-- The block issued a transaction. -/
def State.logTxn (s : State) (kind : BusKind) (off : Nat) (data : Word) : State :=
  { s with bus := s.bus ++ [{ kind := kind, off := off, data := data }] }

/-- The block's read transaction: nothing but the draw and the transaction itself remains of it (R63). -/
def State.busRead (s : State) (off : Nat) : State :=
  (s.logTxn .read off (s.memRead off)).afterDraw

/-- The block's write transaction. -/
def State.busWrite (s : State) (off : Nat) (v : Word) : State :=
  (s.memWrite off v).logTxn .write off v

/-! ### Locks (R33, R68) -/

/-- No port holds the word's lock. -/
def State.lockFree (s : State) (off : Nat) : Bool :=
  (Sparse.find off s.locks).isNone

/-- `acquire(off)` by the active port (R9). -/
def State.acquire (s : State) (off : Nat) : State :=
  { s with locks := Sparse.put off s.active s.locks }

/-- `release(off)` (R9). -/
def State.unlock (s : State) (off : Nat) : State :=
  { s with locks := Sparse.drop off s.locks }

/-! ### The active port: position and response (R9, R34, R211) -/

/-- The command in flight on the active port. -/
def State.inflight (s : State) : Option InFlight :=
  (s.ports[s.active]?).bind Port.inflight

/-- Change the active port. -/
def State.onPort (s : State) (g : Port → Port) : State :=
  { s with ports := s.ports.modify s.active g }

/-- The command in flight on the port reaches a position. -/
def Port.goto (ph : Phase) (q : Port) : Port :=
  { q with inflight := q.inflight.map fun f => { f with pos := ph } }

/-- The port returns a response and holds no command any more (R34). -/
def Port.answer (r : Response) (q : Port) : Port :=
  { q with inflight := none, responses := q.responses ++ [r] }

/-- The active port's command reaches a position. -/
def State.goto (s : State) (ph : Phase) : State := s.onPort (Port.goto ph)

/-- `respond`: the active port's command ends with a response (R9). -/
def State.respond (s : State) (r : Response) : State := s.onPort (Port.answer r)

/-- `raise`: the command ends at once with an error status and zero data, and nothing else changes (R9, R211). This
is all the block has of an exception: no vector, no saved state, no return (R213). No step raises while its port
holds a lock, so R9's release of held locks has nothing to do here (log entry 8). -/
def State.raise (s : State) (st : Status) : State := s.respond (Response.bare st)

/-! ### The line table (R31, R178) -/

/-- The pin's entry. -/
def State.line (s : State) (p : PinIndex) : Line := s.lines[p]

/-- Write the pin's entry. -/
def State.setLine (s : State) (p : PinIndex) (l : Line) : State :=
  { s with lines := s.lines.set p l }

/-- `A(f)`, the line's cached address of the family; an entry without addresses, which no `Ready` line has, answers
the freshly resolved one, equal by R127. -/
def State.lineAddr (s : State) (p : PinIndex) (f : Family) : Resolved :=
  match (s.line p).addr with
  | some v => v[f.slot]
  | none => resolve s.params p f

/-- The code last configured is noted in the pin's entry (R174, R180). -/
def State.noteFn (s : State) (note : Option (PinIndex × Fn)) : State :=
  match note with
  | none => s
  | some (p, fn) => s.setLine p { s.line p with lastFn := some fn }

/-- The pin check every command begins with (R201). -/
def State.withPin (s : State) (pin : Nat) (k : PinIndex → State) : State :=
  match pinIndex pin with
  | none => s.raise .badPin
  | some p => k p

/-- The pin check and then the line-state check of the line commands other than REQUEST (R178). -/
def State.withReady (s : State) (pin : Nat) (k : PinIndex → State) : State :=
  s.withPin pin fun p => if (s.line p).state = .ready then k p else s.raise .nullState

/-! ### The steps of a command in flight -/

/-- The steps of R146, R147, R174 to R176 that follow a command's first: the one taken by the active port's command at
a position. A port whose step needs a lock that is held has no enabled step and stays (R68). -/
def State.advanceFrom (s : State) : Phase → State
  | .start => s
  | .rmwAcquire j => if s.lockFree j.addr.off then (s.acquire j.addr.off).goto (.rmwRead j) else s
  | .rmwRead j => (s.busRead j.addr.off).goto (.rmwWrite j (s.memRead j.addr.off &&& j.addr.writeMask))
  | .rmwWrite j current =>
    (((s.busWrite j.addr.off (j.addr.merge j.width current j.value)).unlock j.addr.off).noteFn j.note).respond
      (Response.bare .ok)
  | .strobeAcquire a data => if s.lockFree a.off then (s.acquire a.off).goto (.strobeWrite a data) else s
  | .strobeWrite a data => ((s.busWrite a.off data).unlock a.off).respond (Response.bare .ok)
  | .driveLevel a data => if s.lockFree a.off then (s.busWrite a.off data).respond (Response.bare .ok) else s
  | .checkFn fsel target =>
    if fsel.extract 3 (s.memRead fsel.off) = 1 then
      (s.busRead fsel.off).goto (.driveLevel target (target.strobeData 1))
    else (s.busRead fsel.off).raise .pinMisconfigured
  | .readLevel a => (s.busRead a.off).respond (Response.value (a.extract 1 (s.memRead a.off)))

/-- One step of the active port's command in flight. -/
def State.advance (s : State) : State :=
  match s.inflight with
  | none => s
  | some f => s.advanceFrom f.pos

/-- The active port takes up to `n` steps of its command. -/
def State.run (s : State) : Nat → State
  | 0 => s
  | n + 1 => s.advance.run n

/-- The command goes on from a position for as long as the active port's turn lasts. -/
def State.proceed (s : State) (ph : Phase) : State := (s.goto ph).run s.turn

/-! ### The environment and reset -/

/-- Reset of the block: lines, count, locks and commands in flight go to their reset state, commands in flight
without a response; the controller is not touched (R40, R230). -/
def State.blockReset (s : State) : State :=
  { s with
    lines := Vector.replicate 58 Line.unrequested
    refcount := 0
    locks := []
    ports := s.ports.map fun q => { q with inflight := none } }

/-- Another master may access the offset: such masters are present, and it is a word offset of the region (R55, R70). -/
def State.extAllowed (s : State) (off : Nat) : Bool :=
  s.params.extMaster && off % 4 == 0 && decide (off < s.params.regionLen)

/-- A move of the environment, of an input or of the reset (R70, R104, R230). A port's move is `step`'s. -/
def State.environment (s : State) : Move → State
  | .port _ _ => s
  | .present k cmd opnd =>
    { s with ports := s.ports.modify k fun q => { q with pending := q.pending ++ [(cmd, opnd)] } }
  | .failInput e => { s with envFail := e }
  | .pad p b => { s with pad := s.pad.set p b }
  | .event p => { s with eds := s.eds.set p true }
  | .extRead off => if s.extAllowed off then s.afterDraw else s
  | .extWrite off v => if s.extAllowed off then s.memWrite off v else s
  | .reset => s.blockReset

/-! ### Who moves next, and the taking of a command -/

/-- The offset whose lock the position's next step needs (R68). -/
def Phase.needs : Phase → Option Nat
  | .rmwAcquire j => some j.addr.off
  | .strobeAcquire a _ => some a.off
  | .driveLevel a _ => some a.off
  | _ => none

/-- The offset whose lock the command holds at the position (R68). -/
def Phase.holds : Phase → Option Nat
  | .rmwRead j => some j.addr.off
  | .rmwWrite j _ => some j.addr.off
  | .strobeWrite a _ => some a.off
  | _ => none

/-- The port has an enabled step: a command in flight that no held lock stops, or a command presented (R22, R68). -/
def State.enabled (s : State) (k : Nat) : Bool :=
  match s.ports[k]? with
  | none => false
  | some q =>
    match q.inflight with
    | some f =>
      match f.pos.needs with
      | none => true
      | some off => s.lockFree off
    | none => !q.pending.isEmpty

/-- The first port with an enabled step. -/
def State.firstEnabled (s : State) : Option Nat :=
  (List.range s.ports.length).find? s.enabled

/-- The number of further steps in which every command ends: acquire, read, write (R146). -/
def wholeCommand : Nat := 3

/-- The next move: the schedule's first, or, when nothing is scheduled, a whole command of the first port that has
an enabled step (log entry 4). -/
def State.nextMove (s : State) : Option Move :=
  match s.sched with
  | m :: _ => some m
  | [] => s.firstEnabled.map fun k => .port k wholeCommand

/-- The schedule after its first move is taken. -/
def State.afterMove (s : State) : State := { s with sched := s.sched.tail }

/-- It is port `k`'s turn, for one step and `more` further ones. -/
def State.giveTurn (s : State) (k more : Nat) : State := { s with active := k, turn := more }

/-- The command an idle active port takes next: the oldest presented (R22). -/
def State.presented (s : State) : Option (Word × Word) :=
  (s.ports[s.active]?).bind fun q => q.pending.head?

/-- The active port accepts its oldest command: it is now in flight (R34). -/
def State.accept (s : State) : State :=
  s.onPort fun q =>
    { q with
      pending := q.pending.tail
      inflight := q.pending.head?.map fun c => { cmd := c.1, opnd := c.2, pos := .start } }

/-- Port `k` has the command `(cmd, opnd)` presented first, is idle and holds no lock, and moves next. -/
def State.presentFirst (s : State) (k : Nat) (cmd opnd : Word) : State :=
  { s with
    ports :=
      (if s.ports.isEmpty then [Port.idle] else s.ports).modify k fun q =>
        { q with pending := (cmd, opnd) :: q.pending, inflight := none }
    locks := s.locks.filter fun e => e.2 != k
    sched := .port k wholeCommand :: s.sched }

end Sys2Proof.Machine
end

