-- ==== Sys2Proof/Machine/LineLayer.lean ====
section
/-!
DEFINITION. The line layer: REQUEST, CONFIGURE_FUNCTION, WRITE_LEVEL, READ_LEVEL and RELEASE (R170 to R181).
-/

namespace Sys2Proof.Machine

/-- Why a REQUEST of a pin that is not `Ready` fails, if it does (R171, R202, R203): opening and mapping are attempted
only while the region is not mapped. -/
def State.requestFailure (s : State) : Option Status :=
  match s.envFail with
  | .none => none
  | .deviceOpenFailed => if s.refcount = 0 then some .deviceOpenFailed else none
  | .mapFailed => if s.refcount = 0 then some .mapFailed else none
  | .allocationFailed => some .allocationFailed

/-- The pin's Line is created (R171): all twelve addresses are resolved, no function is known, and the count rises. -/
def State.createLine (s : State) (p : PinIndex) : State :=
  { s.setLine p { state := .ready, addr := some (resolveAll s.params p), lastFn := none } with
    refcount := s.refcount + 1 }

/-- The pin's Line ends (R177): its addresses are dropped and the count falls. -/
def State.endLine (s : State) (p : PinIndex) : State :=
  { s.setLine p { state := .released, addr := none, lastFn := none } with refcount := s.refcount - 1 }

/-- `REQUEST pin` (R171 to R173): one indivisible step, no bus transaction; a pin already `Ready` is left as it is. -/
def execRequest (pin : Nat) (s : State) : Host.Outcome State Fault Refusal :=
  .next (s.withPin pin fun p =>
    if (s.line p).state = .ready then s.respond (Response.bare .ok)
    else
      match s.requestFailure with
      | some st => s.raise st
      | none => (s.createLine p).respond (Response.bare .ok))

/-- `CONFIGURE_FUNCTION pin, Fn` (R174): the checks, then the three steps of the read-modify-write on the pin's
FunctionSelect field, and the code is noted. -/
def execConfigureFunction (pin : Nat) (fn : Fn) (s : State) : Host.Outcome State Fault Refusal :=
  .next (s.withReady pin fun p =>
    s.proceed (.rmwAcquire
      { addr := s.lineAddr p .functionSelect
        width := 3
        value := BitVec.ofNat 32 fn.code
        note := some (p, fn) }))

/-- `WRITE_LEVEL pin, value` (R175): the checks, then the live function read, then one strobe of Set for 1 and of
Clear for 0. -/
def execWriteLevel (pin : Nat) (value : Word) (s : State) : Host.Outcome State Fault Refusal :=
  .next (s.withReady pin fun p =>
    if 1 < value.toNat then s.raise .outOfRange
    else
      s.proceed (.checkFn (s.lineAddr p .functionSelect)
        (if value = 1 then s.lineAddr p .set else s.lineAddr p .clear)))

/-- `READ_LEVEL pin` (R176): the checks, then one read of the pin's Level word. -/
def execReadLevel (pin : Nat) (s : State) : Host.Outcome State Fault Refusal :=
  .next (s.withReady pin fun p => s.proceed (.readLevel (s.lineAddr p .level)))

/-- `RELEASE pin` (R177): one indivisible step, no bus transaction; no register of the controller is touched. -/
def execRelease (pin : Nat) (s : State) : Host.Outcome State Fault Refusal :=
  .next (s.withReady pin fun p => (s.endLine p).respond (Response.bare .ok))

end Sys2Proof.Machine
end

