-- ==== Sys2Proof/Machine/ReadField.lean ====
section
/-!
DEFINITION. The Masked Field Accessor's command READ_FIELD, one meaning per family it accepts (R140).
-/

namespace Sys2Proof.Machine

/-- `READ_FIELD pin, Family` (R140): one step, one bus read, no lock, no state written. -/
def State.readFieldCommand (s : State) (f : Family) (pin : Nat) : State :=
  s.withPin pin fun p =>
    let a := resolve s.params p f
    (s.busRead a.off).respond (Response.value (a.extract f.width (s.memRead a.off)))

/-- `READ_FIELD pin, FunctionSelect` (R140). -/
def execReadFieldFunctionSelect (pin : Nat) (s : State) : Host.Outcome State Fault Refusal :=
  .next (s.readFieldCommand .functionSelect pin)

/-- `READ_FIELD pin, Level` (R140). -/
def execReadFieldLevel (pin : Nat) (s : State) : Host.Outcome State Fault Refusal :=
  .next (s.readFieldCommand .level pin)

/-- `READ_FIELD pin, EventStatus` (R140). -/
def execReadFieldEventStatus (pin : Nat) (s : State) : Host.Outcome State Fault Refusal :=
  .next (s.readFieldCommand .eventStatus pin)

/-- `READ_FIELD pin, RisingEdge` (R140). -/
def execReadFieldRisingEdge (pin : Nat) (s : State) : Host.Outcome State Fault Refusal :=
  .next (s.readFieldCommand .risingEdge pin)

/-- `READ_FIELD pin, FallingEdge` (R140). -/
def execReadFieldFallingEdge (pin : Nat) (s : State) : Host.Outcome State Fault Refusal :=
  .next (s.readFieldCommand .fallingEdge pin)

/-- `READ_FIELD pin, HighLevel` (R140). -/
def execReadFieldHighLevel (pin : Nat) (s : State) : Host.Outcome State Fault Refusal :=
  .next (s.readFieldCommand .highLevel pin)

/-- `READ_FIELD pin, LowLevel` (R140). -/
def execReadFieldLowLevel (pin : Nat) (s : State) : Host.Outcome State Fault Refusal :=
  .next (s.readFieldCommand .lowLevel pin)

/-- `READ_FIELD pin, AsyncRising` (R140). -/
def execReadFieldAsyncRising (pin : Nat) (s : State) : Host.Outcome State Fault Refusal :=
  .next (s.readFieldCommand .asyncRising pin)

/-- `READ_FIELD pin, AsyncFalling` (R140). -/
def execReadFieldAsyncFalling (pin : Nat) (s : State) : Host.Outcome State Fault Refusal :=
  .next (s.readFieldCommand .asyncFalling pin)

/-- `READ_FIELD pin, PullConfig` (R140). -/
def execReadFieldPullConfig (pin : Nat) (s : State) : Host.Outcome State Fault Refusal :=
  .next (s.readFieldCommand .pullConfig pin)

end Sys2Proof.Machine
end

