-- ==== Sys2Proof/Machine/Resolver.lean ====
section
/-!
DEFINITION. The Pin Address Resolver's command RESOLVE, one meaning per family (R120).
-/

namespace Sys2Proof.Machine

/-- `RESOLVE pin, Family` (R120): a pure function of the command and the parameters, with no bus transaction. -/
def State.resolveCommand (s : State) (f : Family) (pin : Nat) : State :=
  s.withPin pin fun p => s.respond (Response.address (resolve s.params p f))

/-- `RESOLVE pin, FunctionSelect` (R120). -/
def execResolveFunctionSelect (pin : Nat) (s : State) : Host.Outcome State Fault Refusal :=
  .next (s.resolveCommand .functionSelect pin)

/-- `RESOLVE pin, Set` (R120). -/
def execResolveSet (pin : Nat) (s : State) : Host.Outcome State Fault Refusal :=
  .next (s.resolveCommand .set pin)

/-- `RESOLVE pin, Clear` (R120). -/
def execResolveClear (pin : Nat) (s : State) : Host.Outcome State Fault Refusal :=
  .next (s.resolveCommand .clear pin)

/-- `RESOLVE pin, Level` (R120). -/
def execResolveLevel (pin : Nat) (s : State) : Host.Outcome State Fault Refusal :=
  .next (s.resolveCommand .level pin)

/-- `RESOLVE pin, EventStatus` (R120). -/
def execResolveEventStatus (pin : Nat) (s : State) : Host.Outcome State Fault Refusal :=
  .next (s.resolveCommand .eventStatus pin)

/-- `RESOLVE pin, RisingEdge` (R120). -/
def execResolveRisingEdge (pin : Nat) (s : State) : Host.Outcome State Fault Refusal :=
  .next (s.resolveCommand .risingEdge pin)

/-- `RESOLVE pin, FallingEdge` (R120). -/
def execResolveFallingEdge (pin : Nat) (s : State) : Host.Outcome State Fault Refusal :=
  .next (s.resolveCommand .fallingEdge pin)

/-- `RESOLVE pin, HighLevel` (R120). -/
def execResolveHighLevel (pin : Nat) (s : State) : Host.Outcome State Fault Refusal :=
  .next (s.resolveCommand .highLevel pin)

/-- `RESOLVE pin, LowLevel` (R120). -/
def execResolveLowLevel (pin : Nat) (s : State) : Host.Outcome State Fault Refusal :=
  .next (s.resolveCommand .lowLevel pin)

/-- `RESOLVE pin, AsyncRising` (R120). -/
def execResolveAsyncRising (pin : Nat) (s : State) : Host.Outcome State Fault Refusal :=
  .next (s.resolveCommand .asyncRising pin)

/-- `RESOLVE pin, AsyncFalling` (R120). -/
def execResolveAsyncFalling (pin : Nat) (s : State) : Host.Outcome State Fault Refusal :=
  .next (s.resolveCommand .asyncFalling pin)

/-- `RESOLVE pin, PullConfig` (R120). -/
def execResolvePullConfig (pin : Nat) (s : State) : Host.Outcome State Fault Refusal :=
  .next (s.resolveCommand .pullConfig pin)

end Sys2Proof.Machine
end

