-- ==== Sys2Proof/Machine/WriteField.lean ====
section
/-!
DEFINITION. The Masked Field Accessor's command WRITE_FIELD, one meaning per family it accepts (R145).
-/

namespace Sys2Proof.Machine

/-- `WRITE_FIELD pin, Family, value` on a read-write family (R145, R146): the pin check, then the three steps of the
read-modify-write. -/
def State.modifyFieldCommand (s : State) (f : Family) (pin : Nat) (value : Word) : State :=
  s.withPin pin fun p =>
    s.proceed (.rmwAcquire { addr := resolve s.params p f, width := f.width, value := value, note := none })

/-- `WRITE_FIELD pin, Family, value` on a strobe family (R145, R147): the pin check, then the lock is taken, then
one write and no read (C2). -/
def State.strobeFieldCommand (s : State) (f : Family) (pin : Nat) (value : Word) : State :=
  s.withPin pin fun p =>
    let a := resolve s.params p f
    s.proceed (.strobeAcquire a (a.strobeData value))

/-- `WRITE_FIELD pin, FunctionSelect, value` (R146). -/
def execWriteFieldFunctionSelect (pin : Nat) (value : Word) (s : State) : Host.Outcome State Fault Refusal :=
  .next (s.modifyFieldCommand .functionSelect pin value)

/-- `WRITE_FIELD pin, Set, value` (R147). -/
def execWriteFieldSet (pin : Nat) (value : Word) (s : State) : Host.Outcome State Fault Refusal :=
  .next (s.strobeFieldCommand .set pin value)

/-- `WRITE_FIELD pin, Clear, value` (R147). -/
def execWriteFieldClear (pin : Nat) (value : Word) (s : State) : Host.Outcome State Fault Refusal :=
  .next (s.strobeFieldCommand .clear pin value)

/-- `WRITE_FIELD pin, RisingEdge, value` (R146). -/
def execWriteFieldRisingEdge (pin : Nat) (value : Word) (s : State) : Host.Outcome State Fault Refusal :=
  .next (s.modifyFieldCommand .risingEdge pin value)

/-- `WRITE_FIELD pin, FallingEdge, value` (R146). -/
def execWriteFieldFallingEdge (pin : Nat) (value : Word) (s : State) : Host.Outcome State Fault Refusal :=
  .next (s.modifyFieldCommand .fallingEdge pin value)

/-- `WRITE_FIELD pin, HighLevel, value` (R146). -/
def execWriteFieldHighLevel (pin : Nat) (value : Word) (s : State) : Host.Outcome State Fault Refusal :=
  .next (s.modifyFieldCommand .highLevel pin value)

/-- `WRITE_FIELD pin, LowLevel, value` (R146). -/
def execWriteFieldLowLevel (pin : Nat) (value : Word) (s : State) : Host.Outcome State Fault Refusal :=
  .next (s.modifyFieldCommand .lowLevel pin value)

/-- `WRITE_FIELD pin, AsyncRising, value` (R146). -/
def execWriteFieldAsyncRising (pin : Nat) (value : Word) (s : State) : Host.Outcome State Fault Refusal :=
  .next (s.modifyFieldCommand .asyncRising pin value)

/-- `WRITE_FIELD pin, AsyncFalling, value` (R146). -/
def execWriteFieldAsyncFalling (pin : Nat) (value : Word) (s : State) : Host.Outcome State Fault Refusal :=
  .next (s.modifyFieldCommand .asyncFalling pin value)

/-- `WRITE_FIELD pin, PullConfig, value` (R146). -/
def execWriteFieldPullConfig (pin : Nat) (value : Word) (s : State) : Host.Outcome State Fault Refusal :=
  .next (s.modifyFieldCommand .pullConfig pin value)

end Sys2Proof.Machine
end

