-- ==== Sys2Proof/Machine/Dispatch.lean ====
section
/-!
DEFINITION. What each instruction does: one arm per constructor of Instr.
-/

namespace Sys2Proof.Machine

def exec (i : Instr) (s : State) : Host.Outcome State Fault Refusal :=
  match i with
  | .resolveFunctionSelect pin => Sys2Proof.Machine.execResolveFunctionSelect pin s
  | .resolveSet pin => Sys2Proof.Machine.execResolveSet pin s
  | .resolveClear pin => Sys2Proof.Machine.execResolveClear pin s
  | .resolveLevel pin => Sys2Proof.Machine.execResolveLevel pin s
  | .resolveEventStatus pin => Sys2Proof.Machine.execResolveEventStatus pin s
  | .resolveRisingEdge pin => Sys2Proof.Machine.execResolveRisingEdge pin s
  | .resolveFallingEdge pin => Sys2Proof.Machine.execResolveFallingEdge pin s
  | .resolveHighLevel pin => Sys2Proof.Machine.execResolveHighLevel pin s
  | .resolveLowLevel pin => Sys2Proof.Machine.execResolveLowLevel pin s
  | .resolveAsyncRising pin => Sys2Proof.Machine.execResolveAsyncRising pin s
  | .resolveAsyncFalling pin => Sys2Proof.Machine.execResolveAsyncFalling pin s
  | .resolvePullConfig pin => Sys2Proof.Machine.execResolvePullConfig pin s
  | .readFieldFunctionSelect pin => Sys2Proof.Machine.execReadFieldFunctionSelect pin s
  | .readFieldLevel pin => Sys2Proof.Machine.execReadFieldLevel pin s
  | .readFieldEventStatus pin => Sys2Proof.Machine.execReadFieldEventStatus pin s
  | .readFieldRisingEdge pin => Sys2Proof.Machine.execReadFieldRisingEdge pin s
  | .readFieldFallingEdge pin => Sys2Proof.Machine.execReadFieldFallingEdge pin s
  | .readFieldHighLevel pin => Sys2Proof.Machine.execReadFieldHighLevel pin s
  | .readFieldLowLevel pin => Sys2Proof.Machine.execReadFieldLowLevel pin s
  | .readFieldAsyncRising pin => Sys2Proof.Machine.execReadFieldAsyncRising pin s
  | .readFieldAsyncFalling pin => Sys2Proof.Machine.execReadFieldAsyncFalling pin s
  | .readFieldPullConfig pin => Sys2Proof.Machine.execReadFieldPullConfig pin s
  | .writeFieldFunctionSelect pin value => Sys2Proof.Machine.execWriteFieldFunctionSelect pin value s
  | .writeFieldSet pin value => Sys2Proof.Machine.execWriteFieldSet pin value s
  | .writeFieldClear pin value => Sys2Proof.Machine.execWriteFieldClear pin value s
  | .writeFieldRisingEdge pin value => Sys2Proof.Machine.execWriteFieldRisingEdge pin value s
  | .writeFieldFallingEdge pin value => Sys2Proof.Machine.execWriteFieldFallingEdge pin value s
  | .writeFieldHighLevel pin value => Sys2Proof.Machine.execWriteFieldHighLevel pin value s
  | .writeFieldLowLevel pin value => Sys2Proof.Machine.execWriteFieldLowLevel pin value s
  | .writeFieldAsyncRising pin value => Sys2Proof.Machine.execWriteFieldAsyncRising pin value s
  | .writeFieldAsyncFalling pin value => Sys2Proof.Machine.execWriteFieldAsyncFalling pin value s
  | .writeFieldPullConfig pin value => Sys2Proof.Machine.execWriteFieldPullConfig pin value s
  | .request pin => Sys2Proof.Machine.execRequest pin s
  | .configureFunction pin fn => Sys2Proof.Machine.execConfigureFunction pin fn s
  | .writeLevel pin value => Sys2Proof.Machine.execWriteLevel pin value s
  | .readLevel pin => Sys2Proof.Machine.execReadLevel pin s
  | .release pin => Sys2Proof.Machine.execRelease pin s

end Sys2Proof.Machine
end

