-- ==== Sys2Proof/Machine/Step.lean ====
section
/-!
DEFINITION. One step of the machine: the next move of R65's total order, a port's or another agent's.
-/

namespace Sys2Proof.Machine

/-- The active port's turn: an idle port takes the oldest command presented, decodes it and runs it, and answers
`IllegalCommand` to a word that is no command (R97, R207); a port with a command in flight goes on with it. -/
def portTurn (s : State) : Host.Outcome State Fault Refusal :=
  match s.inflight with
  | some _ => .next (s.run (s.turn + 1))
  | none =>
    match s.presented with
    | none => .next s
    | some c =>
      match decode c.1 c.2 with
      | .ok i => exec i s.accept
      | .error _ => .next (s.accept.raise .illegalCommand)

/-- One step. Parameters that break a constraint have no meaning (R5); with nothing to do the machine waits (R231). -/
def step (s : State) : Host.Outcome State Fault Refusal :=
  if s.params.valid && !s.ports.isEmpty then
    match s.nextMove with
    | none => .next s
    | some (.port k more) => portTurn (s.afterMove.giveTurn k more)
    | some m => .next (s.afterMove.environment m)
  else .refused .badParameters

/-- The command whose bits are `w`, numbered as the opcode table numbers them, presented first on port 0, which is
idle and moves next: the very next step runs it (log entry 6). -/
def State.withFetchWord (s : State) (nbits w : Nat) : State :=
  let v := w % 2 ^ nbits
  s.presentFirst 0 (BitVec.ofNat 32 v) (BitVec.ofNat 32 (v / 2 ^ 32))

end Sys2Proof.Machine
end

