-- ==== Sys2Proof/Safety.lean ====
section
/-!
DEFINITION. What a sound state and a safe run are, in the terms the statements use.
-/

namespace Sys2Proof.Machine

/-- The active port has just accepted a command. -/
abbrev State.accepted (s : State) : Prop := s.inflight.map InFlight.pos = some .start

/-- The active port has accepted a command and takes all its steps before another agent moves. -/
abbrev State.undisturbed (s : State) : Prop := s.accepted ∧ wholeCommand ≤ s.turn

/-- The stored value of a pin's field in a read-write family. -/
def State.fieldValue (s : State) (f : Family) (p : PinIndex) : Word :=
  (resolve s.params p f).extract f.width (Memory.read s.csr (resolve s.params p f).off)

/-- The number of `Ready` entries of the line table. -/
def State.readyCount (s : State) : Nat :=
  (List.finRange 58).countP fun p => decide ((s.line p).state = .ready)

/-- R32: the count is the number of `Ready` lines. -/
abbrev CountsReady (s : State) : Prop := s.refcount = s.readyCount

/-- R31, R127: a `Ready` line's addresses are the resolved ones, and no other line has any. -/
abbrev LinesResolved (s : State) : Prop :=
  ∀ p : PinIndex, (s.line p).addr = if (s.line p).state = .ready then some (resolveAll s.params p) else none

/-- R20, R58: the stored words are in canonical form, each is a word of a read-write family, and reserved bits are not
stored. -/
abbrev StoredValid (s : State) : Prop :=
  Memory.wf s.csr = true ∧
    ∀ e ∈ s.csr, ∃ w ∈ regWords, w.fam.access = .readWrite ∧ w.off s.params = e.1 ∧ e.2 &&& ~~~w.mask = 0

/-- R33, R68: the locks held are exactly those of the commands between their lock's taking and giving back, so a lock
has one holder and the ports inside a word's read-modify-write exclude each other. -/
def LocksHeld (s : State) : Prop :=
  Sparse.rising s.locks = true ∧
    ∀ off k, Sparse.find off s.locks = some k ↔
      ∃ q f, s.ports[k]? = some q ∧ q.inflight = some f ∧ f.pos.holds = some off

/-- A read-modify-write in flight is of a pin's field in a read-write family. -/
def Rmw.ok (ps : Params) (j : Rmw) : Prop :=
  ∃ p f, f.access = .readWrite ∧ j.addr = resolve ps p f ∧ j.width = f.width

/-- The temporaries of a command in flight are those some command leaves at the position; none rests at its start. -/
def Phase.ok (ps : Params) : Phase → Prop
  | .start => False
  | .rmwAcquire j => j.ok ps
  | .rmwRead j => j.ok ps
  | .rmwWrite j current => j.ok ps ∧ current &&& ~~~j.addr.writeMask = 0
  | .strobeAcquire a data => ∃ p f v, f.access = .strobe ∧ a = resolve ps p f ∧ data = a.strobeData v
  | .strobeWrite a data => ∃ p f v, f.access = .strobe ∧ a = resolve ps p f ∧ data = a.strobeData v
  | .driveLevel a data => ∃ p f, f.access = .strobe ∧ a = resolve ps p f ∧ data = a.strobeData 1
  | .checkFn fsel target =>
    ∃ p f, fsel = resolve ps p .functionSelect ∧ f.access = .strobe ∧ target = resolve ps p f
  | .readLevel a => ∃ p, a = resolve ps p .level

/-- Every command in flight is at a position its command can reach. -/
def PhasesOk (s : State) : Prop :=
  ∀ q ∈ s.ports, ∀ f, q.inflight = some f → f.pos.ok s.params

/-- R53, R98, R150: a transaction reads or writes a register word whose access type allows it, and a write sets no
reserved bit. -/
def BusTxn.ok (ps : Params) (t : BusTxn) : Prop :=
  ∃ w ∈ regWords, w.off ps = t.off ∧
    match t.kind with
    | .read => w.fam.access ≠ .strobe
    | .write => (w.fam.access = .readWrite ∨ w.fam.access = .strobe) ∧ t.data &&& ~~~w.mask = 0

/-- R68: while the lock at the offset is held and the active port's command keeps its position, however the machine has
gone on, the port has no enabled step, and a turn given to it changes nothing. -/
def WaitsFor (s : State) (off : Nat) : Prop :=
  s.inflight.isSome = true ∧
    ∀ u : State, u.inflight = s.inflight → u.lockFree off = false → u.enabled u.active = false ∧ ∀ n, u.run n = u

/-- The read-modify-write that the rest of the command performs, if it is one (R146, R174). -/
def Phase.modifies : Phase → Option Rmw
  | .rmwAcquire j => some j
  | .rmwRead j => some j
  | .rmwWrite j _ => some j
  | _ => none

/-- The Set or Clear address that the rest of the command may strobe, if any (R147, R175). -/
def Phase.strobes : Phase → Option Resolved
  | .strobeAcquire a _ => some a
  | .strobeWrite a _ => some a
  | .driveLevel a _ => some a
  | .checkFn _ target => some target
  | _ => none

/-- The next step is the turn of an idle port whose oldest command decodes to `i`: the step takes the command. -/
def State.takes (s : State) (i : Instr) : Prop :=
  ∃ k more q c, s.nextMove = some (.port k more) ∧ s.ports[k]? = some q ∧ q.inflight = none ∧
    q.pending.head? = some c ∧ decode c.1 c.2 = .ok i

/-- A safe run: every transaction the block has issued is in order. -/
def BusOk (s : State) : Prop := ∀ t ∈ s.bus, t.ok s.params

/-- The invariant of the machine. -/
structure Inv (s : State) : Prop where
  params : s.params.valid = true
  ports  : s.ports ≠ []
  counts : CountsReady s
  lines  : LinesResolved s
  stored : StoredValid s
  locks  : LocksHeld s
  phases : PhasesOk s
  bus    : BusOk s

end Sys2Proof.Machine
end

