-- ==== Sys2Proof/Certificates/Slice0/Obligations.lean ====
section
/-!
DEFINITION. The statements for the provers.
-/

open Sys2Proof Sys2Proof.Machine

/-! ### Command words -/

/-- R102: words written out from the table of R102 and the vectors of V-R2, V-E1 decode to the commands they stand for. -/
def Obligations.SpecWordsDecode : Prop :=
  decode 0x01000009 0 = .ok (.resolveFunctionSelect 9) ∧
  decode 0x01B00039 0 = .ok (.resolvePullConfig 57) ∧
  decode 0x02400011 0 = .ok (.readFieldEventStatus 17) ∧
  decode 0x0350001F 1 = .ok (.writeFieldRisingEdge 31 1) ∧
  decode 0x03100011 0 = .ok (.writeFieldSet 17 0) ∧
  decode 0x1000003A 7 = .ok (.request 58) ∧
  decode 0x11070039 0 = .ok (.configureFunction 57 .alt3) ∧
  decode 0x12000011 2 = .ok (.writeLevel 17 2) ∧
  decode 0x1300FFFF 0 = .ok (.readLevel 65535) ∧
  decode 0x14000011 0 = .ok (.release 17) ∧
  decode 0x00000000 0 = .error .reservedOpcode ∧
  decode 0x1208FFFF 0 = .error .mustBeZero ∧
  decode 0x01C00011 0 = .error .reservedFamily ∧
  decode 0x02070011 0 = .error .unusedFunction ∧
  decode 0x03400011 0 = .error .refusedPair

/-- R91, R102: decoding the words of a well-formed command gives the command back, with every operand. -/
def Obligations.DecodeEncodeRoundTrip : Prop :=
  ∀ i : Instr, i.wellFormed = true → decode (encode i).cmd (encode i).opnd = .ok i

/-- R91, R95: a legal command word is the encoding of the command it decodes to, and the operand word is either kept
or ignored whatever it holds. -/
def Obligations.EncodeDecodeRoundTrip : Prop :=
  ∀ (cmd opnd : Word) (i : Instr), decode cmd opnd = .ok i →
    i.wellFormed = true ∧ (encode i).cmd = cmd ∧
      ((encode i).opnd = opnd ∨ ((encode i).opnd = 0 ∧ ∀ o : Word, decode cmd o = .ok i))

/-- R92: the table has 37 rows, no word is of two rows, and the legal words are those of some row. -/
def Obligations.LegalWordsAreTableRows : Prop :=
  opcodeRows.length = 37 ∧
  (∀ cmd : Word, opcodeRows.Pairwise fun a b => ¬(a.holds cmd = true ∧ b.holds cmd = true)) ∧
  ∀ cmd opnd : Word, (∃ i, decode cmd opnd = .ok i) ↔ ∃ r ∈ opcodeRows, r.holds cmd = true

/-- R97: when a word is illegal, and by which test, in order; and an illegal command returns `IllegalCommand`, issues
no bus transaction and changes no state: of the machine nothing changes but that the port has taken the command and
returned the response. -/
def Obligations.IllegalCommands : Prop :=
  (∀ cmd opnd : Word,
    let op := cmd.toNat / 2 ^ 24
    let fam := cmd.toNat / 2 ^ 20 % 16
    let z := cmd.toNat / 2 ^ 19 % 2
    let fn := cmd.toNat / 2 ^ 16 % 8
    let a := op ∉ [0x01, 0x02, 0x03, 0x10, 0x11, 0x12, 0x13, 0x14]
    let b := z ≠ 0
    let c := (op ∈ [0x01, 0x02, 0x03] ∧ 12 ≤ fam) ∨ (op ∈ [0x10, 0x11, 0x12, 0x13, 0x14] ∧ fam ≠ 0)
    let d := op ≠ 0x11 ∧ fn ≠ 0
    let e := (op = 0x02 ∧ fam ∈ [1, 2]) ∨ (op = 0x03 ∧ fam ∈ [3, 4])
    (decode cmd opnd = .error .reservedOpcode ↔ a) ∧
    (decode cmd opnd = .error .mustBeZero ↔ ¬a ∧ b) ∧
    (decode cmd opnd = .error .reservedFamily ↔ ¬a ∧ ¬b ∧ c) ∧
    (decode cmd opnd = .error .unusedFunction ↔ ¬a ∧ ¬b ∧ ¬c ∧ d) ∧
    (decode cmd opnd = .error .refusedPair ↔ ¬a ∧ ¬b ∧ ¬c ∧ ¬d ∧ e)) ∧
  ∀ (s : State) (k more : Nat) (rest : List Move) (q : Port) (cmd opnd : Word) (cs : List (Word × Word)) (why : Illegal),
    s.params.valid = true → s.sched = .port k more :: rest → s.ports[k]? = some q → q.inflight = none →
    q.pending = (cmd, opnd) :: cs → decode cmd opnd = .error why →
    step s = .next
      { s with
        sched := rest, active := k, turn := more
        ports := s.ports.modify k fun p =>
          { p with
            pending := cs
            responses := p.responses ++
              [{ status := .illegalCommand, rdata := 0, wordIndex := 0, off := 0, shift := 0, wmask := 0, rmask := 0 }] } }

/-! ### The step -/

/-- R22, R90: the step in which it is the turn of an idle port with a legal command runs that command, on the state in
which the port has accepted it; the turn is the schedule's, or, when nothing is scheduled, that of the first port that
has an enabled step, for a whole command (the second clause is the model's choice, log entry 4). -/
def Obligations.StepRunsDecodedCommand : Prop :=
  ∀ (s : State) (k more : Nat) (q : Port) (cmd opnd : Word) (cs : List (Word × Word)) (i : Instr),
    s.params.valid = true → s.ports[k]? = some q → q.inflight = none → q.pending = (cmd, opnd) :: cs →
    decode cmd opnd = .ok i →
    (∀ rest, s.sched = .port k more :: rest →
      step s = exec i
        { s with
          sched := rest, active := k, turn := more
          ports := s.ports.modify k fun p =>
            { p with pending := cs, inflight := some { cmd := cmd, opnd := opnd, pos := .start } } }) ∧
    (s.sched = [] → s.firstEnabled = some k →
      step s = exec i
        { s with
          active := k, turn := 3
          ports := s.ports.modify k fun p =>
            { p with pending := cs, inflight := some { cmd := cmd, opnd := opnd, pos := .start } } })

/-- R5, R211, R213: a step is refused only for parameters that break a constraint or for want of a port; otherwise,
whatever is presented and whatever the state, it answers a next state, and the parameters and the number of ports stay. -/
def Obligations.StepAnswers : Prop :=
  ∀ s : State,
    (s.params.valid = true → s.ports ≠ [] →
      ∃ t, step s = .next t ∧ t.params = s.params ∧ t.ports.length = s.ports.length) ∧
    (¬(s.params.valid = true ∧ s.ports ≠ []) → step s = .refused .badParameters)

/-! ### The resolver -/

/-- R120 to R126: RESOLVE, in every family, answers the ResolvedAddress and changes nothing else. (What `r_off` holds
for an offset of 4096 or more is `offField`'s free value, log entry 7.) -/
def Obligations.ResolveAnswersAddress : Prop :=
  ∀ (f : Family) (pin : Nat) (s : State), pin < 58 →
    exec (Instr.ofResolve f pin) s = .next
      { s with
        ports := s.ports.modify s.active (Port.answer
          { status := .ok
            rdata := 0
            wordIndex := BitVec.ofNat 3 (pin / f.pinsPerWord % f.wordCount)
            off := offField (f.baseOff s.params + 4 * (pin / f.pinsPerWord % f.wordCount))
            shift := BitVec.ofNat 5 (pin % f.pinsPerWord * f.width)
            wmask := if pin / f.pinsPerWord % f.wordCount = f.wordCount - 1 then f.lastMask else f.fullMask
            rmask := if pin / f.pinsPerWord % f.wordCount = f.wordCount - 1 then f.lastMask else f.fullMask }) }

/-- R128: the resolver's laws L1 to L7, for every pin and family: the word is one of the family's, the field fits the word
and lies in its mask, the fields of a word's pins are apart and fill the mask, word index and shift determine the pin,
and pin 57 is in the last word. -/
def Obligations.ResolverLaws : Prop :=
  ∀ (ps : Params) (f : Family) (p : PinIndex),
    p.val / f.pinsPerWord < f.wordCount ∧
    (resolve ps p f).shift + f.width ≤ 32 ∧
    (resolve ps p f).fieldMask f.width &&& ~~~(resolve ps p f).writeMask = 0 ∧
    (∀ q : PinIndex, q ≠ p → (resolve ps q f).wordIndex = (resolve ps p f).wordIndex →
      (resolve ps p f).fieldMask f.width &&& (resolve ps q f).fieldMask f.width = 0) ∧
    (∀ n : Nat, (resolve ps p f).writeMask.getLsbD n = true ↔
      ∃ q : PinIndex, (resolve ps q f).wordIndex = (resolve ps p f).wordIndex ∧
        ((resolve ps q f).fieldMask f.width).getLsbD n = true) ∧
    p.val = (resolve ps p f).wordIndex * f.pinsPerWord + (resolve ps p f).shift / f.width ∧
    (p.val = 57 → (resolve ps p f).wordIndex = f.wordCount - 1)

/-- R201: every command with a pin field above 57 returns `BadPin`, with no bus transaction and no state change. -/
def Obligations.BadPinReturned : Prop :=
  ∀ (i : Instr) (s : State), 57 < i.pin →
    exec i s = .next { s with ports := s.ports.modify s.active (Port.answer (Response.bare .badPin)) }

/-! ### READ_FIELD -/

/-- R140, R141: READ_FIELD on a read-write family answers the pin's stored field, after one bus read of its word, and
changes nothing else but the draws taken. -/
def Obligations.ReadFieldReturnsStoredField : Prop :=
  ∀ (f : Family) (pin : Nat) (h : pin < 58) (i : Instr) (s : State),
    f.access = .readWrite → Instr.ofReadField f pin = some i → s.params.valid = true →
    let a := resolve s.params ⟨pin, h⟩ f
    ∃ t, exec i s = .next t ∧
      t = { s with ports := t.ports, bus := t.bus, supply := t.supply, drawn := t.drawn } ∧
      t.ports = s.ports.modify s.active
        (Port.answer (Response.value ((Memory.read s.csr a.off >>> a.shift) &&& (((1 : Word) <<< f.width) - 1)))) ∧
      ∃ w : Word, w &&& a.readMask = Memory.read s.csr a.off &&& a.readMask ∧
        t.bus = s.bus ++ [{ kind := .read, off := a.off, data := w }]

/-- R61, R140: READ_FIELD of Level answers the output latch of a pin whose live function is OUTPUT, and the pad of any
other. -/
def Obligations.ReadFieldLevelReturnsPinLevel : Prop :=
  ∀ (pin : Nat) (h : pin < 58) (s : State), s.params.valid = true →
    let p : PinIndex := ⟨pin, h⟩
    ∃ t, exec (.readFieldLevel pin) s = .next t ∧
      t = { s with ports := t.ports, bus := t.bus, supply := t.supply, drawn := t.drawn } ∧
      t.ports = s.ports.modify s.active (Port.answer (Response.value
        (if (if s.fieldValue .functionSelect p = 1 then s.olat[p] else s.pad[p]) = true then 1 else 0))) ∧
      ∃ w : Word, t.bus = s.bus ++ [{ kind := .read, off := 0x34 + 4 * (pin / 32), data := w }]

/-- R62, R140: READ_FIELD of EventStatus answers the pin's event latch. -/
def Obligations.ReadFieldEventStatusReturnsLatch : Prop :=
  ∀ (pin : Nat) (h : pin < 58) (s : State), s.params.valid = true →
    let p : PinIndex := ⟨pin, h⟩
    ∃ t, exec (.readFieldEventStatus pin) s = .next t ∧
      t = { s with ports := t.ports, bus := t.bus, supply := t.supply, drawn := t.drawn } ∧
      t.ports = s.ports.modify s.active (Port.answer (Response.value (if s.eds[p] = true then 1 else 0))) ∧
      ∃ w : Word, t.bus = s.bus ++ [{ kind := .read, off := 0x40 + 4 * (pin / 32), data := w }]

/-! ### WRITE_FIELD -/

/-- R145, R146, R149: WRITE_FIELD on a read-write family, its lock free and its turn not interrupted, reads the word,
writes it with the pin's field replaced by the low bits of the value and the reserved bits 0, and answers `Ok`; every
other word, and everything else but the draws taken, stays. -/
def Obligations.WriteFieldStoresField : Prop :=
  ∀ (f : Family) (pin : Nat) (h : pin < 58) (value : Word) (i : Instr) (s : State),
    f.access = .readWrite → Instr.ofWriteField f pin value = some i → s.params.valid = true → s.undisturbed →
    let a := resolve s.params ⟨pin, h⟩ f
    let fm : Word := ((1 : Word) <<< f.width) - 1
    let new := (Memory.read s.csr a.off &&& a.writeMask &&& ~~~(fm <<< a.shift)) ||| ((value &&& fm) <<< a.shift)
    s.lockFree a.off = true →
    ∃ t, exec i s = .next t ∧
      t = { s with csr := t.csr, ports := t.ports, bus := t.bus, supply := t.supply, drawn := t.drawn } ∧
      t.csr = Memory.write s.csr a.off new ∧
      (∀ off, off ≠ a.off → Memory.read t.csr off = Memory.read s.csr off) ∧
      t.ports = s.ports.modify s.active (Port.answer (Response.bare .ok)) ∧
      ∃ w : Word, w &&& a.readMask = Memory.read s.csr a.off &&& a.readMask ∧
        t.bus = s.bus ++ [{ kind := .read, off := a.off, data := w }, { kind := .write, off := a.off, data := new }]

/-- R60, R147: WRITE_FIELD on Set and Clear issues one write and no read, carrying the value's low bit at the pin's
place, and answers `Ok`. On a 0 no latch changes; on a 1 the pin's latch becomes the level if the pin's live function
is OUTPUT, and otherwise any value; no other pin's latch, and nothing else but the draws taken, changes. -/
def Obligations.WriteFieldStrobesPin : Prop :=
  ∀ (level : Bool) (pin : Nat) (h : pin < 58) (value : Word) (s : State), s.params.valid = true → s.undisturbed →
    let p : PinIndex := ⟨pin, h⟩
    let f : Family := if level then .set else .clear
    let i : Instr := if level then .writeFieldSet pin value else .writeFieldClear pin value
    let a := resolve s.params p f
    s.lockFree a.off = true →
    ∃ t, exec i s = .next t ∧
      t = { s with olat := t.olat, ports := t.ports, bus := t.bus, supply := t.supply, drawn := t.drawn } ∧
      (∀ q : PinIndex, q ≠ p → t.olat[q] = s.olat[q]) ∧
      (value.getLsbD 0 = false → t.olat[p] = s.olat[p]) ∧
      (value.getLsbD 0 = true → s.fieldValue .functionSelect p = 1 → t.olat[p] = level) ∧
      t.ports = s.ports.modify s.active (Port.answer (Response.bare .ok)) ∧
      t.bus = s.bus ++ [{ kind := .write, off := a.off, data := (value &&& 1) <<< a.shift }]

/-- R151: after an uninterrupted WRITE_FIELD of one pin in one read-write family, the pin's field is the value's low
bits and the field of every other pin, in every read-write family, is what it was. -/
def Obligations.WriteFieldIsolatesOtherPins : Prop :=
  ∀ (f : Family) (p : PinIndex) (value : Word) (i : Instr) (s : State),
    f.access = .readWrite → Instr.ofWriteField f p.val value = some i → s.params.valid = true → s.undisturbed →
    s.lockFree (resolve s.params p f).off = true →
    ∃ t, exec i s = .next t ∧
      t.fieldValue f p = value &&& (((1 : Word) <<< f.width) - 1) ∧
      ∀ (g : Family) (q : PinIndex), g.access = .readWrite → (g ≠ f ∨ q ≠ p) → t.fieldValue g q = s.fieldValue g q

/-- R152: the same WRITE_FIELD a second time, nothing else having changed the word, leaves the register file as the
first left it; on Set and Clear, for a pin whose live function is OUTPUT, the latches too. -/
def Obligations.WriteFieldIdempotent : Prop :=
  ∀ (f : Family) (p : PinIndex) (value : Word) (i : Instr) (s : State),
    Instr.ofWriteField f p.val value = some i → s.params.valid = true → s.undisturbed →
    s.lockFree (resolve s.params p f).off = true →
    (f.access = .strobe → s.fieldValue .functionSelect p = 1) →
    ∃ t, exec i s = .next t ∧
      ∀ u : State, u.params = t.params → u.csr = t.csr → u.olat = t.olat → u.undisturbed →
        u.lockFree (resolve s.params p f).off = true →
        ∃ v, exec i u = .next v ∧ v.csr = t.csr ∧ v.olat = t.olat

/-- R34, R68, R233: a WRITE_FIELD on a read-write family interrupted after its read holds the word's lock and has
written nothing; and whatever the register file holds when it goes on, the word it then writes is computed from the
word it read, so a write by another master in between is lost in every field but its own; and it gives the lock back. -/
def Obligations.WriteFieldWritesBackWordRead : Prop :=
  ∀ (f : Family) (pin : Nat) (h : pin < 58) (value : Word) (i : Instr) (s : State),
    f.access = .readWrite → Instr.ofWriteField f pin value = some i → s.params.valid = true →
    s.accepted → s.turn = 2 →
    let a := resolve s.params ⟨pin, h⟩ f
    s.lockFree a.off = true →
    ∃ t, exec i s = .next t ∧ t.csr = s.csr ∧ Sparse.find a.off t.locks = some s.active ∧ t.inflight.isSome = true ∧
      ∀ u : State, u.params = s.params → u.inflight = t.inflight →
        (u.run 1).csr = Memory.write u.csr a.off (a.merge f.width (Memory.read s.csr a.off) value) ∧
        (u.run 1).inflight = none ∧ (u.run 1).lockFree a.off = true

/-- R68: each of the three lock-taking commands, its word locked, waits at the taking of the lock and nothing else happens:
WRITE_FIELD on any of its families and CONFIGURE_FUNCTION without any bus transaction, WRITE_LEVEL after the read that has
found OUTPUT. None writes, answers or changes any state but the draw of that read; its port has no enabled step as long as
the lock is held. -/
def Obligations.HeldLockStopsWriter : Prop :=
  (∀ (f : Family) (pin : Nat) (h : pin < 58) (value : Word) (i : Instr) (s : State),
    let a := resolve s.params ⟨pin, h⟩ f
    Instr.ofWriteField f pin value = some i → s.accepted → s.lockFree a.off = false →
    ∃ t ph, exec i s = .next t ∧ ph.needs = some a.off ∧
      t = { s with ports := s.ports.modify s.active (Port.goto ph) } ∧ WaitsFor t a.off) ∧
  (∀ (pin : Nat) (h : pin < 58) (fn : Fn) (s : State),
    let p : PinIndex := ⟨pin, h⟩
    let a := resolve s.params p .functionSelect
    LinesResolved s → (s.line p).state = .ready → s.accepted → s.lockFree a.off = false →
    ∃ t ph, exec (.configureFunction pin fn) s = .next t ∧ ph.needs = some a.off ∧
      t = { s with ports := s.ports.modify s.active (Port.goto ph) } ∧ WaitsFor t a.off) ∧
  (∀ (pin : Nat) (h : pin < 58) (value : Word) (s : State),
    let p : PinIndex := ⟨pin, h⟩
    let a := resolve s.params p .functionSelect
    let b := resolve s.params p (if value = 1 then .set else .clear)
    s.params.valid = true → LinesResolved s → (s.line p).state = .ready → s.accepted → 1 ≤ s.turn →
    (value = 0 ∨ value = 1) → s.fieldValue .functionSelect p = 1 → s.lockFree b.off = false →
    ∃ t ph, exec (.writeLevel pin value) s = .next t ∧ ph.needs = some b.off ∧
      t = { s with ports := s.ports.modify s.active (Port.goto ph), bus := t.bus, supply := t.supply, drawn := t.drawn } ∧
      (∃ w : Word, w &&& a.readMask = Memory.read s.csr a.off &&& a.readMask ∧
        t.bus = s.bus ++ [{ kind := .read, off := a.off, data := w }]) ∧
      WaitsFor t b.off)

/-! ### The line layer -/

/-- R171: a REQUEST of a pin that is not `Ready` succeeds when the environment signals no failure, and also when it
signals a failure to open or map while the region is mapped: the twelve addresses are resolved, no function is known,
the line is `Ready` and the count is one more; nothing else changes. -/
def Obligations.RequestCreatesLine : Prop :=
  ∀ (pin : Nat) (h : pin < 58) (s : State),
    let p : PinIndex := ⟨pin, h⟩
    (s.line p).state ≠ .ready →
    (s.envFail = .none ∨ (s.refcount ≠ 0 ∧ (s.envFail = .deviceOpenFailed ∨ s.envFail = .mapFailed))) →
    exec (.request pin) s = .next
      { s with
        lines := s.lines.set p { state := .ready, addr := some (resolveAll s.params p), lastFn := none }
        refcount := s.refcount + 1
        ports := s.ports.modify s.active (Port.answer (Response.bare .ok)) }

/-- R171, R202, R203: when the environment's failure takes effect, REQUEST returns its status and nothing changes. -/
def Obligations.RequestFailureStatuses : Prop :=
  ∀ (pin : Nat) (h : pin < 58) (s : State), (s.line ⟨pin, h⟩).state ≠ .ready →
    let failed := fun st : Status =>
      exec (.request pin) s = .next { s with ports := s.ports.modify s.active (Port.answer (Response.bare st)) }
    (s.envFail = .deviceOpenFailed → s.refcount = 0 → failed .deviceOpenFailed) ∧
    (s.envFail = .mapFailed → s.refcount = 0 → failed .mapFailed) ∧
    (s.envFail = .allocationFailed → failed .allocationFailed)

/-- R172: a REQUEST whose status is not `Ok` leaves everything but its port's response as it was. -/
def Obligations.RequestRollsBack : Prop :=
  ∀ (pin : Nat) (s : State), ∃ t r, exec (.request pin) s = .next t ∧
    t.ports = s.ports.modify s.active (Port.answer r) ∧
    (r.status ≠ .ok → t = { s with ports := t.ports })

/-- R173: a REQUEST of a pin that is already `Ready` succeeds and changes nothing, whatever `env_fail` is. -/
def Obligations.RequestOfReadyPinKeepsLine : Prop :=
  ∀ (pin : Nat) (h : pin < 58) (s : State), (s.line ⟨pin, h⟩).state = .ready →
    exec (.request pin) s = .next { s with ports := s.ports.modify s.active (Port.answer (Response.bare .ok)) }

/-- R178, R204: CONFIGURE_FUNCTION, WRITE_LEVEL (whatever the value, R210), READ_LEVEL and RELEASE on a pin whose line
is not `Ready` return `NullState` and change nothing. -/
def Obligations.LineCommandsNeedReady : Prop :=
  ∀ (pin : Nat) (h : pin < 58) (fn : Fn) (value : Word) (s : State), (s.line ⟨pin, h⟩).state ≠ .ready →
    ∀ i ∈ [Instr.configureFunction pin fn, Instr.writeLevel pin value, Instr.readLevel pin, Instr.release pin],
      exec i s = .next { s with ports := s.ports.modify s.active (Port.answer (Response.bare .nullState)) }

/-- R174: CONFIGURE_FUNCTION of a `Ready` line, the lock free and the turn not interrupted, reads the pin's
FunctionSelect word, writes it with the pin's field replaced by the code, notes the code in the line, and answers `Ok`. -/
def Obligations.ConfigureFunctionWritesCode : Prop :=
  ∀ (pin : Nat) (h : pin < 58) (fn : Fn) (s : State),
    let p : PinIndex := ⟨pin, h⟩
    s.params.valid = true → LinesResolved s → (s.line p).state = .ready → s.undisturbed →
    let a := resolve s.params p .functionSelect
    let new := (Memory.read s.csr a.off &&& a.writeMask &&& ~~~((7 : Word) <<< a.shift)) ||| (BitVec.ofNat 32 fn.code <<< a.shift)
    s.lockFree a.off = true →
    ∃ t, exec (.configureFunction pin fn) s = .next t ∧
      t = { s with csr := t.csr, lines := t.lines, ports := t.ports, bus := t.bus, supply := t.supply, drawn := t.drawn } ∧
      t.csr = Memory.write s.csr a.off new ∧
      (∀ off, off ≠ a.off → Memory.read t.csr off = Memory.read s.csr off) ∧
      t.lines = s.lines.set p { s.line p with lastFn := some fn } ∧
      t.ports = s.ports.modify s.active (Port.answer (Response.bare .ok)) ∧
      ∃ w : Word, w &&& a.readMask = Memory.read s.csr a.off &&& a.readMask ∧
        t.bus = s.bus ++ [{ kind := .read, off := a.off, data := w }, { kind := .write, off := a.off, data := new }]

/-- R175: WRITE_LEVEL of 0 or 1 on a `Ready` line whose live function is OUTPUT, the lock free and the turn not
interrupted, reads the FunctionSelect word, writes one 1 bit to the pin's Set word (for 1) or Clear word (for 0), drives
the latch, and answers `Ok`; no other latch changes. -/
def Obligations.WriteLevelDrivesOutput : Prop :=
  ∀ (pin : Nat) (h : pin < 58) (value : Word) (s : State),
    let p : PinIndex := ⟨pin, h⟩
    s.params.valid = true → LinesResolved s → (s.line p).state = .ready → s.undisturbed →
    (value = 0 ∨ value = 1) → s.fieldValue .functionSelect p = 1 →
    let a := resolve s.params p .functionSelect
    let b := resolve s.params p (if value = 1 then .set else .clear)
    s.lockFree b.off = true →
    ∃ t, exec (.writeLevel pin value) s = .next t ∧
      t = { s with olat := t.olat, ports := t.ports, bus := t.bus, supply := t.supply, drawn := t.drawn } ∧
      t.olat = s.olat.set p (decide (value = 1)) ∧
      t.ports = s.ports.modify s.active (Port.answer (Response.bare .ok)) ∧
      ∃ w : Word, w &&& a.readMask = Memory.read s.csr a.off &&& a.readMask ∧
        t.bus = s.bus ++
          [{ kind := .read, off := a.off, data := w }, { kind := .write, off := b.off, data := (1 : Word) <<< b.shift }]

/-- R175, R205: WRITE_LEVEL on a pin whose live function is not OUTPUT returns `PinMisconfigured` after one bus read;
no write is issued and no state changes but the draw taken. The lock is not asked for. -/
def Obligations.WriteLevelPinMisconfigured : Prop :=
  ∀ (pin : Nat) (h : pin < 58) (value : Word) (s : State),
    let p : PinIndex := ⟨pin, h⟩
    s.params.valid = true → LinesResolved s → (s.line p).state = .ready → s.accepted → 1 ≤ s.turn →
    (value = 0 ∨ value = 1) → s.fieldValue .functionSelect p ≠ 1 →
    ∃ t, exec (.writeLevel pin value) s = .next t ∧
      t = { s with ports := t.ports, bus := t.bus, supply := t.supply, drawn := t.drawn } ∧
      t.ports = s.ports.modify s.active (Port.answer (Response.bare .pinMisconfigured)) ∧
      ∃ w : Word, t.bus = s.bus ++ [{ kind := .read, off := 4 * (pin / 10), data := w }]

/-- R175, R206, R210: WRITE_LEVEL of a value above 1 on a `Ready` line returns `OutOfRange` before any bus access. -/
def Obligations.WriteLevelOutOfRange : Prop :=
  ∀ (pin : Nat) (h : pin < 58) (value : Word) (s : State), (s.line ⟨pin, h⟩).state = .ready → value ≠ 0 → value ≠ 1 →
    exec (.writeLevel pin value) s =
      .next { s with ports := s.ports.modify s.active (Port.answer (Response.bare .outOfRange)) }

/-- R176: READ_LEVEL of a `Ready` line answers the latch of an output and the pad of any other pin, after one read of
its Level word. -/
def Obligations.ReadLevelReturnsPinLevel : Prop :=
  ∀ (pin : Nat) (h : pin < 58) (s : State),
    let p : PinIndex := ⟨pin, h⟩
    s.params.valid = true → LinesResolved s → (s.line p).state = .ready → s.accepted → 1 ≤ s.turn →
    ∃ t, exec (.readLevel pin) s = .next t ∧
      t = { s with ports := t.ports, bus := t.bus, supply := t.supply, drawn := t.drawn } ∧
      t.ports = s.ports.modify s.active (Port.answer (Response.value
        (if (if s.fieldValue .functionSelect p = 1 then s.olat[p] else s.pad[p]) = true then 1 else 0))) ∧
      ∃ w : Word, t.bus = s.bus ++ [{ kind := .read, off := 0x34 + 4 * (pin / 32), data := w }]

/-- R177: RELEASE of a `Ready` line drops its addresses and its noted function, marks it `Released`, takes one from the
count, and touches no register of the controller. -/
def Obligations.ReleaseEndsLine : Prop :=
  ∀ (pin : Nat) (h : pin < 58) (s : State),
    let p : PinIndex := ⟨pin, h⟩
    (s.line p).state = .ready →
    exec (.release pin) s = .next
      { s with
        lines := s.lines.set p { state := .released, addr := none, lastFn := none }
        refcount := s.refcount - 1
        ports := s.ports.modify s.active (Port.answer (Response.bare .ok)) }

/-- R170: the transitions of a line: only a REQUEST of the pin makes it `Ready`, only a RELEASE of the pin makes a
`Ready` line `Released`, and no other transition exists. -/
def Obligations.LineTransitions : Prop :=
  ∀ (i : Instr) (s t : State) (p : PinIndex), exec i s = .next t → (t.line p).state ≠ (s.line p).state →
    (i = .request p.val ∧ (s.line p).state ≠ .ready ∧ (t.line p).state = .ready) ∨
    (i = .release p.val ∧ (s.line p).state = .ready ∧ (t.line p).state = .released)

/-- R21, R180: the line table and the count are written by REQUEST, CONFIGURE_FUNCTION and RELEASE alone, of the table
no other pin's entry, and CONFIGURE_FUNCTION writes only the entry's noted function. -/
def Obligations.LineTableFrame : Prop :=
  ∀ (i : Instr) (s t : State), exec i s = .next t →
    (∀ p : PinIndex, i.pin ≠ p.val → t.line p = s.line p) ∧
    ((∀ pin, i ≠ .request pin) → (∀ pin, i ≠ .release pin) →
      t.refcount = s.refcount ∧
      ((∀ pin fn, i ≠ .configureFunction pin fn) → t.lines = s.lines) ∧
      ∀ p : PinIndex, (t.line p).state = (s.line p).state ∧ (t.line p).addr = (s.line p).addr)

/-! ### The whole machine -/

/-- R62, R98, R212: no command changes a pad or an event latch, the environment's input or the schedule. -/
def Obligations.CommandsLeavePadsAndEvents : Prop :=
  ∀ (i : Instr) (s t : State), s.params.valid = true → LinesResolved s → exec i s = .next t →
    t.pad = s.pad ∧ t.eds = s.eds ∧ t.envFail = s.envFail ∧ t.sched = s.sched ∧ t.params = s.params

/-- R146, R147, R154, R174, R175: the stored words are changed only by WRITE_FIELD on a read-write family and by
CONFIGURE_FUNCTION, the output latches only by WRITE_FIELD on Set and Clear and by WRITE_LEVEL. -/
def Obligations.RegisterFrame : Prop :=
  ∀ (i : Instr) (s t : State), s.params.valid = true → LinesResolved s → exec i s = .next t →
    ((∀ f pin value, f.access = .readWrite → Instr.ofWriteField f pin value ≠ some i) →
      (∀ pin fn, i ≠ .configureFunction pin fn) → t.csr = s.csr) ∧
    ((∀ pin value, i ≠ .writeFieldSet pin value) → (∀ pin value, i ≠ .writeFieldClear pin value) →
      (∀ pin value, i ≠ .writeLevel pin value) → t.olat = s.olat)

/-- R2, R120, R140, R145: the core layer does not read line-layer state. A RESOLVE, READ_FIELD or WRITE_FIELD does the
same whatever the line table and the count hold, and leaves both. -/
def Obligations.CoreLayerIgnoresLineLayer : Prop :=
  ∀ (f : Family) (pin : Nat) (value : Word) (i : Instr) (s t : State) (lines : Vector Line 58) (n : Nat),
    (i = Instr.ofResolve f pin ∨ Instr.ofReadField f pin = some i ∨ Instr.ofWriteField f pin value = some i) →
    exec i s = .next t →
    exec i { s with lines := lines, refcount := n } = .next { t with lines := lines, refcount := n }

/-- R32: the count is the number of `Ready` lines, and every step keeps it so. -/
def Obligations.StepKeepsCount : Prop :=
  ∀ s t : State, CountsReady s → step s = .next t → CountsReady t

/-- R33, R68: the locks held are those of the commands inside a word's read-modify-write, and every step keeps it so. -/
def Obligations.StepKeepsLocks : Prop :=
  ∀ s t : State, LocksHeld s → step s = .next t → LocksHeld t

/-- R68: after every step from a state whose locks are those of the commands in flight, two ports inside the
read-modify-write of one word are one port; and while a port is inside, no port whose next step takes that word's lock has
an enabled step. -/
def Obligations.MutualExclusion : Prop :=
  ∀ s t : State, LocksHeld s → step s = .next t →
    ∀ (k l : Nat) (p q : Port) (f g : InFlight) (off : Nat),
      t.ports[k]? = some p → t.ports[l]? = some q → p.inflight = some f → q.inflight = some g →
      f.pos.holds = some off →
      (g.pos.holds = some off → k = l) ∧ (g.pos.needs = some off → t.enabled l = false)

/-- R20, R58: the stored words stay in canonical form (the form is the model's, log entry 9). -/
def Obligations.StepKeepsCanonicalForm : Prop :=
  ∀ s t : State, Memory.wf s.csr = true → step s = .next t → Memory.wf t.csr = true

/-- R31, R32, R33, R53, R58, R68, R98, R127, R150: the machine's invariant is kept by every step. -/
def Obligations.StepKeepsInvariant : Prop :=
  ∀ s t : State, Inv s → step s = .next t → Inv t

/-- R40: the invariant holds right after reset. -/
def Obligations.InvariantAtReset : Prop := Inv State.reset

/-- R68: a hold is bounded. In every state with the invariant in which some port has work, some port has an enabled
step. -/
def Obligations.SomePortCanMove : Prop :=
  ∀ (s : State) (k : Nat) (q : Port), Inv s → s.ports[k]? = some q → (q.inflight ≠ none ∨ q.pending ≠ []) →
    ∃ l, s.firstEnabled = some l

/-- R22, R33: with one port, nothing scheduled and a command in flight or presented, one step ends the command and
returns one response (that one step runs a whole command is the model's choice, log entry 4). -/
def Obligations.SinglePortAnswersInOneStep : Prop :=
  ∀ (s : State) (q : Port), Inv s → s.ports = [q] → s.sched = [] → (q.inflight ≠ none ∨ q.pending ≠ []) →
    ∃ t r, step s = .next t ∧
      t.ports =
        [{ pending := if q.inflight = none then q.pending.tail else q.pending
           inflight := none
           responses := q.responses ++ [r] }]

/-- R22: a response once returned stays returned, and no step returns more than one on a port. -/
def Obligations.ResponsesOnlyAppended : Prop :=
  ∀ (s t : State) (k : Nat) (q : Port), step s = .next t → s.ports[k]? = some q →
    ∃ q', t.ports[k]? = some q' ∧ (q'.responses = q.responses ∨ ∃ r, q'.responses = q.responses ++ [r])

/-! ### The controller -/

/-- R58: a write of a read-write word stores its valid bits; a read returns them, with any value in the reserved bits;
a read changes nothing (by another master it only takes a draw). -/
def Obligations.ReadWriteWord : Prop :=
  ∀ (s : State) (w : RegWord) (v : Word), s.params.valid = true → w ∈ regWords → w.fam.access = .readWrite →
    s.memWrite (w.off s.params) v = { s with csr := Memory.write s.csr (w.off s.params) (v &&& w.mask) } ∧
    (∃ d : Word, s.memRead (w.off s.params) = (Memory.read s.csr (w.off s.params) &&& w.mask) ||| (d &&& ~~~w.mask)) ∧
    (s.memWrite (w.off s.params) v).memRead (w.off s.params) &&& w.mask = v &&& w.mask ∧
    s.environment (.extRead (w.off s.params)) =
      { s with
        supply := (s.environment (.extRead (w.off s.params))).supply
        drawn := (s.environment (.extRead (w.off s.params))).drawn }

/-- R60: a write of a Set or Clear word, by whoever issues it: every pin of the word whose bit is 1 and whose live
function is OUTPUT gets the level, a pin whose bit is 0 and every pin of the other word are untouched, and nothing but
latches and the draw taken changes. -/
def Obligations.SetClearWordWrite : Prop :=
  ∀ (s : State) (level : Bool) (k : Nat) (v : Word), s.params.valid = true → k < 2 →
    let f : Family := if level then .set else .clear
    let t := s.memWrite (f.baseOff s.params + 4 * k) v
    t = { s with olat := t.olat, supply := t.supply, drawn := t.drawn } ∧
    ∀ p : PinIndex,
      (p.val / 32 = k → v.getLsbD (p.val % 32) = true → s.fieldValue .functionSelect p = 1 → t.olat[p] = level) ∧
      ((p.val / 32 ≠ k ∨ v.getLsbD (p.val % 32) = false) → t.olat[p] = s.olat[p])

/-- R61: a read of a Level word returns, in each pin's bit, the latch of an output and the pad of any other pin; a
write changes nothing. -/
def Obligations.LevelWord : Prop :=
  ∀ (s : State) (k : Nat) (v : Word), s.params.valid = true → k < 2 →
    s.memWrite (0x34 + 4 * k) v = s ∧
    ∀ p : PinIndex, p.val / 32 = k →
      (s.memRead (0x34 + 4 * k)).getLsbD (p.val % 32) =
        if s.fieldValue .functionSelect p = 1 then s.olat[p] else s.pad[p]

/-- R62: a read of an EventStatus word returns the latches; a write clears those whose bit is 1, leaves the others, and
changes nothing else. -/
def Obligations.EventStatusWord : Prop :=
  ∀ (s : State) (k : Nat) (v : Word), s.params.valid = true → k < 2 →
    let t := s.memWrite (0x40 + 4 * k) v
    t = { s with eds := t.eds } ∧
    ∀ p : PinIndex,
      (p.val / 32 = k →
        (s.memRead (0x40 + 4 * k)).getLsbD (p.val % 32) = s.eds[p] ∧
        t.eds[p] = (s.eds[p] && !v.getLsbD (p.val % 32))) ∧
      (p.val / 32 ≠ k → t.eds[p] = s.eds[p])

/-- R53, R63, R70: the environment's moves. A step whose move is E1 or E2 takes the move off the schedule and sets the pad
or the latch. One whose move is E3 writes a register word as R58 to R62 say, changes nothing at an unlisted offset, and
for a read takes at most draws; no E3 touches the line table, the count, the locks, the ports or a pad. That a scheduled E3
without `EXT_MASTER`, outside the region or not at a word is dropped is the model's choice (log entry 10); that the word
another master reads is kept nowhere is too (log entry 11). -/
def Obligations.EnvironmentMoves : Prop :=
  ∀ (s : State) (m : Move) (rest : List Move), s.params.valid = true → s.ports ≠ [] → s.sched = m :: rest →
    (∀ p b, m = .pad p b → step s = .next { s with sched := rest, pad := s.pad.set p b }) ∧
    (∀ p, m = .event p → step s = .next { s with sched := rest, eds := s.eds.set p true }) ∧
    (∀ w v, w ∈ regWords → m = .extWrite (w.off s.params) v → s.params.extMaster = true →
      step s = .next { s.memWrite (w.off s.params) v with sched := rest }) ∧
    (∀ off v, m = .extWrite off v → (∀ w ∈ regWords, w.off s.params ≠ off) →
      step s = .next { s with sched := rest }) ∧
    (∀ off v, (m = .extRead off ∨ m = .extWrite off v) →
      (s.params.extMaster = false ∨ off % 4 ≠ 0 ∨ s.params.regionLen ≤ off) → step s = .next { s with sched := rest }) ∧
    (∀ off, m = .extRead off →
      ∃ t, step s = .next t ∧ t = { s with sched := rest, supply := t.supply, drawn := t.drawn }) ∧
    (∀ off v, m = .extWrite off v →
      ∃ t, step s = .next t ∧
        t = { s with sched := rest, csr := t.csr, olat := t.olat, eds := t.eds, supply := t.supply, drawn := t.drawn })

/-- R40, R230: what reset leaves. After `State.reset`, and after a step whose move is the reset input, every line is
`Unrequested` with no function known, the count is 0, every lock is free and no command is in flight; the reset input
does not touch the controller, and no response is returned. -/
def Obligations.ResetState : Prop :=
  let blockReset := fun t : State =>
    (∀ p : PinIndex, (t.line p).state = .unrequested ∧ (t.line p).lastFn = none) ∧ t.refcount = 0 ∧
    (∀ off, t.lockFree off = true) ∧ ∀ q ∈ t.ports, q.inflight = none
  blockReset State.reset ∧
  ∀ (s : State) (rest : List Move), s.params.valid = true → s.ports ≠ [] → s.sched = .reset :: rest →
    ∃ t, step s = .next t ∧ blockReset t ∧
      t.csr = s.csr ∧ t.olat = s.olat ∧ t.pad = s.pad ∧ t.eds = s.eds ∧ t.bus = s.bus ∧
      t.ports.map Port.responses = s.ports.map Port.responses

/-! ### Sequences -/

/-- R61, R175, R176: the level written to an output is the level then read, on any port. -/
def Obligations.WriteLevelThenReadLevel : Prop :=
  ∀ (pin : Nat) (h : pin < 58) (value : Word) (s : State),
    let p : PinIndex := ⟨pin, h⟩
    s.params.valid = true → LinesResolved s → (s.line p).state = .ready → s.undisturbed →
    (value = 0 ∨ value = 1) → s.fieldValue .functionSelect p = 1 →
    s.lockFree (resolve s.params p (if value = 1 then .set else .clear)).off = true →
    ∃ t, exec (.writeLevel pin value) s = .next t ∧
      ∀ u : State, u.params = t.params → u.csr = t.csr → u.olat = t.olat → u.lines = t.lines → u.undisturbed →
        ∃ v, exec (.readLevel pin) u = .next v ∧
          v.ports = u.ports.modify u.active (Port.answer (Response.value value))

/-- R175, R234: no lock spans WRITE_LEVEL's check and its write. Interrupted after the check has found OUTPUT, the
command holds no lock; and when it goes on it issues the strobe whatever the pin's function has become. -/
def Obligations.WriteLevelCheckThenWrite : Prop :=
  ∀ (pin : Nat) (h : pin < 58) (value : Word) (s : State),
    let p : PinIndex := ⟨pin, h⟩
    s.params.valid = true → LinesResolved s → (s.line p).state = .ready → s.accepted → s.turn = 1 →
    (value = 0 ∨ value = 1) → s.fieldValue .functionSelect p = 1 →
    let b := resolve s.params p (if value = 1 then .set else .clear)
    ∃ t, exec (.writeLevel pin value) s = .next t ∧ t.locks = s.locks ∧ t.olat = s.olat ∧ t.inflight.isSome = true ∧
      ∀ u : State, u.params = s.params → u.inflight = t.inflight → u.lockFree b.off = true →
        (u.run 1).bus = u.bus ++ [{ kind := .write, off := b.off, data := (1 : Word) <<< b.shift }] ∧
        (u.run 1).inflight = none

/-! ### Interrupted commands, and steps of a port -/

/-- R34, R174, R181, R233: a CONFIGURE_FUNCTION interrupted after its read holds the FunctionSelect word's lock, has
written nothing and noted nothing; and whatever the register file holds when it goes on, it writes the word computed from
the word it read, notes the code in the pin's entry, and gives the lock back. That it notes the code even where another
port has released the line meanwhile is the model's reading of R174 and R181 beside R180 (DEDUCED, log entry 20). -/
def Obligations.ConfigureFunctionWritesBackWordRead : Prop :=
  ∀ (pin : Nat) (h : pin < 58) (fn : Fn) (s : State),
    let p : PinIndex := ⟨pin, h⟩
    let a := resolve s.params p .functionSelect
    s.params.valid = true → LinesResolved s → (s.line p).state = .ready → s.accepted → s.turn = 2 →
    s.lockFree a.off = true →
    ∃ t, exec (.configureFunction pin fn) s = .next t ∧ t.csr = s.csr ∧ t.lines = s.lines ∧
      Sparse.find a.off t.locks = some s.active ∧ t.inflight.isSome = true ∧
      ∀ u : State, u.params = s.params → u.inflight = t.inflight →
        (u.run 1).csr = Memory.write u.csr a.off (a.merge 3 (Memory.read s.csr a.off) (BitVec.ofNat 32 fn.code)) ∧
        (u.run 1).lines = u.lines.set p { u.line p with lastFn := some fn } ∧
        (u.run 1).inflight = none ∧ (u.run 1).lockFree a.off = true

/-- R6, R22, R104: the inputs. A command presented on a port joins the end of the port's commands, and the input
`env_fail` takes the value given; nothing else changes. That both are moves of the schedule is the model's choice (log
entries 6, 13). -/
def Obligations.InputMoves : Prop :=
  ∀ (s : State) (rest : List Move), s.params.valid = true → s.ports ≠ [] →
    (∀ k cmd opnd, s.sched = .present k cmd opnd :: rest →
      step s = .next
        { s with
          sched := rest
          ports := s.ports.modify k fun q => { q with pending := q.pending ++ [(cmd, opnd)] } }) ∧
    (∀ e, s.sched = .failInput e :: rest → step s = .next { s with sched := rest, envFail := e })

/-- R22, R34, R62, R98, R212: a port's step, whether it takes a command or goes on with one, changes no pad, no event
latch, no input and no other port; of the schedule it takes its own move. -/
def Obligations.PortMoveFrame : Prop :=
  ∀ (s t : State) (k more : Nat), Inv s → s.nextMove = some (.port k more) → step s = .next t →
    t.pad = s.pad ∧ t.eds = s.eds ∧ t.envFail = s.envFail ∧ t.params = s.params ∧ t.sched = s.sched.tail ∧
    ∀ l, l ≠ k → t.ports[l]? = s.ports[l]?

/-- R170, R32: in every step but the reset input's, a line becomes `Ready` only where the step takes a REQUEST of its pin,
a `Ready` line becomes `Released` only where it takes a RELEASE of its pin, no other transition exists, and the count
changes only where the step takes a REQUEST or a RELEASE. -/
def Obligations.LineStepTransitions : Prop :=
  ∀ s t : State, step s = .next t → s.nextMove ≠ some .reset →
    (∀ p : PinIndex, (t.line p).state ≠ (s.line p).state →
      (s.takes (.request p.val) ∧ (s.line p).state ≠ .ready ∧ (t.line p).state = .ready) ∨
      (s.takes (.release p.val) ∧ (s.line p).state = .ready ∧ (t.line p).state = .released)) ∧
    (t.refcount ≠ s.refcount → ∃ pin, s.takes (.request pin) ∨ s.takes (.release pin))

/-- R146, R147, R174, R175, R181: the frame of a command in flight that goes on in a later turn. It changes of the stored
words only the one its read-modify-write is of, of the output latches only the pin's whose strobe it may issue, of the
line table only the function noted in the entry of its own pin; never a line's state or addresses, nor the count; and its
port takes no further command. -/
def Obligations.InFlightCommandFrame : Prop :=
  ∀ (s t : State) (k more : Nat) (q : Port) (f : InFlight), Inv s → s.nextMove = some (.port k more) →
    s.ports[k]? = some q → q.inflight = some f → step s = .next t →
    (∀ off, (∀ j, f.pos.modifies = some j → j.addr.off ≠ off) → Memory.read t.csr off = Memory.read s.csr off) ∧
    (∀ p : PinIndex,
      (∀ a, f.pos.strobes = some a → a ≠ resolve s.params p .set ∧ a ≠ resolve s.params p .clear) →
      t.olat[p] = s.olat[p]) ∧
    (∀ p : PinIndex, (∀ j fn, f.pos.modifies = some j → j.note ≠ some (p, fn)) → t.line p = s.line p) ∧
    (∀ p : PinIndex, (t.line p).state = (s.line p).state ∧ (t.line p).addr = (s.line p).addr) ∧
    t.refcount = s.refcount ∧
    ∃ q', t.ports[k]? = some q' ∧ q'.pending = q.pending
end

