-- ==== Sys2Proof/Laws/Layout.lean ====
section
/-!
SUPPORT. The resolver's laws (R128) and the accessor's (R150, R151), on words; the address map under valid parameters.
-/

namespace Sys2Proof

open Machine (Resolved)

theorem mem_families (f : Family) : f ∈ families := by
  cases f <;> decide

theorem mem_regWords (w : RegWord) : w ∈ regWords ↔ w.idx < w.fam.wordCount := by
  obtain ⟨f, k⟩ := w
  simp only [regWords, List.mem_flatMap, List.mem_map, List.mem_range, RegWord.mk.injEq]
  constructor
  · rintro ⟨g, -, n, hn, rfl, rfl⟩; exact hn
  · intro h; exact ⟨f, mem_families f, k, h, rfl, rfl⟩

theorem wordCount_pos (f : Family) : 0 < f.wordCount := by
  cases f <;> decide

/-- The word index is one of the family's (R121). -/
theorem wordIndexOf_lt (p : PinIndex) (f : Family) : wordIndexOf p f < f.wordCount :=
  Nat.mod_lt _ (wordCount_pos f)

/-- L1: the `mod` of R121 changes nothing for a valid pin. -/
theorem wordIndexOf_eq (p : PinIndex) (f : Family) : wordIndexOf p f = p.val / f.pinsPerWord := by
  obtain ⟨p, hp⟩ := p
  cases f <;> simp only [wordIndexOf, Family.pinsPerWord, Family.wordCount] <;> omega

/-- The register word that governs a pin (R26). -/
def RegWord.ofPin (p : PinIndex) (f : Family) : RegWord := { fam := f, idx := wordIndexOf p f }

theorem ofPin_mem (p : PinIndex) (f : Family) : RegWord.ofPin p f ∈ regWords :=
  (mem_regWords _).mpr (wordIndexOf_lt p f)

theorem resolve_off (ps : Params) (p : PinIndex) (f : Family) : (resolve ps p f).off = (RegWord.ofPin p f).off ps :=
  rfl

theorem resolve_readMask (ps : Params) (p : PinIndex) (f : Family) : (resolve ps p f).readMask = (RegWord.ofPin p f).mask :=
  rfl

theorem resolve_writeMask (ps : Params) (p : PinIndex) (f : Family) :
    (resolve ps p f).writeMask = (RegWord.ofPin p f).mask :=
  rfl

theorem resolve_shift (ps : Params) (p : PinIndex) (f : Family) : (resolve ps p f).shift = shiftOf p f := rfl

@[simp] theorem ofPin_fam (p : PinIndex) (f : Family) : (RegWord.ofPin p f).fam = f := rfl

@[simp] theorem ofPin_idx (p : PinIndex) (f : Family) : (RegWord.ofPin p f).idx = wordIndexOf p f := rfl

/-- A cached address list holds the resolved addresses (R31, R127). -/
theorem resolveAll_slot (ps : Params) (p : PinIndex) (f : Family) : (resolveAll ps p)[f.slot] = resolve ps p f := by
  cases f <;> rfl

/-! ### The address map -/

theorem Params.valid_iff (ps : Params) : ps.valid = true ↔
    ps.regionLen % 4 = 0 ∧ 0xF4 ≤ ps.regionLen ∧
      (∀ w ∈ regWords, w.off ps % 4 = 0 ∧ w.off ps < ps.regionLen) ∧ (regWords.map (RegWord.off ps)).Nodup := by
  simp [Params.valid, and_assoc]

/-- Under valid parameters two register words at one offset are one word (R5, R52). -/
theorem off_injective (ps : Params) (h : ps.valid = true) (v w : RegWord) (hv : v ∈ regWords) (hw : w ∈ regWords)
    (ho : v.off ps = w.off ps) : v = w :=
  List.inj_on_of_nodup_map ((Params.valid_iff ps).mp h).2.2.2 hv hw ho

/-- What the address map finds at an offset is a register word at that offset. -/
theorem locate_some (ps : Params) (off : Nat) (w : RegWord) (h : locate ps off = some w) :
    w ∈ regWords ∧ w.off ps = off :=
  ⟨List.mem_of_find?_eq_some h, by simpa using List.find?_some h⟩

/-- Under valid parameters the address map finds each register word at its offset (R51). -/
theorem locate_off (ps : Params) (h : ps.valid = true) (w : RegWord) (hw : w ∈ regWords) :
    locate ps (w.off ps) = some w := by
  cases hl : locate ps (w.off ps) with
  | none => exact absurd (List.find?_eq_none.mp hl w hw) (by simp)
  | some v =>
    obtain ⟨hv, ho⟩ := locate_some ps _ v hl
    rw [off_injective ps h v w hv hw ho]

theorem locate_resolve (ps : Params) (h : ps.valid = true) (p : PinIndex) (f : Family) :
    locate ps (resolve ps p f).off = some (RegWord.ofPin p f) :=
  locate_off ps h _ (ofPin_mem p f)

/-! ### Fields of a word -/

/-- L2: a field never crosses the top of the word. -/
theorem shift_add_width_le (p : PinIndex) (f : Family) : shiftOf p f + f.width ≤ 32 := by
  obtain ⟨p, hp⟩ := p
  cases f <;> simp only [shiftOf, Family.pinsPerWord, Family.width] <;> omega

/-- L4: the fields of two pins in one word are apart. -/
theorem fields_apart (p q : PinIndex) (f : Family) (hpq : p ≠ q) (hw : wordIndexOf p f = wordIndexOf q f) :
    shiftOf p f + f.width ≤ shiftOf q f ∨ shiftOf q f + f.width ≤ shiftOf p f := by
  have hne : p.val ≠ q.val := fun h => hpq (Fin.ext h)
  rw [wordIndexOf_eq, wordIndexOf_eq] at hw
  obtain ⟨p, hp⟩ := p
  obtain ⟨q, hq⟩ := q
  cases f <;> simp only [shiftOf, Family.pinsPerWord, Family.width] at hw hne ⊢ <;> omega

/-- L3: each bit of a pin's field is a valid bit of its word. -/
theorem mask_bit (p : PinIndex) (f : Family) (i : Nat) (hi : i < f.width) :
    (f.mask (wordIndexOf p f)).getLsbD (shiftOf p f + i) = true := by
  have three : ∀ p : PinIndex, ∀ i : Fin 3,
      (Family.functionSelect.mask (wordIndexOf p .functionSelect)).getLsbD (shiftOf p .functionSelect + i.val) = true := by
    decide
  have two : ∀ p : PinIndex, ∀ i : Fin 2,
      (Family.pullConfig.mask (wordIndexOf p .pullConfig)).getLsbD (shiftOf p .pullConfig + i.val) = true := by
    decide
  have one : ∀ p : PinIndex, (Family.set.mask (wordIndexOf p .set)).getLsbD (shiftOf p .set + 0) = true := by
    decide
  cases f with
  | functionSelect => exact three p ⟨i, hi⟩
  | pullConfig => exact two p ⟨i, hi⟩
  | _ => obtain rfl : i = 0 := by simpa [Family.width] using hi
         exact one p

theorem unshiftedMask_bit (f : Family) (i : Nat) : (unshiftedMask f.width).getLsbD i = decide (i < f.width) := by
  have three : ∀ i : Fin 32, (unshiftedMask 3).getLsbD i.val = decide (i.val < 3) := by decide
  have two : ∀ i : Fin 32, (unshiftedMask 2).getLsbD i.val = decide (i.val < 2) := by decide
  have one : ∀ i : Fin 32, (unshiftedMask 1).getLsbD i.val = decide (i.val < 1) := by decide
  by_cases h : i < 32
  · cases f <;> first | exact three ⟨i, h⟩ | exact two ⟨i, h⟩ | exact one ⟨i, h⟩
  · have hw : f.width ≤ 32 := by cases f <;> decide
    rw [BitVec.getLsbD_of_ge _ _ (by omega), eq_comm, decide_eq_false_iff_not]
    omega

/-- A bit of a read field: the word's bit at the field's place (R141). -/
theorem extract_bit (ps : Params) (p : PinIndex) (f : Family) (w : Word) (i : Nat) :
    ((resolve ps p f).extract f.width w).getLsbD i = (decide (i < f.width) && w.getLsbD (shiftOf p f + i)) := by
  simp only [Resolved.extract, BitVec.getLsbD_and, BitVec.getLsbD_ushiftRight, unshiftedMask_bit, resolve_shift,
    resolve_readMask, RegWord.mask, ofPin_fam, ofPin_idx]
  by_cases h : i < f.width
  · simp [h, mask_bit p f i h]
  · simp [h]

theorem fieldMask_bit (ps : Params) (p : PinIndex) (f : Family) (n : Nat) :
    ((resolve ps p f).fieldMask f.width).getLsbD n =
      decide (shiftOf p f ≤ n ∧ n < shiftOf p f + f.width) := by
  have hw := shift_add_width_le p f
  simp only [Resolved.fieldMask, BitVec.getLsbD_shiftLeft, unshiftedMask_bit, resolve_shift]
  rw [Bool.eq_iff_iff]
  simp only [Bool.and_eq_true, Bool.not_eq_true', decide_eq_true_eq, decide_eq_false_iff_not]
  omega

/-- A bit of the word a read-modify-write writes (R146). -/
theorem merge_bit (ps : Params) (p : PinIndex) (f : Family) (current value : Word) (n : Nat) :
    ((resolve ps p f).merge f.width current value).getLsbD n =
      if shiftOf p f ≤ n ∧ n < shiftOf p f + f.width then value.getLsbD (n - shiftOf p f)
      else current.getLsbD n && (RegWord.ofPin p f).mask.getLsbD n := by
  have hw := shift_add_width_le p f
  simp only [Resolved.merge, Resolved.clearMask, BitVec.getLsbD_or, BitVec.getLsbD_and, BitVec.getLsbD_not,
    fieldMask_bit, BitVec.getLsbD_shiftLeft, unshiftedMask_bit, resolve_shift, resolve_writeMask]
  by_cases h : shiftOf p f ≤ n ∧ n < shiftOf p f + f.width
  · have h1 : n < 32 := by omega
    have h2 : ¬ n < shiftOf p f := by omega
    have h3 : n - shiftOf p f < f.width := by omega
    simp [h, h1, h2, h3]
  · by_cases h1 : n < 32
    · by_cases h2 : n < shiftOf p f
      · have h4 : ¬ shiftOf p f ≤ n := by omega
        simp [h1, h2, h4]
      · have h3 : ¬ n - shiftOf p f < f.width := by omega
        have h4 : ¬ n < shiftOf p f + f.width := by omega
        simp [h1, h2, h3, h4]
    · simp [h, h1, BitVec.getLsbD_of_ge current n (by omega)]

/-- The field written reads back as the low bits of the value (R146, R149). -/
theorem extract_merge (ps : Params) (p : PinIndex) (f : Family) (current value : Word) :
    (resolve ps p f).extract f.width ((resolve ps p f).merge f.width current value) = value &&& unshiftedMask f.width := by
  refine BitVec.eq_of_getLsbD_eq fun i _ => ?_
  rw [extract_bit, merge_bit, BitVec.getLsbD_and, unshiftedMask_bit]
  by_cases h : i < f.width
  · simp [h]
  · simp [h]

/-- R151: the field of another pin in the word is written back as it was read. -/
theorem extract_merge_other (ps : Params) (p q : PinIndex) (f : Family) (current value : Word) (hpq : p ≠ q)
    (hw : wordIndexOf p f = wordIndexOf q f) :
    (resolve ps q f).extract f.width ((resolve ps p f).merge f.width current value) =
      (resolve ps q f).extract f.width current := by
  refine BitVec.eq_of_getLsbD_eq fun i _ => ?_
  rw [extract_bit, extract_bit, merge_bit]
  by_cases h : i < f.width
  · have := fields_apart p q f hpq hw
    have hn : ¬ (shiftOf p f ≤ shiftOf q f + i ∧ shiftOf q f + i < shiftOf p f + f.width) := by omega
    have hm := mask_bit q f i h
    simp only [hn, if_false, RegWord.mask, ofPin_fam, ofPin_idx, hw, hm, Bool.and_true]
  · simp [h]

/-- R150: no reserved bit is written. -/
theorem merge_reserved (ps : Params) (p : PinIndex) (f : Family) (current value : Word) :
    (resolve ps p f).merge f.width current value &&& ~~~(RegWord.ofPin p f).mask = 0 := by
  refine BitVec.eq_of_getLsbD_eq fun n hn => ?_
  rw [BitVec.getLsbD_and, BitVec.getLsbD_not, merge_bit]
  split
  · rename_i h
    obtain ⟨i, rfl⟩ : ∃ i, n = shiftOf p f + i := ⟨n - shiftOf p f, by omega⟩
    have := mask_bit p f i (by omega)
    simp [RegWord.mask, this]
  · cases (RegWord.ofPin p f).mask.getLsbD n <;> simp

/-- Writing a field twice is writing it once (R152). -/
theorem merge_merge (ps : Params) (p : PinIndex) (f : Family) (current value : Word) :
    (resolve ps p f).merge f.width ((resolve ps p f).merge f.width current value) value =
      (resolve ps p f).merge f.width current value := by
  refine BitVec.eq_of_getLsbD_eq fun n _ => ?_
  rw [merge_bit, merge_bit]
  split
  · rfl
  · rw [Bool.and_assoc, Bool.and_self]

/-- What the write mask discards of a word read does not reach the word written. -/
theorem merge_masked (ps : Params) (p : PinIndex) (f : Family) (w value : Word) :
    (resolve ps p f).merge f.width (w &&& (RegWord.ofPin p f).mask) value = (resolve ps p f).merge f.width w value := by
  refine BitVec.eq_of_getLsbD_eq fun n _ => ?_
  rw [merge_bit, merge_bit, BitVec.getLsbD_and]
  split
  · rfl
  · cases (RegWord.ofPin p f).mask.getLsbD n <;> simp

/-- A field depends on the valid bits of the word alone (R141). -/
theorem extract_masked (ps : Params) (p : PinIndex) (f : Family) (v w : Word)
    (h : v &&& (RegWord.ofPin p f).mask = w &&& (RegWord.ofPin p f).mask) :
    (resolve ps p f).extract f.width v = (resolve ps p f).extract f.width w := by
  simp only [Resolved.extract, resolve_readMask, h]

end Sys2Proof
end

