-- ==== Sys2Proof/Laws/Sparse.lean ====
section
/-!
SUPPORT. What the sparse table's operations do: reads after writes, and the canonical form.
-/

namespace Sys2Proof.Machine

variable {α : Type}

@[simp] theorem Sparse.find_nil (k : Nat) : Sparse.find k ([] : Sparse α) = none := rfl

theorem Sparse.find_put (k : Nat) (v : α) (m : Sparse α) (n : Nat) :
    Sparse.find n (Sparse.put k v m) = if n = k then some v else Sparse.find n m := by
  induction m with
  | nil => simp [Sparse.put, Sparse.find]
  | cons e m ih =>
    obtain ⟨a, w⟩ := e
    simp only [Sparse.put]
    split
    · simp [Sparse.find]
    · split
      · subst_vars; simp only [Sparse.find]; split <;> rfl
      · simp only [Sparse.find, ih]; split
        · split
          · omega
          · rfl
        · rfl

theorem Sparse.find_drop (k : Nat) (m : Sparse α) (n : Nat) :
    Sparse.find n (Sparse.drop k m) = if n = k then none else Sparse.find n m := by
  induction m with
  | nil => simp [Sparse.drop, Sparse.find]
  | cons e m ih =>
    obtain ⟨a, w⟩ := e
    simp only [Sparse.drop, List.filter_cons] at ih ⊢
    by_cases h : a = k
    · subst h
      by_cases hn : n = a <;> simp_all [Sparse.find]
    · by_cases hn : n = a <;> simp_all [Sparse.find]

/-- Taking a key out after listing it is taking it out. -/
theorem Sparse.drop_put (k : Nat) (v : α) (m : Sparse α) : Sparse.drop k (Sparse.put k v m) = Sparse.drop k m := by
  induction m with
  | nil => simp [Sparse.put, Sparse.drop]
  | cons e m ih =>
    obtain ⟨a, w⟩ := e
    simp only [Sparse.put]
    split
    · simp [Sparse.drop]
    · split
      · subst_vars; simp [Sparse.drop]
      · simp only [Sparse.drop, List.filter_cons] at ih ⊢
        rw [ih]

/-- Taking out a key that is not listed changes nothing. -/
theorem Sparse.drop_of_find_none (k : Nat) (m : Sparse α) (h : Sparse.find k m = none) : Sparse.drop k m = m := by
  induction m with
  | nil => rfl
  | cons e m ih =>
    obtain ⟨a, w⟩ := e
    simp only [Sparse.find] at h
    split at h
    · cases h
    · have hne : a ≠ k := fun hak => by simp_all
      simp only [Sparse.drop, List.filter_cons, bne_iff_ne, ne_eq, hne, not_false_iff, if_true] at ih ⊢
      rw [ih h]

theorem Sparse.find_isSome_of_mem (e : Nat × α) (m : Sparse α) (h : e ∈ m) : (Sparse.find e.1 m).isSome := by
  induction m with
  | nil => cases h
  | cons d m ih =>
    obtain ⟨a, w⟩ := d
    simp only [Sparse.find]
    split
    · rfl
    · rcases List.mem_cons.mp h with rfl | h
      · simp_all
      · exact ih h

theorem Sparse.mem_of_find (k : Nat) (v : α) (m : Sparse α) (h : Sparse.find k m = some v) : (k, v) ∈ m := by
  induction m with
  | nil => cases h
  | cons d m ih =>
    obtain ⟨a, w⟩ := d
    simp only [Sparse.find] at h
    split at h
    · subst_vars; cases h; exact List.mem_cons_self
    · exact List.mem_cons_of_mem _ (ih h)

theorem Sparse.mem_put (k : Nat) (v : α) (m : Sparse α) (e : Nat × α) (h : e ∈ Sparse.put k v m) :
    e = (k, v) ∨ e ∈ m := by
  induction m with
  | nil => simp_all [Sparse.put]
  | cons d m ih =>
    obtain ⟨a, w⟩ := d
    simp only [Sparse.put] at h
    split at h
    · simp_all
    · split at h
      · simp only [List.mem_cons] at h ⊢; tauto
      · simp only [List.mem_cons] at h ⊢
        rcases h with h | h
        · tauto
        · have := ih h; tauto

theorem Sparse.rising_iff_pairwise (m : Sparse α) :
    Sparse.rising m = true ↔ m.Pairwise fun a b => a.1 < b.1 := by
  induction m with
  | nil => simp [Sparse.rising]
  | cons e m ih =>
    cases m with
    | nil => simp [Sparse.rising]
    | cons d m =>
      obtain ⟨a, v⟩ := e
      obtain ⟨b, w⟩ := d
      simp only [Sparse.rising, Bool.and_eq_true, decide_eq_true_eq, ih, List.pairwise_cons, List.mem_cons,
        forall_eq_or_imp]
      constructor
      · rintro ⟨hab, hb, hm⟩
        exact ⟨⟨hab, fun c hc => Nat.lt_trans hab (hb c hc)⟩, hb, hm⟩
      · rintro ⟨⟨hab, -⟩, hb, hm⟩
        exact ⟨hab, hb, hm⟩

theorem Sparse.rising_drop (k : Nat) (m : Sparse α) (h : Sparse.rising m = true) :
    Sparse.rising (Sparse.drop k m) = true := by
  rw [Sparse.rising_iff_pairwise] at h ⊢
  exact h.filter _

theorem Sparse.rising_put (k : Nat) (v : α) (m : Sparse α) (h : Sparse.rising m = true) :
    Sparse.rising (Sparse.put k v m) = true := by
  rw [Sparse.rising_iff_pairwise] at h ⊢
  induction m with
  | nil => simp [Sparse.put]
  | cons e m ih =>
    obtain ⟨a, w⟩ := e
    have hm := List.pairwise_cons.mp h
    simp only [Sparse.put]
    split
    · refine List.pairwise_cons.mpr ⟨fun c hc => ?_, h⟩
      rcases List.mem_cons.mp hc with rfl | hc
      · assumption
      · exact Nat.lt_trans ‹k < a› (hm.1 c hc)
    · split
      · subst_vars; exact List.pairwise_cons.mpr hm
      · refine List.pairwise_cons.mpr ⟨fun c hc => ?_, ih hm.2⟩
        rcases Sparse.mem_put k v m c hc with rfl | hc
        · show a < k; omega
        · exact hm.1 c hc

/-- Reading the offset written gives the value written; reading another gives what it gave before. -/
theorem Memory.read_write (m : Sparse Word) (off : Nat) (v : Word) (o : Nat) :
    Memory.read (Memory.write m off v) o = if o = off then v else Memory.read m o := by
  unfold Memory.read Memory.write
  by_cases hv : v = Memory.unlisted
  · simp only [hv, if_true, Sparse.find_drop]; split <;> rfl
  · simp only [hv, if_false, Sparse.find_put]; split <;> rfl

/-- Listing a value twice is listing it once. -/
theorem Sparse.put_put (k : Nat) (v : α) (m : Sparse α) : Sparse.put k v (Sparse.put k v m) = Sparse.put k v m := by
  induction m with
  | nil => simp [Sparse.put]
  | cons e m ih =>
    obtain ⟨a, w⟩ := e
    simp only [Sparse.put]
    split
    · simp [Sparse.put]
    · split <;> simp [Sparse.put, *]

/-- Writing a word twice is writing it once. -/
theorem Memory.write_write (m : Sparse Word) (off : Nat) (v : Word) :
    Memory.write (Memory.write m off v) off v = Memory.write m off v := by
  unfold Memory.write
  split
  · exact Sparse.drop_of_find_none _ _ (by rw [Sparse.find_drop, if_pos rfl])
  · exact Sparse.put_put off v m

/-- A write keeps the canonical form. -/
theorem Memory.wf_write (m : Sparse Word) (off : Nat) (v : Word) (h : Memory.wf m = true) :
    Memory.wf (Memory.write m off v) = true := by
  simp only [Memory.wf, Bool.and_eq_true, List.all_eq_true, bne_iff_ne, ne_eq] at h ⊢
  obtain ⟨hr, hz⟩ := h
  unfold Memory.write
  split
  · exact ⟨Sparse.rising_drop _ _ hr, fun e he => hz e (List.mem_filter.mp he).1⟩
  · rename_i hv
    refine ⟨Sparse.rising_put _ _ _ hr, fun e he => ?_⟩
    rcases Sparse.mem_put off v m e he with rfl | he
    · exact hv
    · exact hz e he

/-- What a written table lists is the new entry or was listed. -/
theorem Memory.mem_write (m : Sparse Word) (off : Nat) (v : Word) (e : Nat × Word) (h : e ∈ Memory.write m off v) :
    e = (off, v) ∨ e ∈ m := by
  unfold Memory.write at h
  split at h
  · exact .inr (List.mem_filter.mp h).1
  · exact Sparse.mem_put _ _ _ _ h

/-- A word read is a listed one or the unlisted value. -/
theorem Memory.read_eq (m : Sparse Word) (off : Nat) :
    Memory.read m off = Memory.unlisted ∨ (off, Memory.read m off) ∈ m := by
  unfold Memory.read
  cases h : Sparse.find off m with
  | none => exact .inl rfl
  | some v => exact .inr (Sparse.mem_of_find off v m h)

end Sys2Proof.Machine
end

