-- ==== Sys2Proof/Laws/State.lean ====
section
/-!
SUPPORT. One lemma per field and update of the state, so that no proof unfolds a record update; what an update leaves
alone and what it sets.
-/

namespace Sys2Proof.Machine

-- Many tiny theorems: elaborated one after another, not one thread each.
set_option Elab.async false

variable (s : State)

/-! ### logTxn -/

@[simp] theorem State.logTxn_params (kind : BusKind) (off : Nat) (data : Word) :
    (s.logTxn kind off data).params = s.params := rfl
@[simp] theorem State.logTxn_csr (kind : BusKind) (off : Nat) (data : Word) :
    (s.logTxn kind off data).csr = s.csr := rfl
@[simp] theorem State.logTxn_olat (kind : BusKind) (off : Nat) (data : Word) :
    (s.logTxn kind off data).olat = s.olat := rfl
@[simp] theorem State.logTxn_pad (kind : BusKind) (off : Nat) (data : Word) :
    (s.logTxn kind off data).pad = s.pad := rfl
@[simp] theorem State.logTxn_eds (kind : BusKind) (off : Nat) (data : Word) :
    (s.logTxn kind off data).eds = s.eds := rfl
@[simp] theorem State.logTxn_lines (kind : BusKind) (off : Nat) (data : Word) :
    (s.logTxn kind off data).lines = s.lines := rfl
@[simp] theorem State.logTxn_refcount (kind : BusKind) (off : Nat) (data : Word) :
    (s.logTxn kind off data).refcount = s.refcount := rfl
@[simp] theorem State.logTxn_locks (kind : BusKind) (off : Nat) (data : Word) :
    (s.logTxn kind off data).locks = s.locks := rfl
@[simp] theorem State.logTxn_ports (kind : BusKind) (off : Nat) (data : Word) :
    (s.logTxn kind off data).ports = s.ports := rfl
@[simp] theorem State.logTxn_envFail (kind : BusKind) (off : Nat) (data : Word) :
    (s.logTxn kind off data).envFail = s.envFail := rfl
@[simp] theorem State.logTxn_active (kind : BusKind) (off : Nat) (data : Word) :
    (s.logTxn kind off data).active = s.active := rfl
@[simp] theorem State.logTxn_turn (kind : BusKind) (off : Nat) (data : Word) :
    (s.logTxn kind off data).turn = s.turn := rfl
@[simp] theorem State.logTxn_sched (kind : BusKind) (off : Nat) (data : Word) :
    (s.logTxn kind off data).sched = s.sched := rfl
@[simp] theorem State.logTxn_supply (kind : BusKind) (off : Nat) (data : Word) :
    (s.logTxn kind off data).supply = s.supply := rfl
@[simp] theorem State.logTxn_drawn (kind : BusKind) (off : Nat) (data : Word) :
    (s.logTxn kind off data).drawn = s.drawn := rfl
@[simp] theorem State.logTxn_bus (kind : BusKind) (off : Nat) (data : Word) :
    (s.logTxn kind off data).bus = s.bus ++ [{ kind := kind, off := off, data := data }] := rfl

/-! ### acquire -/

@[simp] theorem State.acquire_params (off : Nat) : (s.acquire off).params = s.params := rfl
@[simp] theorem State.acquire_csr (off : Nat) : (s.acquire off).csr = s.csr := rfl
@[simp] theorem State.acquire_olat (off : Nat) : (s.acquire off).olat = s.olat := rfl
@[simp] theorem State.acquire_pad (off : Nat) : (s.acquire off).pad = s.pad := rfl
@[simp] theorem State.acquire_eds (off : Nat) : (s.acquire off).eds = s.eds := rfl
@[simp] theorem State.acquire_lines (off : Nat) : (s.acquire off).lines = s.lines := rfl
@[simp] theorem State.acquire_refcount (off : Nat) : (s.acquire off).refcount = s.refcount := rfl
@[simp] theorem State.acquire_locks (off : Nat) : (s.acquire off).locks = Sparse.put off s.active s.locks := rfl
@[simp] theorem State.acquire_ports (off : Nat) : (s.acquire off).ports = s.ports := rfl
@[simp] theorem State.acquire_envFail (off : Nat) : (s.acquire off).envFail = s.envFail := rfl
@[simp] theorem State.acquire_active (off : Nat) : (s.acquire off).active = s.active := rfl
@[simp] theorem State.acquire_turn (off : Nat) : (s.acquire off).turn = s.turn := rfl
@[simp] theorem State.acquire_sched (off : Nat) : (s.acquire off).sched = s.sched := rfl
@[simp] theorem State.acquire_supply (off : Nat) : (s.acquire off).supply = s.supply := rfl
@[simp] theorem State.acquire_drawn (off : Nat) : (s.acquire off).drawn = s.drawn := rfl
@[simp] theorem State.acquire_bus (off : Nat) : (s.acquire off).bus = s.bus := rfl

/-! ### unlock -/

@[simp] theorem State.unlock_params (off : Nat) : (s.unlock off).params = s.params := rfl
@[simp] theorem State.unlock_csr (off : Nat) : (s.unlock off).csr = s.csr := rfl
@[simp] theorem State.unlock_olat (off : Nat) : (s.unlock off).olat = s.olat := rfl
@[simp] theorem State.unlock_pad (off : Nat) : (s.unlock off).pad = s.pad := rfl
@[simp] theorem State.unlock_eds (off : Nat) : (s.unlock off).eds = s.eds := rfl
@[simp] theorem State.unlock_lines (off : Nat) : (s.unlock off).lines = s.lines := rfl
@[simp] theorem State.unlock_refcount (off : Nat) : (s.unlock off).refcount = s.refcount := rfl
@[simp] theorem State.unlock_locks (off : Nat) : (s.unlock off).locks = Sparse.drop off s.locks := rfl
@[simp] theorem State.unlock_ports (off : Nat) : (s.unlock off).ports = s.ports := rfl
@[simp] theorem State.unlock_envFail (off : Nat) : (s.unlock off).envFail = s.envFail := rfl
@[simp] theorem State.unlock_active (off : Nat) : (s.unlock off).active = s.active := rfl
@[simp] theorem State.unlock_turn (off : Nat) : (s.unlock off).turn = s.turn := rfl
@[simp] theorem State.unlock_sched (off : Nat) : (s.unlock off).sched = s.sched := rfl
@[simp] theorem State.unlock_supply (off : Nat) : (s.unlock off).supply = s.supply := rfl
@[simp] theorem State.unlock_drawn (off : Nat) : (s.unlock off).drawn = s.drawn := rfl
@[simp] theorem State.unlock_bus (off : Nat) : (s.unlock off).bus = s.bus := rfl

/-! ### onPort -/

@[simp] theorem State.onPort_params (g : Port → Port) : (s.onPort g).params = s.params := rfl
@[simp] theorem State.onPort_csr (g : Port → Port) : (s.onPort g).csr = s.csr := rfl
@[simp] theorem State.onPort_olat (g : Port → Port) : (s.onPort g).olat = s.olat := rfl
@[simp] theorem State.onPort_pad (g : Port → Port) : (s.onPort g).pad = s.pad := rfl
@[simp] theorem State.onPort_eds (g : Port → Port) : (s.onPort g).eds = s.eds := rfl
@[simp] theorem State.onPort_lines (g : Port → Port) : (s.onPort g).lines = s.lines := rfl
@[simp] theorem State.onPort_refcount (g : Port → Port) : (s.onPort g).refcount = s.refcount := rfl
@[simp] theorem State.onPort_locks (g : Port → Port) : (s.onPort g).locks = s.locks := rfl
@[simp] theorem State.onPort_ports (g : Port → Port) : (s.onPort g).ports = s.ports.modify s.active g := rfl
@[simp] theorem State.onPort_envFail (g : Port → Port) : (s.onPort g).envFail = s.envFail := rfl
@[simp] theorem State.onPort_active (g : Port → Port) : (s.onPort g).active = s.active := rfl
@[simp] theorem State.onPort_turn (g : Port → Port) : (s.onPort g).turn = s.turn := rfl
@[simp] theorem State.onPort_sched (g : Port → Port) : (s.onPort g).sched = s.sched := rfl
@[simp] theorem State.onPort_supply (g : Port → Port) : (s.onPort g).supply = s.supply := rfl
@[simp] theorem State.onPort_drawn (g : Port → Port) : (s.onPort g).drawn = s.drawn := rfl
@[simp] theorem State.onPort_bus (g : Port → Port) : (s.onPort g).bus = s.bus := rfl

/-! ### goto -/

@[simp] theorem State.goto_params (ph : Phase) : (s.goto ph).params = s.params := rfl
@[simp] theorem State.goto_csr (ph : Phase) : (s.goto ph).csr = s.csr := rfl
@[simp] theorem State.goto_olat (ph : Phase) : (s.goto ph).olat = s.olat := rfl
@[simp] theorem State.goto_pad (ph : Phase) : (s.goto ph).pad = s.pad := rfl
@[simp] theorem State.goto_eds (ph : Phase) : (s.goto ph).eds = s.eds := rfl
@[simp] theorem State.goto_lines (ph : Phase) : (s.goto ph).lines = s.lines := rfl
@[simp] theorem State.goto_refcount (ph : Phase) : (s.goto ph).refcount = s.refcount := rfl
@[simp] theorem State.goto_locks (ph : Phase) : (s.goto ph).locks = s.locks := rfl
@[simp] theorem State.goto_ports (ph : Phase) : (s.goto ph).ports = s.ports.modify s.active (Port.goto ph) := rfl
@[simp] theorem State.goto_envFail (ph : Phase) : (s.goto ph).envFail = s.envFail := rfl
@[simp] theorem State.goto_active (ph : Phase) : (s.goto ph).active = s.active := rfl
@[simp] theorem State.goto_turn (ph : Phase) : (s.goto ph).turn = s.turn := rfl
@[simp] theorem State.goto_sched (ph : Phase) : (s.goto ph).sched = s.sched := rfl
@[simp] theorem State.goto_supply (ph : Phase) : (s.goto ph).supply = s.supply := rfl
@[simp] theorem State.goto_drawn (ph : Phase) : (s.goto ph).drawn = s.drawn := rfl
@[simp] theorem State.goto_bus (ph : Phase) : (s.goto ph).bus = s.bus := rfl

/-! ### respond -/

@[simp] theorem State.respond_params (r : Response) : (s.respond r).params = s.params := rfl
@[simp] theorem State.respond_csr (r : Response) : (s.respond r).csr = s.csr := rfl
@[simp] theorem State.respond_olat (r : Response) : (s.respond r).olat = s.olat := rfl
@[simp] theorem State.respond_pad (r : Response) : (s.respond r).pad = s.pad := rfl
@[simp] theorem State.respond_eds (r : Response) : (s.respond r).eds = s.eds := rfl
@[simp] theorem State.respond_lines (r : Response) : (s.respond r).lines = s.lines := rfl
@[simp] theorem State.respond_refcount (r : Response) : (s.respond r).refcount = s.refcount := rfl
@[simp] theorem State.respond_locks (r : Response) : (s.respond r).locks = s.locks := rfl
@[simp] theorem State.respond_ports (r : Response) :
    (s.respond r).ports = s.ports.modify s.active (Port.answer r) := rfl
@[simp] theorem State.respond_envFail (r : Response) : (s.respond r).envFail = s.envFail := rfl
@[simp] theorem State.respond_active (r : Response) : (s.respond r).active = s.active := rfl
@[simp] theorem State.respond_turn (r : Response) : (s.respond r).turn = s.turn := rfl
@[simp] theorem State.respond_sched (r : Response) : (s.respond r).sched = s.sched := rfl
@[simp] theorem State.respond_supply (r : Response) : (s.respond r).supply = s.supply := rfl
@[simp] theorem State.respond_drawn (r : Response) : (s.respond r).drawn = s.drawn := rfl
@[simp] theorem State.respond_bus (r : Response) : (s.respond r).bus = s.bus := rfl

/-! ### raise -/

@[simp] theorem State.raise_params (st : Status) : (s.raise st).params = s.params := rfl
@[simp] theorem State.raise_csr (st : Status) : (s.raise st).csr = s.csr := rfl
@[simp] theorem State.raise_olat (st : Status) : (s.raise st).olat = s.olat := rfl
@[simp] theorem State.raise_pad (st : Status) : (s.raise st).pad = s.pad := rfl
@[simp] theorem State.raise_eds (st : Status) : (s.raise st).eds = s.eds := rfl
@[simp] theorem State.raise_lines (st : Status) : (s.raise st).lines = s.lines := rfl
@[simp] theorem State.raise_refcount (st : Status) : (s.raise st).refcount = s.refcount := rfl
@[simp] theorem State.raise_locks (st : Status) : (s.raise st).locks = s.locks := rfl
@[simp] theorem State.raise_ports (st : Status) :
    (s.raise st).ports = s.ports.modify s.active (Port.answer (Response.bare st)) := rfl
@[simp] theorem State.raise_envFail (st : Status) : (s.raise st).envFail = s.envFail := rfl
@[simp] theorem State.raise_active (st : Status) : (s.raise st).active = s.active := rfl
@[simp] theorem State.raise_turn (st : Status) : (s.raise st).turn = s.turn := rfl
@[simp] theorem State.raise_sched (st : Status) : (s.raise st).sched = s.sched := rfl
@[simp] theorem State.raise_supply (st : Status) : (s.raise st).supply = s.supply := rfl
@[simp] theorem State.raise_drawn (st : Status) : (s.raise st).drawn = s.drawn := rfl
@[simp] theorem State.raise_bus (st : Status) : (s.raise st).bus = s.bus := rfl

/-! ### setLine -/

@[simp] theorem State.setLine_params (p : PinIndex) (l : Line) : (s.setLine p l).params = s.params := rfl
@[simp] theorem State.setLine_csr (p : PinIndex) (l : Line) : (s.setLine p l).csr = s.csr := rfl
@[simp] theorem State.setLine_olat (p : PinIndex) (l : Line) : (s.setLine p l).olat = s.olat := rfl
@[simp] theorem State.setLine_pad (p : PinIndex) (l : Line) : (s.setLine p l).pad = s.pad := rfl
@[simp] theorem State.setLine_eds (p : PinIndex) (l : Line) : (s.setLine p l).eds = s.eds := rfl
@[simp] theorem State.setLine_lines (p : PinIndex) (l : Line) : (s.setLine p l).lines = s.lines.set p l := rfl
@[simp] theorem State.setLine_refcount (p : PinIndex) (l : Line) : (s.setLine p l).refcount = s.refcount := rfl
@[simp] theorem State.setLine_locks (p : PinIndex) (l : Line) : (s.setLine p l).locks = s.locks := rfl
@[simp] theorem State.setLine_ports (p : PinIndex) (l : Line) : (s.setLine p l).ports = s.ports := rfl
@[simp] theorem State.setLine_envFail (p : PinIndex) (l : Line) : (s.setLine p l).envFail = s.envFail := rfl
@[simp] theorem State.setLine_active (p : PinIndex) (l : Line) : (s.setLine p l).active = s.active := rfl
@[simp] theorem State.setLine_turn (p : PinIndex) (l : Line) : (s.setLine p l).turn = s.turn := rfl
@[simp] theorem State.setLine_sched (p : PinIndex) (l : Line) : (s.setLine p l).sched = s.sched := rfl
@[simp] theorem State.setLine_supply (p : PinIndex) (l : Line) : (s.setLine p l).supply = s.supply := rfl
@[simp] theorem State.setLine_drawn (p : PinIndex) (l : Line) : (s.setLine p l).drawn = s.drawn := rfl
@[simp] theorem State.setLine_bus (p : PinIndex) (l : Line) : (s.setLine p l).bus = s.bus := rfl

/-! ### createLine -/

@[simp] theorem State.createLine_params (p : PinIndex) : (s.createLine p).params = s.params := rfl
@[simp] theorem State.createLine_csr (p : PinIndex) : (s.createLine p).csr = s.csr := rfl
@[simp] theorem State.createLine_olat (p : PinIndex) : (s.createLine p).olat = s.olat := rfl
@[simp] theorem State.createLine_pad (p : PinIndex) : (s.createLine p).pad = s.pad := rfl
@[simp] theorem State.createLine_eds (p : PinIndex) : (s.createLine p).eds = s.eds := rfl
@[simp] theorem State.createLine_lines (p : PinIndex) :
    (s.createLine p).lines = s.lines.set p { state := .ready, addr := some (resolveAll s.params p), lastFn := none } := rfl
@[simp] theorem State.createLine_refcount (p : PinIndex) : (s.createLine p).refcount = s.refcount + 1 := rfl
@[simp] theorem State.createLine_locks (p : PinIndex) : (s.createLine p).locks = s.locks := rfl
@[simp] theorem State.createLine_ports (p : PinIndex) : (s.createLine p).ports = s.ports := rfl
@[simp] theorem State.createLine_envFail (p : PinIndex) : (s.createLine p).envFail = s.envFail := rfl
@[simp] theorem State.createLine_active (p : PinIndex) : (s.createLine p).active = s.active := rfl
@[simp] theorem State.createLine_turn (p : PinIndex) : (s.createLine p).turn = s.turn := rfl
@[simp] theorem State.createLine_sched (p : PinIndex) : (s.createLine p).sched = s.sched := rfl
@[simp] theorem State.createLine_supply (p : PinIndex) : (s.createLine p).supply = s.supply := rfl
@[simp] theorem State.createLine_drawn (p : PinIndex) : (s.createLine p).drawn = s.drawn := rfl
@[simp] theorem State.createLine_bus (p : PinIndex) : (s.createLine p).bus = s.bus := rfl

/-! ### endLine -/

@[simp] theorem State.endLine_params (p : PinIndex) : (s.endLine p).params = s.params := rfl
@[simp] theorem State.endLine_csr (p : PinIndex) : (s.endLine p).csr = s.csr := rfl
@[simp] theorem State.endLine_olat (p : PinIndex) : (s.endLine p).olat = s.olat := rfl
@[simp] theorem State.endLine_pad (p : PinIndex) : (s.endLine p).pad = s.pad := rfl
@[simp] theorem State.endLine_eds (p : PinIndex) : (s.endLine p).eds = s.eds := rfl
@[simp] theorem State.endLine_lines (p : PinIndex) :
    (s.endLine p).lines = s.lines.set p { state := .released, addr := none, lastFn := none } := rfl
@[simp] theorem State.endLine_refcount (p : PinIndex) : (s.endLine p).refcount = s.refcount - 1 := rfl
@[simp] theorem State.endLine_locks (p : PinIndex) : (s.endLine p).locks = s.locks := rfl
@[simp] theorem State.endLine_ports (p : PinIndex) : (s.endLine p).ports = s.ports := rfl
@[simp] theorem State.endLine_envFail (p : PinIndex) : (s.endLine p).envFail = s.envFail := rfl
@[simp] theorem State.endLine_active (p : PinIndex) : (s.endLine p).active = s.active := rfl
@[simp] theorem State.endLine_turn (p : PinIndex) : (s.endLine p).turn = s.turn := rfl
@[simp] theorem State.endLine_sched (p : PinIndex) : (s.endLine p).sched = s.sched := rfl
@[simp] theorem State.endLine_supply (p : PinIndex) : (s.endLine p).supply = s.supply := rfl
@[simp] theorem State.endLine_drawn (p : PinIndex) : (s.endLine p).drawn = s.drawn := rfl
@[simp] theorem State.endLine_bus (p : PinIndex) : (s.endLine p).bus = s.bus := rfl

/-! ### strobe -/

@[simp] theorem State.strobe_params (k : Nat) (v : Word) (b : Bool) : (s.strobe k v b).params = s.params := rfl
@[simp] theorem State.strobe_csr (k : Nat) (v : Word) (b : Bool) : (s.strobe k v b).csr = s.csr := rfl
@[simp] theorem State.strobe_pad (k : Nat) (v : Word) (b : Bool) : (s.strobe k v b).pad = s.pad := rfl
@[simp] theorem State.strobe_eds (k : Nat) (v : Word) (b : Bool) : (s.strobe k v b).eds = s.eds := rfl
@[simp] theorem State.strobe_lines (k : Nat) (v : Word) (b : Bool) : (s.strobe k v b).lines = s.lines := rfl
@[simp] theorem State.strobe_refcount (k : Nat) (v : Word) (b : Bool) : (s.strobe k v b).refcount = s.refcount := rfl
@[simp] theorem State.strobe_locks (k : Nat) (v : Word) (b : Bool) : (s.strobe k v b).locks = s.locks := rfl
@[simp] theorem State.strobe_ports (k : Nat) (v : Word) (b : Bool) : (s.strobe k v b).ports = s.ports := rfl
@[simp] theorem State.strobe_envFail (k : Nat) (v : Word) (b : Bool) : (s.strobe k v b).envFail = s.envFail := rfl
@[simp] theorem State.strobe_active (k : Nat) (v : Word) (b : Bool) : (s.strobe k v b).active = s.active := rfl
@[simp] theorem State.strobe_turn (k : Nat) (v : Word) (b : Bool) : (s.strobe k v b).turn = s.turn := rfl
@[simp] theorem State.strobe_sched (k : Nat) (v : Word) (b : Bool) : (s.strobe k v b).sched = s.sched := rfl
@[simp] theorem State.strobe_supply (k : Nat) (v : Word) (b : Bool) : (s.strobe k v b).supply = s.supply := rfl
@[simp] theorem State.strobe_drawn (k : Nat) (v : Word) (b : Bool) : (s.strobe k v b).drawn = s.drawn := rfl
@[simp] theorem State.strobe_bus (k : Nat) (v : Word) (b : Bool) : (s.strobe k v b).bus = s.bus := rfl

/-! ### giveTurn -/

@[simp] theorem State.giveTurn_params (k more : Nat) : (s.giveTurn k more).params = s.params := rfl
@[simp] theorem State.giveTurn_csr (k more : Nat) : (s.giveTurn k more).csr = s.csr := rfl
@[simp] theorem State.giveTurn_olat (k more : Nat) : (s.giveTurn k more).olat = s.olat := rfl
@[simp] theorem State.giveTurn_pad (k more : Nat) : (s.giveTurn k more).pad = s.pad := rfl
@[simp] theorem State.giveTurn_eds (k more : Nat) : (s.giveTurn k more).eds = s.eds := rfl
@[simp] theorem State.giveTurn_lines (k more : Nat) : (s.giveTurn k more).lines = s.lines := rfl
@[simp] theorem State.giveTurn_refcount (k more : Nat) : (s.giveTurn k more).refcount = s.refcount := rfl
@[simp] theorem State.giveTurn_locks (k more : Nat) : (s.giveTurn k more).locks = s.locks := rfl
@[simp] theorem State.giveTurn_ports (k more : Nat) : (s.giveTurn k more).ports = s.ports := rfl
@[simp] theorem State.giveTurn_envFail (k more : Nat) : (s.giveTurn k more).envFail = s.envFail := rfl
@[simp] theorem State.giveTurn_active (k more : Nat) : (s.giveTurn k more).active = k := rfl
@[simp] theorem State.giveTurn_turn (k more : Nat) : (s.giveTurn k more).turn = more := rfl
@[simp] theorem State.giveTurn_sched (k more : Nat) : (s.giveTurn k more).sched = s.sched := rfl
@[simp] theorem State.giveTurn_supply (k more : Nat) : (s.giveTurn k more).supply = s.supply := rfl
@[simp] theorem State.giveTurn_drawn (k more : Nat) : (s.giveTurn k more).drawn = s.drawn := rfl
@[simp] theorem State.giveTurn_bus (k more : Nat) : (s.giveTurn k more).bus = s.bus := rfl

/-! ### afterMove -/

@[simp] theorem State.afterMove_params : (s.afterMove).params = s.params := rfl
@[simp] theorem State.afterMove_csr : (s.afterMove).csr = s.csr := rfl
@[simp] theorem State.afterMove_olat : (s.afterMove).olat = s.olat := rfl
@[simp] theorem State.afterMove_pad : (s.afterMove).pad = s.pad := rfl
@[simp] theorem State.afterMove_eds : (s.afterMove).eds = s.eds := rfl
@[simp] theorem State.afterMove_lines : (s.afterMove).lines = s.lines := rfl
@[simp] theorem State.afterMove_refcount : (s.afterMove).refcount = s.refcount := rfl
@[simp] theorem State.afterMove_locks : (s.afterMove).locks = s.locks := rfl
@[simp] theorem State.afterMove_ports : (s.afterMove).ports = s.ports := rfl
@[simp] theorem State.afterMove_envFail : (s.afterMove).envFail = s.envFail := rfl
@[simp] theorem State.afterMove_active : (s.afterMove).active = s.active := rfl
@[simp] theorem State.afterMove_turn : (s.afterMove).turn = s.turn := rfl
@[simp] theorem State.afterMove_sched : (s.afterMove).sched = s.sched.tail := rfl
@[simp] theorem State.afterMove_supply : (s.afterMove).supply = s.supply := rfl
@[simp] theorem State.afterMove_drawn : (s.afterMove).drawn = s.drawn := rfl
@[simp] theorem State.afterMove_bus : (s.afterMove).bus = s.bus := rfl

/-! ### accept -/

@[simp] theorem State.accept_params : (s.accept).params = s.params := rfl
@[simp] theorem State.accept_csr : (s.accept).csr = s.csr := rfl
@[simp] theorem State.accept_olat : (s.accept).olat = s.olat := rfl
@[simp] theorem State.accept_pad : (s.accept).pad = s.pad := rfl
@[simp] theorem State.accept_eds : (s.accept).eds = s.eds := rfl
@[simp] theorem State.accept_lines : (s.accept).lines = s.lines := rfl
@[simp] theorem State.accept_refcount : (s.accept).refcount = s.refcount := rfl
@[simp] theorem State.accept_locks : (s.accept).locks = s.locks := rfl
@[simp] theorem State.accept_envFail : (s.accept).envFail = s.envFail := rfl
@[simp] theorem State.accept_active : (s.accept).active = s.active := rfl
@[simp] theorem State.accept_turn : (s.accept).turn = s.turn := rfl
@[simp] theorem State.accept_sched : (s.accept).sched = s.sched := rfl
@[simp] theorem State.accept_supply : (s.accept).supply = s.supply := rfl
@[simp] theorem State.accept_drawn : (s.accept).drawn = s.drawn := rfl
@[simp] theorem State.accept_bus : (s.accept).bus = s.bus := rfl

/-! ### blockReset -/

@[simp] theorem State.blockReset_params : (s.blockReset).params = s.params := rfl
@[simp] theorem State.blockReset_csr : (s.blockReset).csr = s.csr := rfl
@[simp] theorem State.blockReset_olat : (s.blockReset).olat = s.olat := rfl
@[simp] theorem State.blockReset_pad : (s.blockReset).pad = s.pad := rfl
@[simp] theorem State.blockReset_eds : (s.blockReset).eds = s.eds := rfl
@[simp] theorem State.blockReset_lines : (s.blockReset).lines = Vector.replicate 58 Line.unrequested := rfl
@[simp] theorem State.blockReset_refcount : (s.blockReset).refcount = 0 := rfl
@[simp] theorem State.blockReset_locks : (s.blockReset).locks = [] := rfl
@[simp] theorem State.blockReset_ports :
    (s.blockReset).ports = s.ports.map fun q => { q with inflight := none } := rfl
@[simp] theorem State.blockReset_envFail : (s.blockReset).envFail = s.envFail := rfl
@[simp] theorem State.blockReset_active : (s.blockReset).active = s.active := rfl
@[simp] theorem State.blockReset_turn : (s.blockReset).turn = s.turn := rfl
@[simp] theorem State.blockReset_sched : (s.blockReset).sched = s.sched := rfl
@[simp] theorem State.blockReset_supply : (s.blockReset).supply = s.supply := rfl
@[simp] theorem State.blockReset_drawn : (s.blockReset).drawn = s.drawn := rfl
@[simp] theorem State.blockReset_bus : (s.blockReset).bus = s.bus := rfl

/-! ### afterDraw -/

@[simp] theorem State.afterDraw_params : (s.afterDraw).params = s.params := rfl
@[simp] theorem State.afterDraw_csr : (s.afterDraw).csr = s.csr := rfl
@[simp] theorem State.afterDraw_olat : (s.afterDraw).olat = s.olat := rfl
@[simp] theorem State.afterDraw_pad : (s.afterDraw).pad = s.pad := rfl
@[simp] theorem State.afterDraw_eds : (s.afterDraw).eds = s.eds := rfl
@[simp] theorem State.afterDraw_lines : (s.afterDraw).lines = s.lines := rfl
@[simp] theorem State.afterDraw_refcount : (s.afterDraw).refcount = s.refcount := rfl
@[simp] theorem State.afterDraw_locks : (s.afterDraw).locks = s.locks := rfl
@[simp] theorem State.afterDraw_ports : (s.afterDraw).ports = s.ports := rfl
@[simp] theorem State.afterDraw_envFail : (s.afterDraw).envFail = s.envFail := rfl
@[simp] theorem State.afterDraw_active : (s.afterDraw).active = s.active := rfl
@[simp] theorem State.afterDraw_turn : (s.afterDraw).turn = s.turn := rfl
@[simp] theorem State.afterDraw_sched : (s.afterDraw).sched = s.sched := rfl
@[simp] theorem State.afterDraw_supply : s.afterDraw.supply = s.supply.tail := rfl
@[simp] theorem State.afterDraw_drawn : s.afterDraw.drawn = s.drawn + if s.supply.isEmpty then 1 else 0 := rfl
@[simp] theorem State.afterDraw_bus : (s.afterDraw).bus = s.bus := rfl

/-! ### noteFn -/

@[simp] theorem State.noteFn_params (n : Option (PinIndex × Fn)) : (s.noteFn n).params = s.params := by
  cases n <;> rfl
@[simp] theorem State.noteFn_csr (n : Option (PinIndex × Fn)) : (s.noteFn n).csr = s.csr := by
  cases n <;> rfl
@[simp] theorem State.noteFn_olat (n : Option (PinIndex × Fn)) : (s.noteFn n).olat = s.olat := by
  cases n <;> rfl
@[simp] theorem State.noteFn_pad (n : Option (PinIndex × Fn)) : (s.noteFn n).pad = s.pad := by
  cases n <;> rfl
@[simp] theorem State.noteFn_eds (n : Option (PinIndex × Fn)) : (s.noteFn n).eds = s.eds := by
  cases n <;> rfl
@[simp] theorem State.noteFn_refcount (n : Option (PinIndex × Fn)) : (s.noteFn n).refcount = s.refcount := by
  cases n <;> rfl
@[simp] theorem State.noteFn_locks (n : Option (PinIndex × Fn)) : (s.noteFn n).locks = s.locks := by
  cases n <;> rfl
@[simp] theorem State.noteFn_ports (n : Option (PinIndex × Fn)) : (s.noteFn n).ports = s.ports := by
  cases n <;> rfl
@[simp] theorem State.noteFn_envFail (n : Option (PinIndex × Fn)) : (s.noteFn n).envFail = s.envFail := by
  cases n <;> rfl
@[simp] theorem State.noteFn_active (n : Option (PinIndex × Fn)) : (s.noteFn n).active = s.active := by
  cases n <;> rfl
@[simp] theorem State.noteFn_turn (n : Option (PinIndex × Fn)) : (s.noteFn n).turn = s.turn := by
  cases n <;> rfl
@[simp] theorem State.noteFn_sched (n : Option (PinIndex × Fn)) : (s.noteFn n).sched = s.sched := by
  cases n <;> rfl
@[simp] theorem State.noteFn_supply (n : Option (PinIndex × Fn)) : (s.noteFn n).supply = s.supply := by
  cases n <;> rfl
@[simp] theorem State.noteFn_drawn (n : Option (PinIndex × Fn)) : (s.noteFn n).drawn = s.drawn := by
  cases n <;> rfl
@[simp] theorem State.noteFn_bus (n : Option (PinIndex × Fn)) : (s.noteFn n).bus = s.bus := by
  cases n <;> rfl

/-! ### writeWord -/

@[simp] theorem State.writeWord_params (w : RegWord) (v : Word) : (s.writeWord w v).params = s.params := by
  unfold State.writeWord; split <;> simp
@[simp] theorem State.writeWord_pad (w : RegWord) (v : Word) : (s.writeWord w v).pad = s.pad := by
  unfold State.writeWord; split <;> simp
@[simp] theorem State.writeWord_lines (w : RegWord) (v : Word) : (s.writeWord w v).lines = s.lines := by
  unfold State.writeWord; split <;> simp
@[simp] theorem State.writeWord_refcount (w : RegWord) (v : Word) : (s.writeWord w v).refcount = s.refcount := by
  unfold State.writeWord; split <;> simp
@[simp] theorem State.writeWord_locks (w : RegWord) (v : Word) : (s.writeWord w v).locks = s.locks := by
  unfold State.writeWord; split <;> simp
@[simp] theorem State.writeWord_ports (w : RegWord) (v : Word) : (s.writeWord w v).ports = s.ports := by
  unfold State.writeWord; split <;> simp
@[simp] theorem State.writeWord_envFail (w : RegWord) (v : Word) : (s.writeWord w v).envFail = s.envFail := by
  unfold State.writeWord; split <;> simp
@[simp] theorem State.writeWord_active (w : RegWord) (v : Word) : (s.writeWord w v).active = s.active := by
  unfold State.writeWord; split <;> simp
@[simp] theorem State.writeWord_turn (w : RegWord) (v : Word) : (s.writeWord w v).turn = s.turn := by
  unfold State.writeWord; split <;> simp
@[simp] theorem State.writeWord_sched (w : RegWord) (v : Word) : (s.writeWord w v).sched = s.sched := by
  unfold State.writeWord; split <;> simp
@[simp] theorem State.writeWord_bus (w : RegWord) (v : Word) : (s.writeWord w v).bus = s.bus := by
  unfold State.writeWord; split <;> simp

/-! ### memWrite -/

@[simp] theorem State.memWrite_params (off : Nat) (v : Word) : (s.memWrite off v).params = s.params := by
  unfold State.memWrite; split <;> simp
@[simp] theorem State.memWrite_pad (off : Nat) (v : Word) : (s.memWrite off v).pad = s.pad := by
  unfold State.memWrite; split <;> simp
@[simp] theorem State.memWrite_lines (off : Nat) (v : Word) : (s.memWrite off v).lines = s.lines := by
  unfold State.memWrite; split <;> simp
@[simp] theorem State.memWrite_refcount (off : Nat) (v : Word) : (s.memWrite off v).refcount = s.refcount := by
  unfold State.memWrite; split <;> simp
@[simp] theorem State.memWrite_locks (off : Nat) (v : Word) : (s.memWrite off v).locks = s.locks := by
  unfold State.memWrite; split <;> simp
@[simp] theorem State.memWrite_ports (off : Nat) (v : Word) : (s.memWrite off v).ports = s.ports := by
  unfold State.memWrite; split <;> simp
@[simp] theorem State.memWrite_envFail (off : Nat) (v : Word) : (s.memWrite off v).envFail = s.envFail := by
  unfold State.memWrite; split <;> simp
@[simp] theorem State.memWrite_active (off : Nat) (v : Word) : (s.memWrite off v).active = s.active := by
  unfold State.memWrite; split <;> simp
@[simp] theorem State.memWrite_turn (off : Nat) (v : Word) : (s.memWrite off v).turn = s.turn := by
  unfold State.memWrite; split <;> simp
@[simp] theorem State.memWrite_sched (off : Nat) (v : Word) : (s.memWrite off v).sched = s.sched := by
  unfold State.memWrite; split <;> simp
@[simp] theorem State.memWrite_bus (off : Nat) (v : Word) : (s.memWrite off v).bus = s.bus := by
  unfold State.memWrite; split <;> simp

/-! ### busRead -/

@[simp] theorem State.busRead_params (off : Nat) : (s.busRead off).params = s.params := rfl
@[simp] theorem State.busRead_csr (off : Nat) : (s.busRead off).csr = s.csr := rfl
@[simp] theorem State.busRead_olat (off : Nat) : (s.busRead off).olat = s.olat := rfl
@[simp] theorem State.busRead_pad (off : Nat) : (s.busRead off).pad = s.pad := rfl
@[simp] theorem State.busRead_eds (off : Nat) : (s.busRead off).eds = s.eds := rfl
@[simp] theorem State.busRead_lines (off : Nat) : (s.busRead off).lines = s.lines := rfl
@[simp] theorem State.busRead_refcount (off : Nat) : (s.busRead off).refcount = s.refcount := rfl
@[simp] theorem State.busRead_locks (off : Nat) : (s.busRead off).locks = s.locks := rfl
@[simp] theorem State.busRead_ports (off : Nat) : (s.busRead off).ports = s.ports := rfl
@[simp] theorem State.busRead_envFail (off : Nat) : (s.busRead off).envFail = s.envFail := rfl
@[simp] theorem State.busRead_active (off : Nat) : (s.busRead off).active = s.active := rfl
@[simp] theorem State.busRead_turn (off : Nat) : (s.busRead off).turn = s.turn := rfl
@[simp] theorem State.busRead_sched (off : Nat) : (s.busRead off).sched = s.sched := rfl
@[simp] theorem State.busRead_supply (off : Nat) : (s.busRead off).supply = s.supply.tail := rfl
@[simp] theorem State.busRead_drawn (off : Nat) : (s.busRead off).drawn = s.drawn + if s.supply.isEmpty then 1 else 0 := rfl
@[simp] theorem State.busRead_bus (off : Nat) :
    (s.busRead off).bus = s.bus ++ [{ kind := .read, off := off, data := s.memRead off }] := rfl

/-! ### busWrite -/

@[simp] theorem State.busWrite_params (off : Nat) (v : Word) : (s.busWrite off v).params = s.params := by
  simp [State.busWrite]
@[simp] theorem State.busWrite_csr (off : Nat) (v : Word) : (s.busWrite off v).csr = (s.memWrite off v).csr := rfl
@[simp] theorem State.busWrite_olat (off : Nat) (v : Word) : (s.busWrite off v).olat = (s.memWrite off v).olat := rfl
@[simp] theorem State.busWrite_pad (off : Nat) (v : Word) : (s.busWrite off v).pad = s.pad := by
  simp [State.busWrite]
@[simp] theorem State.busWrite_eds (off : Nat) (v : Word) : (s.busWrite off v).eds = (s.memWrite off v).eds := rfl
@[simp] theorem State.busWrite_lines (off : Nat) (v : Word) : (s.busWrite off v).lines = s.lines := by
  simp [State.busWrite]
@[simp] theorem State.busWrite_refcount (off : Nat) (v : Word) : (s.busWrite off v).refcount = s.refcount := by
  simp [State.busWrite]
@[simp] theorem State.busWrite_locks (off : Nat) (v : Word) : (s.busWrite off v).locks = s.locks := by
  simp [State.busWrite]
@[simp] theorem State.busWrite_ports (off : Nat) (v : Word) : (s.busWrite off v).ports = s.ports := by
  simp [State.busWrite]
@[simp] theorem State.busWrite_envFail (off : Nat) (v : Word) : (s.busWrite off v).envFail = s.envFail := by
  simp [State.busWrite]
@[simp] theorem State.busWrite_active (off : Nat) (v : Word) : (s.busWrite off v).active = s.active := by
  simp [State.busWrite]
@[simp] theorem State.busWrite_turn (off : Nat) (v : Word) : (s.busWrite off v).turn = s.turn := by
  simp [State.busWrite]
@[simp] theorem State.busWrite_sched (off : Nat) (v : Word) : (s.busWrite off v).sched = s.sched := by
  simp [State.busWrite]
@[simp] theorem State.busWrite_supply (off : Nat) (v : Word) :
    (s.busWrite off v).supply = (s.memWrite off v).supply := rfl
@[simp] theorem State.busWrite_drawn (off : Nat) (v : Word) :
    (s.busWrite off v).drawn = (s.memWrite off v).drawn := rfl
@[simp] theorem State.busWrite_bus (off : Nat) (v : Word) :
    (s.busWrite off v).bus = s.bus ++ [{ kind := .write, off := off, data := v }] := by
  simp [State.busWrite]

end Sys2Proof.Machine
end

