-- ==== Sys2Proof/Laws/Ops.lean ====
section
/-!
SUPPORT. What each shared operation does, said once: draws, the controller's reads and writes, the port, the line table,
the steps of a command.
-/

namespace Sys2Proof.Machine

@[simp] theorem getElem_ofPins (f : PinIndex → Bool) (p : PinIndex) : (ofPins f)[p] = f p := by
  simp [ofPins]

/-! ### The controller -/

/-- What a read of a readable register word answers, on the word's valid bits (R58, R61, R62). -/
theorem memRead_valid (s : State) (h : s.params.valid = true) (w : RegWord) (hw : w ∈ regWords)
    (ha : w.fam.access ≠ .strobe) : s.memRead (w.off s.params) &&& w.mask = s.shown w &&& w.mask := by
  have hd : determinedBits w = w.mask := by unfold determinedBits; split <;> simp_all
  unfold State.memRead
  rw [locate_off _ h w hw]
  simp only [hd]
  refine BitVec.eq_of_getLsbD_eq fun i hi => ?_
  simp only [BitVec.getLsbD_and, BitVec.getLsbD_or, BitVec.getLsbD_not]
  cases w.mask.getLsbD i <;> simp

/-- A pin's field of the word read is its field of what the controller shows. -/
theorem extract_memRead (s : State) (h : s.params.valid = true) (p : PinIndex) (f : Family) (ha : f.access ≠ .strobe) :
    (resolve s.params p f).extract f.width (s.memRead (resolve s.params p f).off) =
      (resolve s.params p f).extract f.width (s.shown (RegWord.ofPin p f)) :=
  extract_masked _ _ _ _ _ (memRead_valid s h _ (ofPin_mem p f) ha)

theorem shown_readWrite (s : State) (p : PinIndex) (f : Family) (ha : f.access = .readWrite) :
    s.shown (RegWord.ofPin p f) = Memory.read s.csr (resolve s.params p f).off := by
  simp [State.shown, ha, resolve_off]

/-- A read of a read-write family's field answers the stored field. -/
theorem extract_memRead_readWrite (s : State) (h : s.params.valid = true) (p : PinIndex) (f : Family)
    (ha : f.access = .readWrite) :
    (resolve s.params p f).extract f.width (s.memRead (resolve s.params p f).off) =
      (resolve s.params p f).extract f.width (Memory.read s.csr (resolve s.params p f).off) := by
  rw [extract_memRead s h p f (by simp [ha]), shown_readWrite s p f ha]

theorem bitsOfWord_bit (k : Nat) (g : PinIndex → Bool) (p : PinIndex) (hk : p.val / 32 = k) :
    (bitsOfWord k g).getLsbD (p.val % 32) = g p := by
  have hj : p.val % 32 < 32 := Nat.mod_lt _ (by omega)
  have hp : 32 * k + p.val % 32 = p.val := by omega
  simp [bitsOfWord, hj, hp, p.isLt]

theorem oneBit_shift (p : PinIndex) (f : Family) (hw : f.width = 1) : shiftOf p f = p.val % 32 := by
  cases f <;> simp_all [Family.width, shiftOf, Family.pinsPerWord]

theorem oneBit_word (p : PinIndex) (f : Family) (hw : f.width = 1) : wordIndexOf p f = p.val / 32 := by
  rw [wordIndexOf_eq]
  cases f <;> simp_all [Family.width, Family.pinsPerWord]

/-- A bit as a field value. -/
def bitValue (b : Bool) : Word := if b then 1 else 0

/-- The one-bit field of a word made of the pins' bits is the pin's bit. -/
theorem extract_bitsOfWord (ps : Params) (p : PinIndex) (f : Family) (hw : f.width = 1) (g : PinIndex → Bool) :
    (resolve ps p f).extract f.width (bitsOfWord (wordIndexOf p f) g) = bitValue (g p) := by
  refine BitVec.eq_of_getLsbD_eq fun i hi => ?_
  rw [extract_bit, hw, oneBit_shift p f hw, oneBit_word p f hw]
  cases i with
  | zero => simp [bitsOfWord_bit (p.val / 32) g p rfl, bitValue]; cases g p <;> rfl
  | succ n => simp only [bitValue]; cases g p <;> simp [BitVec.getLsbD_one]

/-- Level shows the latch of an output and the pad of any other pin (R61). -/
theorem extract_memRead_level (s : State) (h : s.params.valid = true) (p : PinIndex) :
    (resolve s.params p .level).extract 1 (s.memRead (resolve s.params p .level).off) = bitValue (s.levelBit p) := by
  have := extract_memRead s h p .level (by decide)
  rw [show Family.level.width = 1 from rfl] at this
  rw [this]
  exact extract_bitsOfWord s.params p .level rfl s.levelBit

/-- EventStatus shows the event latch (R62). -/
theorem extract_memRead_events (s : State) (h : s.params.valid = true) (p : PinIndex) :
    (resolve s.params p .eventStatus).extract 1 (s.memRead (resolve s.params p .eventStatus).off) =
      bitValue s.eds[p] := by
  have := extract_memRead s h p .eventStatus (by decide)
  rw [show Family.eventStatus.width = 1 from rfl] at this
  rw [this]
  exact extract_bitsOfWord s.params p .eventStatus rfl fun q => s.eds[q]

/-- A write of a read-write word stores its valid bits and does nothing else (R58). -/
theorem memWrite_readWrite (s : State) (h : s.params.valid = true) (w : RegWord) (hw : w ∈ regWords)
    (ha : w.fam.access = .readWrite) (v : Word) :
    s.memWrite (w.off s.params) v = { s with csr := Memory.write s.csr (w.off s.params) (v &&& w.mask) } := by
  unfold State.memWrite
  rw [locate_off _ h w hw]
  obtain ⟨f, k⟩ := w
  cases f <;> simp_all [Family.access, State.writeWord]

theorem memWrite_set (s : State) (h : s.params.valid = true) (p : PinIndex) (v : Word) :
    s.memWrite (resolve s.params p .set).off v =
      (s.strobe (wordIndexOf p .set) (v &&& (RegWord.ofPin p .set).mask) true).afterDraw := by
  unfold State.memWrite
  rw [locate_resolve _ h]; rfl

theorem memWrite_clear (s : State) (h : s.params.valid = true) (p : PinIndex) (v : Word) :
    s.memWrite (resolve s.params p .clear).off v =
      (s.strobe (wordIndexOf p .clear) (v &&& (RegWord.ofPin p .clear).mask) false).afterDraw := by
  unfold State.memWrite
  rw [locate_resolve _ h]; rfl

/-- A strobe on a word of the pin's family, by the value's low bit (R147). -/
theorem strobeData_bit (ps : Params) (p q : PinIndex) (f : Family) (hw : f.width = 1) (v : Word) :
    pinBit (wordIndexOf p f) ((resolve ps p f).strobeData v &&& (RegWord.ofPin p f).mask) q =
      (decide (q = p) && v.getLsbD 0) := by
  have hs := oneBit_shift p f hw
  have hi := oneBit_word p f hw
  have hm := mask_bit p f 0 (by omega)
  rw [hs] at hm
  simp only [pinBit, Resolved.strobeData, BitVec.getLsbD_and, BitVec.getLsbD_shiftLeft, resolve_shift, hs, hi]
  by_cases hq : q = p
  · subst hq
    have h32 : q.val % 32 < 32 := Nat.mod_lt _ (by omega)
    simp [h32, RegWord.mask, hi] at hm ⊢
    intro _
    simpa using hm
  · have hne : q.val ≠ p.val := fun h => hq (Fin.ext h)
    simp only [hq, decide_false, Bool.false_and, Bool.and_eq_false_iff, beq_eq_false_iff_ne]
    by_cases hk : q.val / 32 = p.val / 32
    · right
      by_cases hlt : q.val % 32 < p.val % 32
      · simp [hlt]
      · have : q.val % 32 - p.val % 32 ≠ 0 := by omega
        have h1 : (1#32).getLsbD (q.val % 32 - p.val % 32) = false := by
          rw [BitVec.getLsbD_one]; simp [this]
        rw [show (1 : Word) = 1#32 from rfl, h1]
        simp
    · left; exact hk

/-- The latches after the block's strobe: only the pin's own can change, and only when the value's low bit is 1
(R60, R147). -/
theorem strobed_getElem (s : State) (ps : Params) (p q : PinIndex) (f : Family) (hw : f.width = 1) (v : Word)
    (level : Bool) :
    (s.strobed (wordIndexOf p f) ((resolve ps p f).strobeData v &&& (RegWord.ofPin p f).mask) level)[q] =
      if q = p ∧ v.getLsbD 0 = true then (if s.isOutput p then level else s.drawValue.getLsbD (p.val % 32))
      else s.olat[q] := by
  simp only [State.strobed, getElem_ofPins, strobeData_bit ps p q f hw v]
  by_cases hq : q = p
  · subst hq; cases v.getLsbD 0 <;> simp
  · simp [hq]

/-- Two bit tables that agree at every pin are equal. -/
theorem pins_ext (u v : Vector Bool 58) (h : ∀ p : PinIndex, u[p] = v[p]) : u = v :=
  Vector.ext fun i hi => h ⟨i, hi⟩

/-- The effect of the block's strobe with value 1 (R60). -/
theorem strobed_one (s : State) (ps : Params) (p : PinIndex) (f : Family) (hw : f.width = 1) (v : Word)
    (hv : v.getLsbD 0 = true) (level : Bool) :
    s.strobed (wordIndexOf p f) ((resolve ps p f).strobeData v &&& (RegWord.ofPin p f).mask) level =
      s.olat.set p (if s.isOutput p then level else s.drawValue.getLsbD (p.val % 32)) := by
  refine pins_ext _ _ fun q => ?_
  rw [strobed_getElem s ps p q f hw v level]
  by_cases hq : q = p
  · subst hq; simp [hv]
  · have hne : p.val ≠ q.val := fun h => hq (Fin.ext h.symm)
    simp only [hq, false_and, if_false]
    exact (Vector.getElem_set_ne p.isLt q.isLt hne).symm

/-- A strobe with value 0 is a no-op (R60, R147). -/
theorem strobed_zero (s : State) (ps : Params) (p : PinIndex) (f : Family) (hw : f.width = 1) (v : Word)
    (hv : v.getLsbD 0 = false) (level : Bool) :
    s.strobed (wordIndexOf p f) ((resolve ps p f).strobeData v &&& (RegWord.ofPin p f).mask) level = s.olat := by
  refine pins_ext _ _ fun q => ?_
  rw [strobed_getElem s ps p q f hw v level, hv]
  simp

/-! ### The active port -/

@[simp] theorem inflight_onPort (s : State) (g : Port → Port) :
    (s.onPort g).inflight = (s.ports[s.active]?).bind fun q => (g q).inflight := by
  simp only [State.inflight, State.onPort_ports, State.onPort_active, List.getElem?_modify_eq]
  cases s.ports[s.active]? <;> rfl

@[simp] theorem inflight_goto (s : State) (ph : Phase) :
    (s.goto ph).inflight = s.inflight.map fun f => { f with pos := ph } := by
  rw [State.goto, inflight_onPort, State.inflight]
  cases s.ports[s.active]? <;> rfl

@[simp] theorem inflight_respond (s : State) (r : Response) : (s.respond r).inflight = none := by
  simp only [State.respond, inflight_onPort, Port.answer]
  cases s.ports[s.active]? <;> rfl

@[simp] theorem inflight_raise (s : State) (st : Status) : (s.raise st).inflight = none := inflight_respond s _

/-- Updates that leave the ports and the active port alone leave the command in flight alone. -/
theorem inflight_congr (s t : State) (hp : t.ports = s.ports) (ha : t.active = s.active) : t.inflight = s.inflight := by
  simp [State.inflight, hp, ha]

@[simp] theorem inflight_acquire (s : State) (off : Nat) : (s.acquire off).inflight = s.inflight := rfl

@[simp] theorem inflight_unlock (s : State) (off : Nat) : (s.unlock off).inflight = s.inflight := rfl

@[simp] theorem inflight_busRead (s : State) (off : Nat) : (s.busRead off).inflight = s.inflight :=
  inflight_congr _ _ (by simp) (by simp)

@[simp] theorem inflight_busWrite (s : State) (off : Nat) (v : Word) : (s.busWrite off v).inflight = s.inflight :=
  inflight_congr _ _ (by simp) (by simp)

@[simp] theorem inflight_noteFn (s : State) (n : Option (PinIndex × Fn)) : (s.noteFn n).inflight = s.inflight :=
  inflight_congr _ _ (by simp) (by simp)

theorem modify_modify (l : List Port) (k : Nat) (g h : Port → Port) :
    (l.modify k g).modify k h = l.modify k (h ∘ g) := by
  refine List.ext_getElem? fun i => ?_
  simp only [List.getElem?_modify]
  cases l[i]? <;> by_cases hk : k = i <;> simp [hk]

/-- A position is overwritten by the next one. -/
@[simp] theorem goto_goto (s : State) (a b : Phase) : (s.goto a).goto b = s.goto b := by
  have hg : Port.goto b ∘ Port.goto a = Port.goto b := by
    funext q; cases h : q.inflight <;> simp [Port.goto, h]
  ext1 <;> simp [modify_modify, hg]

/-- A response ends the command wherever it stood. -/
@[simp] theorem respond_goto (s : State) (a : Phase) (r : Response) : (s.goto a).respond r = s.respond r := by
  have hg : Port.answer r ∘ Port.goto a = Port.answer r := rfl
  ext1 <;> simp [modify_modify, hg]

@[simp] theorem raise_goto (s : State) (a : Phase) (st : Status) : (s.goto a).raise st = s.raise st :=
  respond_goto s a _

/-! ### What a position does not affect -/

@[simp] theorem memRead_goto (s : State) (ph : Phase) (off : Nat) : (s.goto ph).memRead off = s.memRead off := rfl

@[simp] theorem memRead_acquire (s : State) (o off : Nat) : (s.acquire o).memRead off = s.memRead off := rfl

@[simp] theorem lockFree_goto (s : State) (ph : Phase) (off : Nat) : (s.goto ph).lockFree off = s.lockFree off := rfl

@[simp] theorem lockFree_busRead (s : State) (o off : Nat) : (s.busRead o).lockFree off = s.lockFree off := by
  simp [State.lockFree]

theorem acquire_goto (s : State) (ph : Phase) (off : Nat) : (s.goto ph).acquire off = (s.acquire off).goto ph := rfl

theorem unlock_goto (s : State) (ph : Phase) (off : Nat) : (s.goto ph).unlock off = (s.unlock off).goto ph := rfl

theorem busRead_goto (s : State) (ph : Phase) (off : Nat) : (s.goto ph).busRead off = (s.busRead off).goto ph := rfl

theorem noteFn_goto (s : State) (ph : Phase) (n : Option (PinIndex × Fn)) :
    (s.goto ph).noteFn n = (s.noteFn n).goto ph := by
  cases n <;> rfl

theorem afterDraw_goto (s : State) (ph : Phase) : (s.goto ph).afterDraw = s.afterDraw.goto ph := rfl

theorem memWrite_goto (s : State) (ph : Phase) (off : Nat) (v : Word) :
    (s.goto ph).memWrite off v = (s.memWrite off v).goto ph := by
  unfold State.memWrite
  simp only [State.goto_params]
  cases locate s.params off with
  | none => rfl
  | some w =>
    simp only [State.writeWord]
    split <;> first | exact afterDraw_goto _ _ | rfl

theorem busWrite_goto (s : State) (ph : Phase) (off : Nat) (v : Word) :
    (s.goto ph).busWrite off v = (s.busWrite off v).goto ph := by
  simp only [State.busWrite, memWrite_goto]; rfl

/-! ### The line table -/

@[simp] theorem line_setLine (s : State) (p q : PinIndex) (l : Line) :
    (s.setLine p l).line q = if q = p then l else s.line q := by
  simp only [State.line, State.setLine_lines]
  by_cases h : q = p
  · subst h; simp
  · have hne : p.val ≠ q.val := fun e => h (Fin.ext e.symm)
    simp only [h, if_false]
    exact Vector.getElem_set_ne p.isLt q.isLt hne

theorem line_congr (s t : State) (h : t.lines = s.lines) (p : PinIndex) : t.line p = s.line p := by
  simp [State.line, h]

/-- A `Ready` line with resolved addresses uses the resolver's (R127). -/
theorem lineAddr_eq (s : State) (p : PinIndex) (f : Family)
    (h : (s.line p).addr = some (resolveAll s.params p) ∨ (s.line p).addr = none) :
    s.lineAddr p f = resolve s.params p f := by
  unfold State.lineAddr
  rcases h with h | h <;> rw [h]
  exact resolveAll_slot s.params p f

/-! ### Pin and line checks -/

theorem pinIndex_of_lt (pin : Nat) (h : pin < 58) : pinIndex pin = some ⟨pin, h⟩ := by
  simp [pinIndex, h]

theorem pinIndex_of_ge (pin : Nat) (h : 57 < pin) : pinIndex pin = none := by
  simp [pinIndex]; omega

theorem withPin_of_lt (s : State) (pin : Nat) (h : pin < 58) (k : PinIndex → State) : s.withPin pin k = k ⟨pin, h⟩ := by
  simp [State.withPin, pinIndex_of_lt pin h]

theorem withPin_of_ge (s : State) (pin : Nat) (h : 57 < pin) (k : PinIndex → State) :
    s.withPin pin k = s.raise .badPin := by
  simp [State.withPin, pinIndex_of_ge pin h]

/-- Everything the pin check can do. -/
theorem withPin_cases (s : State) (pin : Nat) (k : PinIndex → State) :
    (∃ p : PinIndex, p.val = pin ∧ s.withPin pin k = k p) ∨ (57 < pin ∧ s.withPin pin k = s.raise .badPin) := by
  by_cases h : pin < 58
  · exact .inl ⟨⟨pin, h⟩, rfl, withPin_of_lt s pin h k⟩
  · exact .inr ⟨by omega, withPin_of_ge s pin (by omega) k⟩

/-- Everything the line-state check can do. -/
theorem withReady_cases (s : State) (pin : Nat) (k : PinIndex → State) :
    (∃ p : PinIndex, p.val = pin ∧ (s.line p).state = .ready ∧ s.withReady pin k = k p) ∨
      ∃ st, s.withReady pin k = s.raise st := by
  unfold State.withReady
  rcases withPin_cases s pin fun p => if (s.line p).state = .ready then k p else s.raise .nullState with
    ⟨p, hp, h⟩ | ⟨-, h⟩
  · rw [h]
    split
    · exact .inl ⟨p, hp, ‹_›, rfl⟩
    · exact .inr ⟨_, rfl⟩
  · exact .inr ⟨_, h⟩

/-! ### The steps of a command -/

theorem advance_idle (s : State) (h : s.inflight = none) : s.advance = s := by
  simp [State.advance, h]

theorem run_idle (s : State) (h : s.inflight = none) (n : Nat) : s.run n = s := by
  induction n with
  | zero => rfl
  | succ n ih => rw [State.run, advance_idle s h, ih]

theorem advance_some (s : State) (f : InFlight) (h : s.inflight = some f) : s.advance = s.advanceFrom f.pos := by
  simp [State.advance, h]

/-- A step from a position that `goto` set. -/
theorem advance_goto (s : State) (f : InFlight) (h : s.inflight = some f) (ph : Phase) :
    (s.goto ph).advance = (s.goto ph).advanceFrom ph :=
  advance_some _ { f with pos := ph } (by simp [h])

/-- The first step of a read-modify-write when the lock is free. -/
theorem advance_acquire (s : State) (f : InFlight) (h : s.inflight = some f) (j : Rmw)
    (hl : s.lockFree j.addr.off = true) :
    (s.goto (.rmwAcquire j)).advance = (s.acquire j.addr.off).goto (.rmwRead j) := by
  rw [advance_goto s f h, State.advanceFrom]
  simp [hl, acquire_goto]

/-- The second step: the word is read, with the lock held. -/
theorem advance_read (s : State) (f : InFlight) (h : s.inflight = some f) (j : Rmw) :
    (s.goto (.rmwRead j)).advance =
      (s.busRead j.addr.off).goto (.rmwWrite j (s.memRead j.addr.off &&& j.addr.writeMask)) := by
  rw [advance_goto s f h, State.advanceFrom]
  simp [busRead_goto]

/-- The third step: the word is written and the lock given back. -/
theorem advance_write (s : State) (f : InFlight) (h : s.inflight = some f) (j : Rmw) (current : Word) :
    (s.goto (.rmwWrite j current)).advance =
      (((s.busWrite j.addr.off (j.addr.merge j.width current j.value)).unlock j.addr.off).noteFn j.note).respond
        (Response.bare .ok) := by
  rw [advance_goto s f h, State.advanceFrom]
  simp [busWrite_goto, unlock_goto, noteFn_goto]

/-- The read part of a read-modify-write that nothing disturbs: two steps (R146). -/
theorem run_two (s : State) (f : InFlight) (h : s.inflight = some f) (j : Rmw) (hl : s.lockFree j.addr.off = true)
    (n : Nat) :
    (s.goto (.rmwAcquire j)).run (n + 2) =
      (((s.acquire j.addr.off).busRead j.addr.off).goto
        (.rmwWrite j (s.memRead j.addr.off &&& j.addr.writeMask))).run n := by
  rw [State.run, State.run, advance_acquire s f h j hl, advance_read _ f (by simpa using h)]
  simp

/-- A whole read-modify-write that nothing disturbs (R146). -/
theorem proceed_rmw (s : State) (f : InFlight) (h : s.inflight = some f) (j : Rmw)
    (hl : s.lockFree j.addr.off = true) (ht : 3 ≤ s.turn) :
    s.proceed (.rmwAcquire j) =
      ((((((s.acquire j.addr.off).busRead j.addr.off).busWrite j.addr.off
        (j.addr.merge j.width (s.memRead j.addr.off &&& j.addr.writeMask) j.value)).unlock j.addr.off).noteFn
          j.note).respond (Response.bare .ok)) := by
  obtain ⟨n, hn⟩ : ∃ n, s.turn = n + 3 := ⟨s.turn - 3, by omega⟩
  rw [State.proceed, hn, show n + 3 = (n + 1) + 2 from rfl, run_two s f h j hl, State.run,
    advance_write _ f (by simpa using h)]
  exact run_idle _ (by simp) n

/-- A strobe write that finds its lock free and that nothing disturbs (R147). -/
theorem proceed_strobe (s : State) (f : InFlight) (h : s.inflight = some f) (a : Resolved) (data : Word)
    (hl : s.lockFree a.off = true) (ht : 2 ≤ s.turn) :
    s.proceed (.strobeAcquire a data) =
      (((s.acquire a.off).busWrite a.off data).unlock a.off).respond (Response.bare .ok) := by
  obtain ⟨n, hn⟩ : ∃ n, s.turn = n + 2 := ⟨s.turn - 2, by omega⟩
  rw [State.proceed, hn, State.run, advance_goto s f h, State.advanceFrom]
  simp only [lockFree_goto, hl, if_true, acquire_goto, goto_goto]
  rw [State.run, advance_goto _ f (by simpa using h), State.advanceFrom]
  simp only [busWrite_goto, unlock_goto, respond_goto]
  exact run_idle _ (by simp) n

/-- WRITE_LEVEL's strobe when it finds its lock free (R175 step 3). -/
theorem run_driveLevel (s : State) (f : InFlight) (h : s.inflight = some f) (a : Resolved) (data : Word)
    (hl : s.lockFree a.off = true) (n : Nat) :
    (s.goto (.driveLevel a data)).run (n + 1) = (s.busWrite a.off data).respond (Response.bare .ok) := by
  rw [State.run, advance_goto s f h, State.advanceFrom]
  simp only [lockFree_goto, hl, if_true, busWrite_goto, respond_goto]
  exact run_idle _ (by simp) n

/-- WRITE_LEVEL's check and strobe when nothing disturbs them (R175). -/
theorem proceed_checkFn (s : State) (f : InFlight) (h : s.inflight = some f) (fsel target : Resolved)
    (hl : s.lockFree target.off = true) (ht : 2 ≤ s.turn) :
    s.proceed (.checkFn fsel target) =
      if fsel.extract 3 (s.memRead fsel.off) = 1 then
        ((s.busRead fsel.off).busWrite target.off (target.strobeData 1)).respond (Response.bare .ok)
      else (s.busRead fsel.off).raise .pinMisconfigured := by
  obtain ⟨n, hn⟩ : ∃ n, s.turn = n + 2 := ⟨s.turn - 2, by omega⟩
  rw [State.proceed, hn, State.run, advance_goto s f h, State.advanceFrom]
  simp only [memRead_goto, busRead_goto, goto_goto, raise_goto]
  split
  · exact run_driveLevel _ f (by simpa using h) target _ (by simpa using hl) n
  · exact run_idle _ (by simp) _

/-- READ_LEVEL's read (R176). -/
theorem proceed_readLevel (s : State) (f : InFlight) (h : s.inflight = some f) (a : Resolved) (ht : 1 ≤ s.turn) :
    s.proceed (.readLevel a) = (s.busRead a.off).respond (Response.value (a.extract 1 (s.memRead a.off))) := by
  obtain ⟨n, hn⟩ : ∃ n, s.turn = n + 1 := ⟨s.turn - 1, by omega⟩
  rw [State.proceed, hn, State.run, advance_goto s f h, State.advanceFrom]
  simp only [memRead_goto, busRead_goto, respond_goto]
  exact run_idle _ (by simp) n

end Sys2Proof.Machine
end

