-- ==== Sys2Proof/Laws/Commands.lean ====
section
/-!
SUPPORT. Everything a command can do when it runs, said once; every frame and every invariant is derived from it.
-/

namespace Sys2Proof.Machine

/-- The ways in which the first step of a command (and, in its turn, the further ones) can change the state. -/
inductive Effect (s : State) : Instr → State → Prop
  /-- A response alone: RESOLVE, every error, a REQUEST of a `Ready` pin. -/
  | answered (i : Instr) (r : Response) : Effect s i (s.respond r)
  /-- READ_FIELD. -/
  | read (i : Instr) (p : PinIndex) (f : Family) (ha : f.access ≠ .strobe) (hi : Instr.ofReadField f p.val = some i) :
      Effect s i ((s.busRead (resolve s.params p f).off).respond
        (Response.value ((resolve s.params p f).extract f.width (s.memRead (resolve s.params p f).off))))
  /-- WRITE_FIELD on a read-write family. -/
  | modified (i : Instr) (p : PinIndex) (f : Family) (v : Word) (ha : f.access = .readWrite)
      (hi : Instr.ofWriteField f p.val v = some i) :
      Effect s i (s.proceed (.rmwAcquire { addr := resolve s.params p f, width := f.width, value := v, note := none }))
  /-- WRITE_FIELD on a strobe family. -/
  | strobed (i : Instr) (p : PinIndex) (f : Family) (v : Word) (ha : f.access = .strobe)
      (hi : Instr.ofWriteField f p.val v = some i) :
      Effect s i (s.proceed (.strobeAcquire (resolve s.params p f) ((resolve s.params p f).strobeData v)))
  /-- REQUEST that creates the line. -/
  | created (p : PinIndex) (hl : (s.line p).state ≠ .ready) :
      Effect s (.request p.val) ((s.createLine p).respond (Response.bare .ok))
  /-- RELEASE. -/
  | ended (p : PinIndex) (hl : (s.line p).state = .ready) :
      Effect s (.release p.val) ((s.endLine p).respond (Response.bare .ok))
  /-- CONFIGURE_FUNCTION of a `Ready` line. -/
  | configured (p : PinIndex) (fn : Fn) (hl : (s.line p).state = .ready) :
      Effect s (.configureFunction p.val fn)
        (s.proceed (.rmwAcquire
          { addr := s.lineAddr p .functionSelect, width := 3, value := BitVec.ofNat 32 fn.code, note := some (p, fn) }))
  /-- WRITE_LEVEL of 0 or 1 on a `Ready` line. -/
  | levelWritten (p : PinIndex) (v : Word) (f : Family) (hf : f = .set ∨ f = .clear) (hl : (s.line p).state = .ready) :
      Effect s (.writeLevel p.val v) (s.proceed (.checkFn (s.lineAddr p .functionSelect) (s.lineAddr p f)))
  /-- READ_LEVEL of a `Ready` line. -/
  | levelRead (p : PinIndex) (hl : (s.line p).state = .ready) :
      Effect s (.readLevel p.val) (s.proceed (.readLevel (s.lineAddr p .level)))

theorem resolveCommand_effect (i : Instr) (f : Family) (pin : Nat) (s : State) :
    Effect s i (s.resolveCommand f pin) := by
  unfold State.resolveCommand
  rcases withPin_cases s pin _ with ⟨p, -, h⟩ | ⟨-, h⟩ <;> rw [h]
  · exact .answered i _
  · exact .answered i _

theorem readFieldCommand_effect (i : Instr) (f : Family) (pin : Nat) (s : State)
    (hi : Instr.ofReadField f pin = some i) : Effect s i (s.readFieldCommand f pin) := by
  have ha : f.access ≠ .strobe := by
    cases f <;> first | decide | cases hi
  unfold State.readFieldCommand
  rcases withPin_cases s pin _ with ⟨p, rfl, h⟩ | ⟨-, h⟩ <;> rw [h]
  · exact .read i p f ha hi
  · exact .answered i _

theorem modifyFieldCommand_effect (i : Instr) (f : Family) (pin : Nat) (v : Word) (s : State)
    (ha : f.access = .readWrite) (hi : Instr.ofWriteField f pin v = some i) :
    Effect s i (s.modifyFieldCommand f pin v) := by
  unfold State.modifyFieldCommand
  rcases withPin_cases s pin _ with ⟨p, rfl, h⟩ | ⟨-, h⟩ <;> rw [h]
  · exact .modified i p f v ha hi
  · exact .answered i _

theorem strobeFieldCommand_effect (i : Instr) (f : Family) (pin : Nat) (v : Word) (s : State)
    (ha : f.access = .strobe) (hi : Instr.ofWriteField f pin v = some i) :
    Effect s i (s.strobeFieldCommand f pin v) := by
  unfold State.strobeFieldCommand
  rcases withPin_cases s pin _ with ⟨p, rfl, h⟩ | ⟨-, h⟩ <;> rw [h]
  · exact .strobed i p f v ha hi
  · exact .answered i _

theorem request_effect (pin : Nat) (s : State) :
    ∃ t, execRequest pin s = .next t ∧ Effect s (.request pin) t := by
  refine ⟨_, rfl, ?_⟩
  rcases withPin_cases s pin _ with ⟨p, rfl, h⟩ | ⟨-, h⟩ <;> rw [h]
  · split
    · exact .answered _ _
    · split
      · exact .answered _ _
      · exact .created p ‹_›
  · exact .answered _ _

theorem configureFunction_effect (pin : Nat) (fn : Fn) (s : State) :
    ∃ t, execConfigureFunction pin fn s = .next t ∧ Effect s (.configureFunction pin fn) t := by
  refine ⟨_, rfl, ?_⟩
  rcases withReady_cases s pin _ with ⟨p, rfl, hl, h⟩ | ⟨st, h⟩ <;> rw [h]
  · exact .configured p fn hl
  · exact .answered _ _

theorem writeLevel_effect (pin : Nat) (v : Word) (s : State) :
    ∃ t, execWriteLevel pin v s = .next t ∧ Effect s (.writeLevel pin v) t := by
  refine ⟨_, rfl, ?_⟩
  rcases withReady_cases s pin _ with ⟨p, rfl, hl, h⟩ | ⟨st, h⟩ <;> rw [h]
  · split
    · exact .answered _ _
    · split
      · exact .levelWritten p v .set (.inl rfl) hl
      · exact .levelWritten p v .clear (.inr rfl) hl
  · exact .answered _ _

theorem readLevel_effect (pin : Nat) (s : State) :
    ∃ t, execReadLevel pin s = .next t ∧ Effect s (.readLevel pin) t := by
  refine ⟨_, rfl, ?_⟩
  rcases withReady_cases s pin _ with ⟨p, rfl, hl, h⟩ | ⟨st, h⟩ <;> rw [h]
  · exact .levelRead p hl
  · exact .answered _ _

theorem release_effect (pin : Nat) (s : State) :
    ∃ t, execRelease pin s = .next t ∧ Effect s (.release pin) t := by
  refine ⟨_, rfl, ?_⟩
  rcases withReady_cases s pin _ with ⟨p, rfl, hl, h⟩ | ⟨st, h⟩ <;> rw [h]
  · exact .ended p hl
  · exact .answered _ _

/-- Every command answers a next state, by one of the effects. -/
theorem exec_effect (i : Instr) (s : State) : ∃ t, exec i s = .next t ∧ Effect s i t := by
  cases i with
  | resolveFunctionSelect pin => exact ⟨_, rfl, resolveCommand_effect _ _ _ _⟩
  | resolveSet pin => exact ⟨_, rfl, resolveCommand_effect _ _ _ _⟩
  | resolveClear pin => exact ⟨_, rfl, resolveCommand_effect _ _ _ _⟩
  | resolveLevel pin => exact ⟨_, rfl, resolveCommand_effect _ _ _ _⟩
  | resolveEventStatus pin => exact ⟨_, rfl, resolveCommand_effect _ _ _ _⟩
  | resolveRisingEdge pin => exact ⟨_, rfl, resolveCommand_effect _ _ _ _⟩
  | resolveFallingEdge pin => exact ⟨_, rfl, resolveCommand_effect _ _ _ _⟩
  | resolveHighLevel pin => exact ⟨_, rfl, resolveCommand_effect _ _ _ _⟩
  | resolveLowLevel pin => exact ⟨_, rfl, resolveCommand_effect _ _ _ _⟩
  | resolveAsyncRising pin => exact ⟨_, rfl, resolveCommand_effect _ _ _ _⟩
  | resolveAsyncFalling pin => exact ⟨_, rfl, resolveCommand_effect _ _ _ _⟩
  | resolvePullConfig pin => exact ⟨_, rfl, resolveCommand_effect _ _ _ _⟩
  | readFieldFunctionSelect pin => exact ⟨_, rfl, readFieldCommand_effect _ _ _ _ rfl⟩
  | readFieldLevel pin => exact ⟨_, rfl, readFieldCommand_effect _ _ _ _ rfl⟩
  | readFieldEventStatus pin => exact ⟨_, rfl, readFieldCommand_effect _ _ _ _ rfl⟩
  | readFieldRisingEdge pin => exact ⟨_, rfl, readFieldCommand_effect _ _ _ _ rfl⟩
  | readFieldFallingEdge pin => exact ⟨_, rfl, readFieldCommand_effect _ _ _ _ rfl⟩
  | readFieldHighLevel pin => exact ⟨_, rfl, readFieldCommand_effect _ _ _ _ rfl⟩
  | readFieldLowLevel pin => exact ⟨_, rfl, readFieldCommand_effect _ _ _ _ rfl⟩
  | readFieldAsyncRising pin => exact ⟨_, rfl, readFieldCommand_effect _ _ _ _ rfl⟩
  | readFieldAsyncFalling pin => exact ⟨_, rfl, readFieldCommand_effect _ _ _ _ rfl⟩
  | readFieldPullConfig pin => exact ⟨_, rfl, readFieldCommand_effect _ _ _ _ rfl⟩
  | writeFieldFunctionSelect pin v => exact ⟨_, rfl, modifyFieldCommand_effect _ _ _ _ _ rfl rfl⟩
  | writeFieldSet pin v => exact ⟨_, rfl, strobeFieldCommand_effect _ _ _ _ _ rfl rfl⟩
  | writeFieldClear pin v => exact ⟨_, rfl, strobeFieldCommand_effect _ _ _ _ _ rfl rfl⟩
  | writeFieldRisingEdge pin v => exact ⟨_, rfl, modifyFieldCommand_effect _ _ _ _ _ rfl rfl⟩
  | writeFieldFallingEdge pin v => exact ⟨_, rfl, modifyFieldCommand_effect _ _ _ _ _ rfl rfl⟩
  | writeFieldHighLevel pin v => exact ⟨_, rfl, modifyFieldCommand_effect _ _ _ _ _ rfl rfl⟩
  | writeFieldLowLevel pin v => exact ⟨_, rfl, modifyFieldCommand_effect _ _ _ _ _ rfl rfl⟩
  | writeFieldAsyncRising pin v => exact ⟨_, rfl, modifyFieldCommand_effect _ _ _ _ _ rfl rfl⟩
  | writeFieldAsyncFalling pin v => exact ⟨_, rfl, modifyFieldCommand_effect _ _ _ _ _ rfl rfl⟩
  | writeFieldPullConfig pin v => exact ⟨_, rfl, modifyFieldCommand_effect _ _ _ _ _ rfl rfl⟩
  | request pin => exact request_effect pin s
  | configureFunction pin fn => exact configureFunction_effect pin fn s
  | writeLevel pin v => exact writeLevel_effect pin v s
  | readLevel pin => exact readLevel_effect pin s
  | release pin => exact release_effect pin s

/-- The inversion: what is known of the next state a command answers. -/
theorem effect_of_exec (i : Instr) (s t : State) (h : exec i s = .next t) : Effect s i t := by
  obtain ⟨u, hu, he⟩ := exec_effect i s
  rw [h] at hu
  cases hu
  exact he

/-! ### One command of each family, in the terms of its family -/

/-- RESOLVE's meaning is one operation over the family. -/
theorem exec_ofResolve (f : Family) (pin : Nat) (s : State) :
    exec (Instr.ofResolve f pin) s = .next (s.resolveCommand f pin) := by
  cases f <;> rfl

theorem exec_ofReadField (f : Family) (pin : Nat) (i : Instr) (s : State) (hi : Instr.ofReadField f pin = some i) :
    exec i s = .next (s.readFieldCommand f pin) := by
  cases f <;> cases hi <;> rfl

theorem exec_ofWriteField (f : Family) (pin : Nat) (v : Word) (i : Instr) (s : State)
    (hi : Instr.ofWriteField f pin v = some i) :
    (f.access = .readWrite ∧ exec i s = .next (s.modifyFieldCommand f pin v)) ∨
      (f.access = .strobe ∧ exec i s = .next (s.strobeFieldCommand f pin v)) := by
  cases f <;> cases hi <;> first | exact .inl ⟨rfl, rfl⟩ | exact .inr ⟨rfl, rfl⟩

end Sys2Proof.Machine
end

