-- ==== Sys2Proof/Laws/Access.lean ====
section
/-!
SUPPORT. Whole accesses that nothing disturbs: one read, a read-modify-write, a strobe, WRITE_LEVEL's check and write;
what each leaves of the state, in one record.
-/

namespace Sys2Proof.Machine

/-! ### Fields -/

/-- READ_FIELD's formula (R141): the masking by `read_mask` never changes the result. -/
theorem extract_eq (ps : Params) (p : PinIndex) (f : Family) (w : Word) :
    (resolve ps p f).extract f.width w = (w >>> (resolve ps p f).shift) &&& unshiftedMask f.width := by
  refine BitVec.eq_of_getLsbD_eq fun n _ => ?_
  rw [extract_bit, BitVec.getLsbD_and, BitVec.getLsbD_ushiftRight, unshiftedMask_bit, Bool.and_comm, resolve_shift]

/-- The write half's formula (R146), with the masks spelled out. -/
theorem merge_eq (a : Resolved) (width : Nat) (current value : Word) :
    a.merge width current value =
      (current &&& (~~~(unshiftedMask width <<< a.shift) &&& a.writeMask)) |||
        ((value &&& unshiftedMask width) <<< a.shift) := rfl

/-- A word without reserved bits is its valid bits. -/
theorem and_mask_of_reserved (v m : Word) (h : v &&& ~~~m = 0) : v &&& m = v := by
  refine BitVec.eq_of_getLsbD_eq fun n hn => ?_
  have hb := congrArg (fun w : Word => w.getLsbD n) h
  simpa [hn] using hb

theorem isOutput_iff (s : State) (p : PinIndex) : s.isOutput p = true ↔ s.fieldValue .functionSelect p = 1 := by
  simp [State.isOutput, State.functionCode, State.fieldValue, Family.width]

theorem levelBit_eq (s : State) (p : PinIndex) :
    s.levelBit p = if s.fieldValue .functionSelect p = 1 then s.olat[p] else s.pad[p] := by
  simp only [State.levelBit, isOutput_iff]

/-- The live function check reads the stored field (R175). -/
theorem check_reads_field (s : State) (h : s.params.valid = true) (p : PinIndex) :
    (resolve s.params p .functionSelect).extract 3 (s.memRead (resolve s.params p .functionSelect).off) =
      s.fieldValue .functionSelect p :=
  extract_memRead_readWrite s h p .functionSelect rfl

/-- After a read-modify-write of one field, that field is the value's low bits, and every other pin's and family's field
is what it was (R149, R151). -/
theorem fieldValue_merge (s t : State) (hv : s.params.valid = true) (hp : t.params = s.params) (p : PinIndex) (f : Family)
    (v : Word)
    (hc : t.csr = Memory.write s.csr (resolve s.params p f).off
      ((resolve s.params p f).merge f.width (Memory.read s.csr (resolve s.params p f).off) v)) :
    t.fieldValue f p = v &&& unshiftedMask f.width ∧
      ∀ g q, (g ≠ f ∨ q ≠ p) → t.fieldValue g q = s.fieldValue g q := by
  constructor
  · simp only [State.fieldValue, hp, hc, Memory.read_write, if_true, extract_merge]
  · intro g q hne
    simp only [State.fieldValue, hp, hc, Memory.read_write]
    split
    · rename_i ho
      have hw := off_injective s.params hv (RegWord.ofPin q g) (RegWord.ofPin p f) (ofPin_mem q g) (ofPin_mem p f) ho
      simp only [RegWord.ofPin, RegWord.mk.injEq] at hw
      obtain ⟨rfl, hw⟩ := hw
      rw [extract_merge_other _ _ _ _ _ _ (by tauto) hw.symm, ← ho]
    · rfl

/-! ### The line checks -/

theorem withReady_of_ready (s : State) (pin : Nat) (h : pin < 58) (hr : (s.line ⟨pin, h⟩).state = .ready)
    (k : PinIndex → State) : s.withReady pin k = k ⟨pin, h⟩ := by
  simp only [State.withReady, withPin_of_lt s pin h, hr, if_true]

theorem withReady_of_not_ready (s : State) (pin : Nat) (h : pin < 58) (hr : (s.line ⟨pin, h⟩).state ≠ .ready)
    (k : PinIndex → State) : s.withReady pin k = s.raise .nullState := by
  simp only [State.withReady, withPin_of_lt s pin h, hr, if_false]

/-- A `Ready` line's cached address is the resolver's (R127). -/
theorem lineAddr_of_ready (s : State) (hL : LinesResolved s) (p : PinIndex) (hr : (s.line p).state = .ready)
    (f : Family) : s.lineAddr p f = resolve s.params p f := by
  have h := hL p
  rw [if_pos hr] at h
  exact lineAddr_eq s p f (.inl h)

/-- WRITE_LEVEL of 0 or 1 on a `Ready` line goes on to its function check (R175). -/
theorem writeLevel_enters (pin : Nat) (h : pin < 58) (v : Word) (s : State) (hL : LinesResolved s)
    (hr : (s.line ⟨pin, h⟩).state = .ready) (h01 : v = 0 ∨ v = 1) :
    exec (.writeLevel pin v) s =
      .next (s.proceed (.checkFn (resolve s.params ⟨pin, h⟩ .functionSelect)
        (resolve s.params ⟨pin, h⟩ (if v = 1 then .set else .clear)))) := by
  simp only [exec, execWriteLevel, withReady_of_ready s pin h hr]
  rw [if_neg (by rcases h01 with rfl | rfl <;> decide)]
  rcases h01 with rfl | rfl <;> simp [lineAddr_of_ready s hL _ hr]

theorem strobeData_one (a : Resolved) : a.strobeData 1 = (1 : Word) <<< a.shift := by
  rw [Resolved.strobeData, show (1 : Word) &&& 1 = 1 from rfl]

/-! ### One transaction -/

theorem respond_busRead (s : State) (off : Nat) (r : Response) :
    (s.busRead off).respond r =
      { s with
        ports := s.ports.modify s.active (Port.answer r)
        bus := s.bus ++ [{ kind := .read, off := off, data := s.memRead off }]
        supply := s.afterDraw.supply
        drawn := s.afterDraw.drawn } := rfl

theorem memRead_readMask (s : State) (h : s.params.valid = true) (p : PinIndex) (f : Family)
    (ha : f.access = .readWrite) :
    s.memRead (resolve s.params p f).off &&& (resolve s.params p f).readMask =
      Memory.read s.csr (resolve s.params p f).off &&& (resolve s.params p f).readMask := by
  have hm := memRead_valid s h _ (ofPin_mem p f) (by simp [ha])
  rwa [shown_readWrite s p f ha] at hm

/-- The block's write of a read-write word that sets no reserved bit. -/
theorem busWrite_readWrite (s : State) (h : s.params.valid = true) (p : PinIndex) (f : Family)
    (ha : f.access = .readWrite) (v : Word) (hr : v &&& ~~~(RegWord.ofPin p f).mask = 0) :
    s.busWrite (resolve s.params p f).off v =
      { s with
        csr := Memory.write s.csr (resolve s.params p f).off v
        bus := s.bus ++ [{ kind := .write, off := (resolve s.params p f).off, data := v }] } := by
  unfold State.busWrite
  rw [resolve_off, memWrite_readWrite s h _ (ofPin_mem p f) ha, and_mask_of_reserved _ _ hr]
  rfl

/-- The block's write of a strobe word. -/
theorem busWrite_strobe (s : State) (h : s.params.valid = true) (p : PinIndex) (level : Bool) (v : Word) :
    s.busWrite (resolve s.params p (if level then .set else .clear)).off v =
      { s with
        olat := s.strobed (wordIndexOf p (if level then .set else .clear))
          (v &&& (RegWord.ofPin p (if level then .set else .clear)).mask) level
        bus := s.bus ++
          [{ kind := .write, off := (resolve s.params p (if level then .set else .clear)).off, data := v }]
        supply := s.afterDraw.supply
        drawn := s.afterDraw.drawn } := by
  unfold State.busWrite
  cases level
  · simp only [Bool.false_eq_true, if_false]; rw [memWrite_clear s h]; rfl
  · simp only [if_true]; rw [memWrite_set s h]; rfl

/-- Taking a free lock and giving it back leaves the locks as they were. -/
theorem locks_restored (s : State) (off : Nat) (h : s.lockFree off = true) :
    Sparse.drop off (Sparse.put off s.active s.locks) = s.locks := by
  rw [Sparse.drop_put]
  exact Sparse.drop_of_find_none _ _ (by simpa [State.lockFree] using h)

/-! ### Whole commands -/

theorem inflight_of_accepted (s : State) (h : s.accepted) : ∃ f, s.inflight = some f := by
  obtain ⟨f, hf, -⟩ := Option.map_eq_some_iff.1 h
  exact ⟨f, hf⟩

/-- A read-modify-write that nothing disturbs, its lock free (R146). -/
theorem rmw_undisturbed (s : State) (hv : s.params.valid = true) (p : PinIndex) (f : Family)
    (ha : f.access = .readWrite) (v : Word) (note : Option (PinIndex × Fn)) (hu : s.undisturbed)
    (hl : s.lockFree (resolve s.params p f).off = true) :
    s.proceed (.rmwAcquire { addr := resolve s.params p f, width := f.width, value := v, note := note }) =
      (State.noteFn
        { s with
          csr := Memory.write s.csr (resolve s.params p f).off
            ((resolve s.params p f).merge f.width (Memory.read s.csr (resolve s.params p f).off) v)
          bus := s.bus ++
            [{ kind := .read, off := (resolve s.params p f).off, data := s.memRead (resolve s.params p f).off },
             { kind := .write, off := (resolve s.params p f).off
               data := (resolve s.params p f).merge f.width (Memory.read s.csr (resolve s.params p f).off) v }]
          supply := s.afterDraw.supply
          drawn := s.afterDraw.drawn } note).respond (Response.bare .ok) := by
  obtain ⟨fl, hfl⟩ := inflight_of_accepted s hu.1
  have hm : (resolve s.params p f).merge f.width
      (s.memRead (resolve s.params p f).off &&& (resolve s.params p f).writeMask) v =
        (resolve s.params p f).merge f.width (Memory.read s.csr (resolve s.params p f).off) v := by
    have h1 := memRead_readMask s hv p f ha
    rw [show (resolve s.params p f).readMask = (resolve s.params p f).writeMask from rfl] at h1
    rw [h1, resolve_writeMask, merge_masked]
  have hb := busWrite_readWrite ((s.acquire (resolve s.params p f).off).busRead (resolve s.params p f).off) hv p f ha _
    (merge_reserved s.params p f (Memory.read s.csr (resolve s.params p f).off) v)
  have hk := locks_restored s _ hl
  rw [proceed_rmw s fl hfl _ hl hu.2]
  simp only [hm]
  generalize hnew : (resolve s.params p f).merge f.width (Memory.read s.csr (resolve s.params p f).off) v = new at *
  refine congrArg (fun u => (State.noteFn u note).respond (Response.bare .ok)) ?_
  have hp : ((s.acquire (resolve s.params p f).off).busRead (resolve s.params p f).off).params = s.params := rfl
  rw [hp] at hb
  rw [hb]
  ext1 <;> simp [hk]

/-- A strobe that nothing disturbs, its lock free (R147). -/
theorem strobe_undisturbed (s : State) (hv : s.params.valid = true) (p : PinIndex) (level : Bool) (v : Word)
    (hu : s.undisturbed) (hl : s.lockFree (resolve s.params p (if level then .set else .clear)).off = true) :
    s.proceed (.strobeAcquire (resolve s.params p (if level then .set else .clear)) v) =
      State.respond
        { s with
          olat := s.strobed (wordIndexOf p (if level then .set else .clear))
            (v &&& (RegWord.ofPin p (if level then .set else .clear)).mask) level
          bus := s.bus ++
            [{ kind := .write, off := (resolve s.params p (if level then .set else .clear)).off, data := v }]
          supply := s.afterDraw.supply
          drawn := s.afterDraw.drawn } (Response.bare .ok) := by
  obtain ⟨fl, hfl⟩ := inflight_of_accepted s hu.1
  have ht : 2 ≤ s.turn := by have := hu.2; simp only [wholeCommand] at this; omega
  have hk := locks_restored s _ hl
  rw [proceed_strobe s fl hfl _ _ hl ht]
  refine congrArg (fun u => State.respond u (Response.bare .ok)) ?_
  have hb := busWrite_strobe (s.acquire (resolve s.params p (if level then .set else .clear)).off) hv p level v
  rw [show (s.acquire (resolve s.params p (if level then .set else .clear)).off).params = s.params from rfl] at hb
  rw [hb]
  ext1 <;> simp [hk]; rfl

end Sys2Proof.Machine
end

