-- ==== Sys2Proof/Laws/Decode.lean ====
section
/-!
SUPPORT. The fields of a command word, the code tables, and everything the decoder can answer.
-/

namespace Sys2Proof

/-! ### The code tables -/

theorem Op.ofCode_eq_some (n : Nat) (op : Op) : Op.ofCode n = some op ↔ n = op.code := by
  constructor
  · unfold Op.ofCode; split <;> rintro h <;> cases h <;> rfl
  · rintro rfl; cases op <;> rfl

theorem Op.ofCode_eq_none (n : Nat) :
    Op.ofCode n = none ↔ n ∉ [0x01, 0x02, 0x03, 0x10, 0x11, 0x12, 0x13, 0x14] := by
  unfold Op.ofCode; split <;> simp_all

theorem Family.ofCode_eq_some (n : Nat) (f : Family) : Family.ofCode n = some f ↔ n = f.code := by
  constructor
  · unfold Family.ofCode; split <;> rintro h <;> cases h <;> rfl
  · rintro rfl; cases f <;> rfl

theorem Family.ofCode_eq_none (n : Nat) : Family.ofCode n = none ↔ 12 ≤ n := by
  unfold Family.ofCode; split <;> simp_all
  omega

theorem Fn.code_ofCode (n : Nat) (h : n < 8) : (Fn.ofCode n).code = n := by
  revert n; decide

@[simp] theorem Fn.ofCode_code (f : Fn) : Fn.ofCode f.code = f := by
  cases f <;> rfl

theorem Op.code_lt (op : Op) : op.code < 256 := by cases op <;> decide

theorem Family.code_lt (f : Family) : f.code < 16 := by cases f <;> decide

theorem Fn.code_lt (f : Fn) : f.code < 8 := by cases f <;> decide

/-! ### The fields of a word -/

theorem toNat_commandWord (op fam fn pin : Nat) (ho : op < 256) (hf : fam < 16) (hn : fn < 8) (hp : pin < 65536) :
    (commandWord op fam fn pin).toNat = op * 2 ^ 24 + fam * 2 ^ 20 + fn * 2 ^ 16 + pin := by
  simp only [commandWord, BitVec.toNat_ofNat]; omega

/-- The fields of a word made of fields (R91). -/
theorem fields_commandWord (op fam fn pin : Nat) (ho : op < 256) (hf : fam < 16) (hn : fn < 8) (hp : pin < 65536) :
    opField (commandWord op fam fn pin) = op ∧ famField (commandWord op fam fn pin) = fam ∧
      zeroField (commandWord op fam fn pin) = 0 ∧ fnField (commandWord op fam fn pin) = fn ∧
      pinField (commandWord op fam fn pin) = pin := by
  simp only [opField, famField, zeroField, fnField, pinField, toNat_commandWord op fam fn pin ho hf hn hp]
  refine ⟨?_, ?_, ?_, ?_, ?_⟩ <;> omega

/-- A word whose must-be-zero bit is 0 is made of its fields (R91). -/
theorem commandWord_fields (cmd : Word) (hz : zeroField cmd = 0) :
    commandWord (opField cmd) (famField cmd) (fnField cmd) (pinField cmd) = cmd := by
  apply BitVec.eq_of_toNat_eq
  have := cmd.isLt
  rw [commandWord, BitVec.toNat_ofNat]
  simp only [opField, famField, zeroField, fnField, pinField] at *
  omega

theorem pinField_lt (cmd : Word) : pinField cmd < 65536 := Nat.mod_lt _ (by decide)

/-! ### The decoder -/

/-- What the decoder answers for a word whose opcode and family are listed and whose must-be-zero bit is 0. -/
theorem decode_of_fields (cmd : Word) (op : Op) (f : Family) (fn : Fn) (pin : Nat) (v : Word)
    (ho : opField cmd = op.code) (hf : famField cmd = f.code) (hz : zeroField cmd = 0) (hn : fnField cmd = fn.code)
    (hp : pinField cmd = pin) :
    decode cmd v =
      if op.format ≠ .core ∧ f ≠ .functionSelect then .error .reservedFamily
      else if op.format ≠ .lineFn ∧ fn.code ≠ 0 then .error .unusedFunction
      else
        match Instr.ofFields op f fn pin v with
        | none => .error .refusedPair
        | some i => .ok i := by
  have ho' : Op.ofCode op.code = some op := (Op.ofCode_eq_some _ _).2 rfl
  have hf' : Family.ofCode f.code = some f := (Family.ofCode_eq_some _ _).2 rfl
  unfold decode
  rw [ho, ho']
  simp only []
  rw [hz, if_neg (by decide), hf, hf']
  simp only []
  rw [hn, hp, Fn.ofCode_code]
  all_goals cases Instr.ofFields op f fn pin v <;> rfl

/-- The same for a word made of fields. -/
theorem decode_commandWord (op : Op) (f : Family) (fn : Fn) (pin : Nat) (v : Word) (hp : pin < 65536) :
    decode (commandWord op.code f.code fn.code pin) v =
      if op.format ≠ .core ∧ f ≠ .functionSelect then .error .reservedFamily
      else if op.format ≠ .lineFn ∧ fn.code ≠ 0 then .error .unusedFunction
      else
        match Instr.ofFields op f fn pin v with
        | none => .error .refusedPair
        | some i => .ok i := by
  have h := fields_commandWord op.code f.code fn.code pin op.code_lt f.code_lt fn.code_lt hp
  exact decode_of_fields _ op f fn pin v h.1 h.2.1 h.2.2.1 h.2.2.2.1 h.2.2.2.2

/-- The inversion: what is known of a word that decodes. -/
theorem decode_ok (cmd opnd : Word) (i : Instr) (h : decode cmd opnd = .ok i) :
    ∃ op f fn, cmd = commandWord op.code f.code fn.code (pinField cmd) ∧
      (op.format = .core ∨ f = .functionSelect) ∧ (op.format = .lineFn ∨ fn = .input) ∧
      Instr.ofFields op f fn (pinField cmd) opnd = some i := by
  unfold decode at h
  split at h
  · cases h
  · rename_i op hop
    split at h
    · cases h
    · rename_i hz
      split at h
      · cases h
      · rename_i f hf
        split at h
        · cases h
        · rename_i h1
          split at h
          · cases h
          · rename_i h2
            split at h
            · cases h
            · rename_i i' hi
              cases h
              have hz : zeroField cmd = 0 := by simpa using hz
              have hn : fnField cmd < 8 := Nat.mod_lt _ (by decide)
              refine ⟨op, f, Fn.ofCode (fnField cmd), ?_, by tauto, ?_, hi⟩
              · rw [← (Op.ofCode_eq_some _ _).1 hop, ← (Family.ofCode_eq_some _ _).1 hf, Fn.code_ofCode _ hn,
                  commandWord_fields cmd hz]
              · by_cases hx : op.format = .lineFn
                · exact .inl hx
                · have h0 : fnField cmd = 0 := by tauto
                  rw [h0]
                  exact .inr rfl

end Sys2Proof
end

