-- ==== Sys2Proof/Laws/Step.lean ====
section
/-!
SUPPORT. Everything a step can do, said once, and the induction over a port's turn.
-/

namespace Sys2Proof.Machine

/-! ### One step of a command in flight -/

/-- The position of the active port's command in flight. -/
abbrev State.at (s : State) (ph : Phase) : Prop := s.inflight.map InFlight.pos = some ph

/-- The ways in which one step of the active port's command in flight can change the state. -/
inductive Advance (s : State) : State → Prop
  /-- Nothing in flight, or a lock that another command holds. -/
  | stays : Advance s s
  /-- R146 step 1. -/
  | acquired (j : Rmw) (hp : s.at (.rmwAcquire j)) (hl : s.lockFree j.addr.off = true) :
      Advance s ((s.acquire j.addr.off).goto (.rmwRead j))
  /-- R146 step 2. -/
  | wordRead (j : Rmw) (hp : s.at (.rmwRead j)) :
      Advance s ((s.busRead j.addr.off).goto (.rmwWrite j (s.memRead j.addr.off &&& j.addr.writeMask)))
  /-- R146 step 3. -/
  | wordWritten (j : Rmw) (current : Word) (hp : s.at (.rmwWrite j current)) :
      Advance s
        ((((s.busWrite j.addr.off (j.addr.merge j.width current j.value)).unlock j.addr.off).noteFn j.note).respond
          (Response.bare .ok))
  /-- R147 step 1. -/
  | strobeAcquired (a : Resolved) (data : Word) (hp : s.at (.strobeAcquire a data)) (hl : s.lockFree a.off = true) :
      Advance s ((s.acquire a.off).goto (.strobeWrite a data))
  /-- R147 step 2. -/
  | strobeWritten (a : Resolved) (data : Word) (hp : s.at (.strobeWrite a data)) :
      Advance s (((s.busWrite a.off data).unlock a.off).respond (Response.bare .ok))
  /-- R175 step 3. -/
  | levelDriven (a : Resolved) (data : Word) (hp : s.at (.driveLevel a data)) (hl : s.lockFree a.off = true) :
      Advance s ((s.busWrite a.off data).respond (Response.bare .ok))
  /-- R175 step 2, the function is OUTPUT. -/
  | outputFound (fsel target : Resolved) (hp : s.at (.checkFn fsel target))
      (hf : fsel.extract 3 (s.memRead fsel.off) = 1) :
      Advance s ((s.busRead fsel.off).goto (.driveLevel target (target.strobeData 1)))
  /-- R175 step 2, it is not. -/
  | misconfigured (fsel target : Resolved) (hp : s.at (.checkFn fsel target))
      (hf : fsel.extract 3 (s.memRead fsel.off) ≠ 1) :
      Advance s ((s.busRead fsel.off).raise .pinMisconfigured)
  /-- R176 step 2. -/
  | levelRead (a : Resolved) (hp : s.at (.readLevel a)) :
      Advance s ((s.busRead a.off).respond (Response.value (a.extract 1 (s.memRead a.off))))

/-- Everything one step of a command in flight can do. -/
theorem advance_cases (s : State) : Advance s s.advance := by
  unfold State.advance
  split
  · exact .stays
  · rename_i f hf
    have hp : s.at f.pos := by simp [hf]
    generalize f.pos = ph at hp
    unfold State.advanceFrom
    split
    · exact .stays
    · split
      · exact .acquired _ hp ‹_›
      · exact .stays
    · exact .wordRead _ hp
    · exact .wordWritten _ _ hp
    · split
      · exact .strobeAcquired _ _ hp ‹_›
      · exact .stays
    · exact .strobeWritten _ _ hp
    · split
      · exact .levelDriven _ _ hp ‹_›
      · exact .stays
    · split
      · exact .outputFound _ _ hp ‹_›
      · exact .misconfigured _ _ hp ‹_›
    · exact .levelRead _ hp

/-! ### A turn -/

/-- What every single step of a command keeps, a turn of any length keeps. -/
theorem run_keeps (P : State → Prop) (h : ∀ s, P s → P s.advance) (s : State) (hs : P s) (n : Nat) : P (s.run n) := by
  induction n generalizing s with
  | zero => exact hs
  | succ n ih => exact ih _ (h s hs)

/-- What setting a position and every single step keep, a command's first steps keep. -/
theorem proceed_keeps (P : State → Prop) (h : ∀ s, P s → P s.advance) (s : State) (ph : Phase) (hs : P (s.goto ph)) :
    P (s.proceed ph) :=
  run_keeps P h _ hs _

/-- A port with nothing in flight, or with a step that a lock stops, stays as it is however long its turn. -/
theorem run_fixed (s : State) (h : s.advance = s) (n : Nat) : s.run n = s := by
  induction n with
  | zero => rfl
  | succ n ih => rw [State.run, h, ih]

/-! ### The inversion of `portTurn` and `step` -/

/-- Everything a port's turn can do. -/
theorem portTurn_cases (s t : State) (h : portTurn s = .next t) :
    (∃ f, s.inflight = some f ∧ t = s.run (s.turn + 1)) ∨
    (s.inflight = none ∧ s.presented = none ∧ t = s) ∨
    (∃ c why, s.inflight = none ∧ s.presented = some c ∧ decode c.1 c.2 = .error why ∧
      t = s.accept.raise .illegalCommand) ∨
    (∃ c i, s.inflight = none ∧ s.presented = some c ∧ decode c.1 c.2 = .ok i ∧ exec i s.accept = .next t ∧
      Effect s.accept i t) := by
  unfold portTurn at h
  split at h
  · cases h
    exact .inl ⟨_, ‹_›, rfl⟩
  · split at h
    · cases h
      exact .inr (.inl ⟨‹_›, ‹_›, rfl⟩)
    · split at h
      · exact .inr (.inr (.inr ⟨_, _, ‹_›, ‹_›, ‹_›, h, effect_of_exec _ _ _ h⟩))
      · cases h
        exact .inr (.inr (.inl ⟨_, _, ‹_›, ‹_›, ‹_›, rfl⟩))

/-- Everything a step can do. -/
theorem step_cases (s t : State) (h : step s = .next t) :
    (s.params.valid = true ∧ s.ports ≠ []) ∧
    ((s.nextMove = none ∧ t = s) ∨
     (∃ k more, s.nextMove = some (.port k more) ∧ portTurn (s.afterMove.giveTurn k more) = .next t) ∨
     (∃ m, s.nextMove = some m ∧ (∀ k more, m ≠ .port k more) ∧ t = s.afterMove.environment m)) := by
  unfold step at h
  split at h
  · rename_i hc
    refine ⟨by simpa using hc, ?_⟩
    split at h
    · cases h
      exact .inl ⟨‹_›, rfl⟩
    · exact .inr (.inl ⟨_, _, ‹_›, h⟩)
    · rename_i m hn hm
      cases h
      exact .inr (.inr ⟨m, hm, fun k more he => hn k more he, rfl⟩)
  · cases h

/-- A sound machine's step is its next move's. -/
theorem step_of_port (s : State) (hv : s.params.valid = true) (hp : s.ports ≠ []) (k more : Nat)
    (hm : s.nextMove = some (.port k more)) : step s = portTurn (s.afterMove.giveTurn k more) := by
  have h : (s.params.valid && !s.ports.isEmpty) = true := by simp [hv, hp]
  simp only [step, h, if_true, hm]

theorem step_of_environment (s : State) (hv : s.params.valid = true) (hp : s.ports ≠ []) (m : Move)
    (hm : s.nextMove = some m) (hn : ∀ k more, m ≠ .port k more) : step s = .next (s.afterMove.environment m) := by
  have h : (s.params.valid && !s.ports.isEmpty) = true := by simp [hv, hp]
  simp only [step, h, if_true, hm]

theorem portTurn_of_decoded (s : State) (q : Port) (c : Word × Word) (cs : List (Word × Word)) (i : Instr)
    (hq : s.ports[s.active]? = some q) (hi : q.inflight = none) (hp : q.pending = c :: cs)
    (hd : decode c.1 c.2 = .ok i) : portTurn s = exec i s.accept := by
  simp [portTurn, State.inflight, State.presented, hq, hi, hp, hd]

theorem portTurn_of_illegal (s : State) (q : Port) (c : Word × Word) (cs : List (Word × Word)) (why : Illegal)
    (hq : s.ports[s.active]? = some q) (hi : q.inflight = none) (hp : q.pending = c :: cs)
    (hd : decode c.1 c.2 = .error why) : portTurn s = .next (s.accept.raise .illegalCommand) := by
  simp [portTurn, State.inflight, State.presented, hq, hi, hp, hd]

/-- Two changes of a port that agree on the port it has are one change. -/
theorem modify_congr (l : List Port) (k : Nat) (q : Port) (g h : Port → Port) (hq : l[k]? = some q) (hg : g q = h q) :
    l.modify k g = l.modify k h := by
  refine List.ext_getElem? fun n => ?_
  rw [List.getElem?_modify, List.getElem?_modify]
  by_cases hk : k = n
  · subst hk; simp [hq, hg]
  · simp [hk]

end Sys2Proof.Machine
end

