-- ==== Sys2Proof/Laws/Invariant.lean ====
section
/-!
SUPPORT. The induction over a step, and what single steps, turns and other agents' moves keep: the canonical form, the
line table but for the noted functions, the other ports, and the temporaries of the command in flight.
-/

namespace Sys2Proof.Machine

/-- What a turn's start, every other agent's move, every run of steps, an illegal command and every command keep, a step
keeps. -/
theorem step_keeps (P : State → Prop)
    (turn : ∀ s k n, P s → P (s.afterMove.giveTurn k n))
    (environment : ∀ s m, P s → P (s.afterMove.environment m))
    (run : ∀ s n, P s → P (s.run n))
    (illegal : ∀ s, P s → s.inflight = none → P (s.accept.raise .illegalCommand))
    (command : ∀ s i t, P s → s.inflight = none → Effect s.accept i t → P t)
    (s t : State) (h : P s) (hs : step s = .next t) : P t := by
  obtain ⟨-, ⟨-, rfl⟩ | ⟨k, more, -, hp⟩ | ⟨m, -, -, rfl⟩⟩ := step_cases s t hs
  · exact h
  · rcases portTurn_cases _ _ hp with ⟨f, -, rfl⟩ | ⟨-, -, rfl⟩ | ⟨c, why, hi, -, -, rfl⟩ | ⟨c, i, hi, -, -, -, he⟩
    · exact run _ _ (turn s k more h)
    · exact turn s k more h
    · exact illegal _ (turn s k more h) hi
    · exact command _ i t (turn s k more h) hi he
  · exact environment s m h

/-! ### The canonical form -/

/-- Every operation on the register file keeps the canonical form: a write, by whoever issues it. -/
theorem memWrite_wf (s : State) (off : Nat) (v : Word) (h : Memory.wf s.csr = true) :
    Memory.wf (s.memWrite off v).csr = true := by
  unfold State.memWrite
  split
  · exact h
  · rename_i w _
    obtain ⟨f, k⟩ := w
    cases f <;> first | exact h | exact Memory.wf_write _ _ _ h

/-- So does every other agent's move. -/
theorem environment_wf (s : State) (m : Move) (h : Memory.wf s.csr = true) :
    Memory.wf (s.environment m).csr = true := by
  cases m with
  | extWrite off v =>
    simp only [State.environment]
    split
    · exact memWrite_wf _ _ _ h
    · exact h
  | extRead off => simp only [State.environment]; split <;> exact h
  | _ => exact h

theorem reset_wf : Memory.wf State.reset.csr = true := by decide

/-! ### The line table -/

/-- Two states agree on the lines but for the functions noted in them. -/
structure SameLines (s t : State) : Prop where
  state  : ∀ p, (t.line p).state = (s.line p).state
  addr   : ∀ p, (t.line p).addr = (s.line p).addr
  count  : t.refcount = s.refcount
  params : t.params = s.params

theorem SameLines.of_eq (s t : State) (hl : t.lines = s.lines) (hr : t.refcount = s.refcount)
    (hp : t.params = s.params) : SameLines s t :=
  ⟨fun p => by rw [line_congr _ _ hl], fun p => by rw [line_congr _ _ hl], hr, hp⟩

theorem SameLines.trans {s t u : State} (h : SameLines s t) (h' : SameLines t u) : SameLines s u :=
  ⟨fun p => (h'.state p).trans (h.state p), fun p => (h'.addr p).trans (h.addr p), h'.count.trans h.count,
    h'.params.trans h.params⟩

/-- A step of a command in flight changes of the line table at most one noted function. -/
theorem advance_sameLines (s : State) : SameLines s s.advance := by
  have h := advance_cases s
  generalize s.advance = t at h
  cases h with
  | wordWritten j c hp =>
    cases hn : j.note with
    | none => exact .of_eq _ _ (by simp [State.noteFn]) (by simp) (by simp)
    | some x =>
      have hl : ((((s.busWrite j.addr.off (j.addr.merge j.width c j.value)).unlock j.addr.off).noteFn
          (some x)).respond (Response.bare .ok)).lines =
            (s.setLine x.1 { s.line x.1 with lastFn := some x.2 }).lines := by
        simp [State.noteFn, State.line, State.setLine]
      refine ⟨fun p => ?_, fun p => ?_, by simp, by simp⟩ <;>
        (rw [line_congr _ _ hl, line_setLine]; split <;> [(subst_vars; rfl); rfl])
  | _ => exact .of_eq _ _ (by simp) (by simp) (by simp)

theorem run_sameLines (s : State) (n : Nat) : SameLines s (s.run n) :=
  run_keeps (SameLines s) (fun t h => h.trans (advance_sameLines t)) s (.of_eq s s rfl rfl rfl) n

theorem proceed_sameLines (s : State) (ph : Phase) : SameLines s (s.proceed ph) :=
  (SameLines.of_eq s (s.goto ph) rfl rfl rfl).trans (run_sameLines (s.goto ph) _)

/-- Only reset, of the other agents' moves, touches a line (R70). -/
theorem environment_sameLines (s : State) (m : Move) (hm : m ≠ .reset) : SameLines s (s.environment m) := by
  cases m with
  | reset => exact absurd rfl hm
  | extWrite off v => simp only [State.environment]; split <;> exact .of_eq _ _ (by simp) (by simp) (by simp)
  | extRead off => simp only [State.environment]; split <;> exact .of_eq _ _ rfl rfl rfl
  | _ => exact .of_eq _ _ rfl rfl rfl

/-! ### The other ports -/

/-- Two states agree on the parameters and on every port but the active one. -/
structure SameOthers (s t : State) : Prop where
  active : t.active = s.active
  params : t.params = s.params
  count  : t.ports.length = s.ports.length
  others : ∀ k, k ≠ s.active → t.ports[k]? = s.ports[k]?

theorem SameOthers.trans {s t u : State} (h : SameOthers s t) (h' : SameOthers t u) : SameOthers s u :=
  ⟨h'.active.trans h.active, h'.params.trans h.params, h'.count.trans h.count, fun k hk =>
    (h'.others k (by rw [h.active]; exact hk)).trans (h.others k hk)⟩

theorem SameOthers.of_modify (s t : State) (g : Port → Port) (ha : t.active = s.active) (hp : t.params = s.params)
    (h : t.ports = s.ports.modify s.active g) : SameOthers s t := by
  refine ⟨ha, hp, by simp [h], fun k hk => ?_⟩
  rw [h, List.getElem?_modify]
  simp [Ne.symm hk]

theorem advance_sameOthers (s : State) : SameOthers s s.advance := by
  have h := advance_cases s
  generalize s.advance = t at h
  cases h with
  | stays => exact ⟨rfl, rfl, rfl, fun _ _ => rfl⟩
  | acquired => exact .of_modify s _ _ (by simp) (by simp) rfl
  | wordRead => exact .of_modify s _ _ (by simp) (by simp) rfl
  | wordWritten => exact .of_modify s _ _ (by simp) (by simp) (by simp; rfl)
  | strobeAcquired => exact .of_modify s _ _ (by simp) (by simp) rfl
  | strobeWritten => exact .of_modify s _ _ (by simp) (by simp) (by simp; rfl)
  | levelDriven => exact .of_modify s _ _ (by simp) (by simp) (by simp; rfl)
  | outputFound => exact .of_modify s _ _ (by simp) (by simp) rfl
  | misconfigured => exact .of_modify s _ _ (by simp) (by simp) rfl
  | levelRead => exact .of_modify s _ _ (by simp) (by simp) rfl

theorem proceed_sameOthers (s : State) (ph : Phase) : SameOthers s (s.proceed ph) :=
  proceed_keeps (SameOthers s) (fun t h => h.trans (advance_sameOthers t)) s ph (.of_modify s _ _ rfl rfl rfl)

/-- A command changes no port but its own. -/
theorem effect_sameOthers (s : State) (i : Instr) (t : State) (h : Effect s i t) : SameOthers s t := by
  cases h with
  | answered => exact .of_modify s _ _ rfl rfl rfl
  | read => exact .of_modify s _ _ rfl rfl rfl
  | created => exact .of_modify s _ _ rfl rfl rfl
  | ended => exact .of_modify s _ _ rfl rfl rfl
  | _ => exact proceed_sameOthers s _

/-! ### The command that a lock stops -/

/-- A command whose next step takes a lock that is held has no enabled step, and a turn changes nothing (R68). -/
theorem waits_of_needs (u : State) (f : InFlight) (off : Nat) (hf : u.inflight = some f) (hn : f.pos.needs = some off)
    (hl : u.lockFree off = false) : u.enabled u.active = false ∧ ∀ n, u.run n = u := by
  constructor
  · obtain ⟨q, hq, hi⟩ := Option.bind_eq_some_iff.1 hf
    simp only [State.enabled, hq, hi, hn]
    exact hl
  · refine run_fixed _ ?_
    rw [advance_some u f hf]
    cases hp : f.pos <;> rw [hp] at hn <;> simp [Phase.needs] at hn <;> simp [State.advanceFrom, hn, hl]

/-- A command put at such a position waits there, whatever the other agents do. -/
theorem waitsFor_goto (s : State) (ph : Phase) (off : Nat) (hi : s.inflight ≠ none) (hn : ph.needs = some off) :
    WaitsFor (s.goto ph) off := by
  obtain ⟨f, hf⟩ := Option.ne_none_iff_exists'.1 hi
  have hg : (s.goto ph).inflight = some { f with pos := ph } := by simp [hf]
  exact ⟨by simp [hg], fun u hu hl => waits_of_needs u _ off (hu.trans hg) hn hl⟩

/-! ### The command in flight -/

/-- The temporaries of the active port's command are in order. -/
def ActiveOk (s : State) : Prop := ∀ f, s.inflight = some f → f.pos.ok s.params

theorem ActiveOk.at {s : State} (h : ActiveOk s) {ph : Phase} (hp : s.at ph) : ph.ok s.params := by
  obtain ⟨f, hf, rfl⟩ := Option.map_eq_some_iff.1 hp
  exact h f hf

theorem activeOk_goto (s : State) (ph : Phase) (h : ph.ok s.params) : ActiveOk (s.goto ph) := by
  intro f hf
  rw [inflight_goto] at hf
  obtain ⟨g, -, rfl⟩ := Option.map_eq_some_iff.1 hf
  exact h

theorem activeOk_of_none (s : State) (h : s.inflight = none) : ActiveOk s := by
  intro f hf
  rw [h] at hf
  cases hf

theorem masked_reserved (w m : Word) : (w &&& m) &&& ~~~m = 0 := by
  refine BitVec.eq_of_getLsbD_eq fun n hn => ?_
  simp only [BitVec.getLsbD_and, BitVec.getLsbD_not]
  cases m.getLsbD n <;> simp

theorem advance_activeOk (s : State) (h : ActiveOk s) : ActiveOk s.advance := by
  have hc := advance_cases s
  generalize s.advance = t at hc
  cases hc with
  | stays => exact h
  | acquired j hp hl => exact activeOk_goto _ _ (h.at (ph := .rmwAcquire j) hp)
  | wordRead j hp => exact activeOk_goto _ _ ⟨h.at (ph := .rmwRead j) hp, masked_reserved _ _⟩
  | strobeAcquired a d hp => exact activeOk_goto _ _ (h.at (ph := .strobeAcquire a d) hp)
  | outputFound a d hp =>
    obtain ⟨p, f, -, h2, h3⟩ := h.at hp
    exact activeOk_goto _ _ ⟨p, f, h2, h3, rfl⟩
  | _ => exact activeOk_of_none _ (by simp)

end Sys2Proof.Machine
end

