-- ==== Sys2Proof/Laws/PerInstr.lean ====
section
/-!
SUPPORT. Statements made per instruction: each command's encoding is of its own row of the opcode table.
-/

namespace Sys2Proof.Laws.MatchesRow

/-- The row's name in `spec/opcode_table.json`. -/
def mnemonic : Instr → String
  | .resolveFunctionSelect _ => "RESOLVE.FunctionSelect"
  | .resolveSet _ => "RESOLVE.Set"
  | .resolveClear _ => "RESOLVE.Clear"
  | .resolveLevel _ => "RESOLVE.Level"
  | .resolveEventStatus _ => "RESOLVE.EventStatus"
  | .resolveRisingEdge _ => "RESOLVE.RisingEdge"
  | .resolveFallingEdge _ => "RESOLVE.FallingEdge"
  | .resolveHighLevel _ => "RESOLVE.HighLevel"
  | .resolveLowLevel _ => "RESOLVE.LowLevel"
  | .resolveAsyncRising _ => "RESOLVE.AsyncRising"
  | .resolveAsyncFalling _ => "RESOLVE.AsyncFalling"
  | .resolvePullConfig _ => "RESOLVE.PullConfig"
  | .readFieldFunctionSelect _ => "READ_FIELD.FunctionSelect"
  | .readFieldLevel _ => "READ_FIELD.Level"
  | .readFieldEventStatus _ => "READ_FIELD.EventStatus"
  | .readFieldRisingEdge _ => "READ_FIELD.RisingEdge"
  | .readFieldFallingEdge _ => "READ_FIELD.FallingEdge"
  | .readFieldHighLevel _ => "READ_FIELD.HighLevel"
  | .readFieldLowLevel _ => "READ_FIELD.LowLevel"
  | .readFieldAsyncRising _ => "READ_FIELD.AsyncRising"
  | .readFieldAsyncFalling _ => "READ_FIELD.AsyncFalling"
  | .readFieldPullConfig _ => "READ_FIELD.PullConfig"
  | .writeFieldFunctionSelect _ _ => "WRITE_FIELD.FunctionSelect"
  | .writeFieldSet _ _ => "WRITE_FIELD.Set"
  | .writeFieldClear _ _ => "WRITE_FIELD.Clear"
  | .writeFieldRisingEdge _ _ => "WRITE_FIELD.RisingEdge"
  | .writeFieldFallingEdge _ _ => "WRITE_FIELD.FallingEdge"
  | .writeFieldHighLevel _ _ => "WRITE_FIELD.HighLevel"
  | .writeFieldLowLevel _ _ => "WRITE_FIELD.LowLevel"
  | .writeFieldAsyncRising _ _ => "WRITE_FIELD.AsyncRising"
  | .writeFieldAsyncFalling _ _ => "WRITE_FIELD.AsyncFalling"
  | .writeFieldPullConfig _ _ => "WRITE_FIELD.PullConfig"
  | .request _ => "REQUEST"
  | .configureFunction _ _ => "CONFIGURE_FUNCTION"
  | .writeLevel _ _ => "WRITE_LEVEL"
  | .readLevel _ => "READ_LEVEL"
  | .release _ => "RELEASE"

/-- A well-formed command's word is of the table's row of its name. -/
def Statement (i : Instr) : Prop :=
  i.wellFormed = true → ∃ r ∈ opcodeRows, r.mnemonic = mnemonic i ∧ r.holds (encode i).cmd = true

/-- Masking `k` low bits off a word leaves the bits above them. -/
theorem and_upper (k : Nat) (mask : Word) (hm : ∀ n : Fin 32, mask.getLsbD n.val = decide (k ≤ n.val)) (x low : Nat)
    (h : low < 2 ^ k) : BitVec.ofNat 32 (2 ^ k * x + low) &&& mask = BitVec.ofNat 32 (2 ^ k * x) := by
  refine BitVec.eq_of_getLsbD_eq fun n hn => ?_
  rw [BitVec.getLsbD_and, hm ⟨n, hn⟩, BitVec.getLsbD_ofNat, BitVec.getLsbD_ofNat, Nat.testBit_two_pow_mul_add x h,
    Nat.testBit_two_pow_mul]
  by_cases hk : k ≤ n
  · simp [hk, Nat.not_lt.mpr hk]
  · simp [hk]

/-- A word without a function operand is of the row whose bits are its upper half. -/
theorem row_holds (name : String) (bits : Word) (op fam pin : Nat) (h : pin < 65536)
    (hb : bits = BitVec.ofNat 32 (2 ^ 16 * (op * 256 + fam * 16))) :
    OpcodeRow.holds { mnemonic := name, bits := bits, mask := 0xFFFF0000 } (commandWord op fam 0 pin) = true := by
  have hc : commandWord op fam 0 pin = BitVec.ofNat 32 (2 ^ 16 * (op * 256 + fam * 16) + pin) := by
    unfold commandWord; congr 1; omega
  rw [OpcodeRow.holds, hc, beq_iff_eq, hb]
  exact and_upper 16 0xFFFF0000 (by decide) _ pin h

theorem resolveFunctionSelect (pin : Nat) : Statement (.resolveFunctionSelect pin) := fun h =>
  ⟨{ mnemonic := "RESOLVE.FunctionSelect", bits := 0x01000000, mask := 0xFFFF0000 }, by decide, rfl,
    row_holds _ _ _ _ pin (of_decide_eq_true h) rfl⟩

theorem resolveSet (pin : Nat) : Statement (.resolveSet pin) := fun h =>
  ⟨{ mnemonic := "RESOLVE.Set", bits := 0x01100000, mask := 0xFFFF0000 }, by decide, rfl,
    row_holds _ _ _ _ pin (of_decide_eq_true h) rfl⟩

theorem resolveClear (pin : Nat) : Statement (.resolveClear pin) := fun h =>
  ⟨{ mnemonic := "RESOLVE.Clear", bits := 0x01200000, mask := 0xFFFF0000 }, by decide, rfl,
    row_holds _ _ _ _ pin (of_decide_eq_true h) rfl⟩

theorem resolveLevel (pin : Nat) : Statement (.resolveLevel pin) := fun h =>
  ⟨{ mnemonic := "RESOLVE.Level", bits := 0x01300000, mask := 0xFFFF0000 }, by decide, rfl,
    row_holds _ _ _ _ pin (of_decide_eq_true h) rfl⟩

theorem resolveEventStatus (pin : Nat) : Statement (.resolveEventStatus pin) := fun h =>
  ⟨{ mnemonic := "RESOLVE.EventStatus", bits := 0x01400000, mask := 0xFFFF0000 }, by decide, rfl,
    row_holds _ _ _ _ pin (of_decide_eq_true h) rfl⟩

theorem resolveRisingEdge (pin : Nat) : Statement (.resolveRisingEdge pin) := fun h =>
  ⟨{ mnemonic := "RESOLVE.RisingEdge", bits := 0x01500000, mask := 0xFFFF0000 }, by decide, rfl,
    row_holds _ _ _ _ pin (of_decide_eq_true h) rfl⟩

theorem resolveFallingEdge (pin : Nat) : Statement (.resolveFallingEdge pin) := fun h =>
  ⟨{ mnemonic := "RESOLVE.FallingEdge", bits := 0x01600000, mask := 0xFFFF0000 }, by decide, rfl,
    row_holds _ _ _ _ pin (of_decide_eq_true h) rfl⟩

theorem resolveHighLevel (pin : Nat) : Statement (.resolveHighLevel pin) := fun h =>
  ⟨{ mnemonic := "RESOLVE.HighLevel", bits := 0x01700000, mask := 0xFFFF0000 }, by decide, rfl,
    row_holds _ _ _ _ pin (of_decide_eq_true h) rfl⟩

theorem resolveLowLevel (pin : Nat) : Statement (.resolveLowLevel pin) := fun h =>
  ⟨{ mnemonic := "RESOLVE.LowLevel", bits := 0x01800000, mask := 0xFFFF0000 }, by decide, rfl,
    row_holds _ _ _ _ pin (of_decide_eq_true h) rfl⟩

theorem resolveAsyncRising (pin : Nat) : Statement (.resolveAsyncRising pin) := fun h =>
  ⟨{ mnemonic := "RESOLVE.AsyncRising", bits := 0x01900000, mask := 0xFFFF0000 }, by decide, rfl,
    row_holds _ _ _ _ pin (of_decide_eq_true h) rfl⟩

theorem resolveAsyncFalling (pin : Nat) : Statement (.resolveAsyncFalling pin) := fun h =>
  ⟨{ mnemonic := "RESOLVE.AsyncFalling", bits := 0x01A00000, mask := 0xFFFF0000 }, by decide, rfl,
    row_holds _ _ _ _ pin (of_decide_eq_true h) rfl⟩

theorem resolvePullConfig (pin : Nat) : Statement (.resolvePullConfig pin) := fun h =>
  ⟨{ mnemonic := "RESOLVE.PullConfig", bits := 0x01B00000, mask := 0xFFFF0000 }, by decide, rfl,
    row_holds _ _ _ _ pin (of_decide_eq_true h) rfl⟩

theorem readFieldFunctionSelect (pin : Nat) : Statement (.readFieldFunctionSelect pin) := fun h =>
  ⟨{ mnemonic := "READ_FIELD.FunctionSelect", bits := 0x02000000, mask := 0xFFFF0000 }, by decide, rfl,
    row_holds _ _ _ _ pin (of_decide_eq_true h) rfl⟩

theorem readFieldLevel (pin : Nat) : Statement (.readFieldLevel pin) := fun h =>
  ⟨{ mnemonic := "READ_FIELD.Level", bits := 0x02300000, mask := 0xFFFF0000 }, by decide, rfl,
    row_holds _ _ _ _ pin (of_decide_eq_true h) rfl⟩

theorem readFieldEventStatus (pin : Nat) : Statement (.readFieldEventStatus pin) := fun h =>
  ⟨{ mnemonic := "READ_FIELD.EventStatus", bits := 0x02400000, mask := 0xFFFF0000 }, by decide, rfl,
    row_holds _ _ _ _ pin (of_decide_eq_true h) rfl⟩

theorem readFieldRisingEdge (pin : Nat) : Statement (.readFieldRisingEdge pin) := fun h =>
  ⟨{ mnemonic := "READ_FIELD.RisingEdge", bits := 0x02500000, mask := 0xFFFF0000 }, by decide, rfl,
    row_holds _ _ _ _ pin (of_decide_eq_true h) rfl⟩

theorem readFieldFallingEdge (pin : Nat) : Statement (.readFieldFallingEdge pin) := fun h =>
  ⟨{ mnemonic := "READ_FIELD.FallingEdge", bits := 0x02600000, mask := 0xFFFF0000 }, by decide, rfl,
    row_holds _ _ _ _ pin (of_decide_eq_true h) rfl⟩

theorem readFieldHighLevel (pin : Nat) : Statement (.readFieldHighLevel pin) := fun h =>
  ⟨{ mnemonic := "READ_FIELD.HighLevel", bits := 0x02700000, mask := 0xFFFF0000 }, by decide, rfl,
    row_holds _ _ _ _ pin (of_decide_eq_true h) rfl⟩

theorem readFieldLowLevel (pin : Nat) : Statement (.readFieldLowLevel pin) := fun h =>
  ⟨{ mnemonic := "READ_FIELD.LowLevel", bits := 0x02800000, mask := 0xFFFF0000 }, by decide, rfl,
    row_holds _ _ _ _ pin (of_decide_eq_true h) rfl⟩

theorem readFieldAsyncRising (pin : Nat) : Statement (.readFieldAsyncRising pin) := fun h =>
  ⟨{ mnemonic := "READ_FIELD.AsyncRising", bits := 0x02900000, mask := 0xFFFF0000 }, by decide, rfl,
    row_holds _ _ _ _ pin (of_decide_eq_true h) rfl⟩

theorem readFieldAsyncFalling (pin : Nat) : Statement (.readFieldAsyncFalling pin) := fun h =>
  ⟨{ mnemonic := "READ_FIELD.AsyncFalling", bits := 0x02A00000, mask := 0xFFFF0000 }, by decide, rfl,
    row_holds _ _ _ _ pin (of_decide_eq_true h) rfl⟩

theorem readFieldPullConfig (pin : Nat) : Statement (.readFieldPullConfig pin) := fun h =>
  ⟨{ mnemonic := "READ_FIELD.PullConfig", bits := 0x02B00000, mask := 0xFFFF0000 }, by decide, rfl,
    row_holds _ _ _ _ pin (of_decide_eq_true h) rfl⟩

theorem writeFieldFunctionSelect (pin : Nat) (value : Word) : Statement (.writeFieldFunctionSelect pin value) := fun h =>
  ⟨{ mnemonic := "WRITE_FIELD.FunctionSelect", bits := 0x03000000, mask := 0xFFFF0000 }, by decide, rfl,
    row_holds _ _ _ _ pin (of_decide_eq_true h) rfl⟩

theorem writeFieldSet (pin : Nat) (value : Word) : Statement (.writeFieldSet pin value) := fun h =>
  ⟨{ mnemonic := "WRITE_FIELD.Set", bits := 0x03100000, mask := 0xFFFF0000 }, by decide, rfl,
    row_holds _ _ _ _ pin (of_decide_eq_true h) rfl⟩

theorem writeFieldClear (pin : Nat) (value : Word) : Statement (.writeFieldClear pin value) := fun h =>
  ⟨{ mnemonic := "WRITE_FIELD.Clear", bits := 0x03200000, mask := 0xFFFF0000 }, by decide, rfl,
    row_holds _ _ _ _ pin (of_decide_eq_true h) rfl⟩

theorem writeFieldRisingEdge (pin : Nat) (value : Word) : Statement (.writeFieldRisingEdge pin value) := fun h =>
  ⟨{ mnemonic := "WRITE_FIELD.RisingEdge", bits := 0x03500000, mask := 0xFFFF0000 }, by decide, rfl,
    row_holds _ _ _ _ pin (of_decide_eq_true h) rfl⟩

theorem writeFieldFallingEdge (pin : Nat) (value : Word) : Statement (.writeFieldFallingEdge pin value) := fun h =>
  ⟨{ mnemonic := "WRITE_FIELD.FallingEdge", bits := 0x03600000, mask := 0xFFFF0000 }, by decide, rfl,
    row_holds _ _ _ _ pin (of_decide_eq_true h) rfl⟩

theorem writeFieldHighLevel (pin : Nat) (value : Word) : Statement (.writeFieldHighLevel pin value) := fun h =>
  ⟨{ mnemonic := "WRITE_FIELD.HighLevel", bits := 0x03700000, mask := 0xFFFF0000 }, by decide, rfl,
    row_holds _ _ _ _ pin (of_decide_eq_true h) rfl⟩

theorem writeFieldLowLevel (pin : Nat) (value : Word) : Statement (.writeFieldLowLevel pin value) := fun h =>
  ⟨{ mnemonic := "WRITE_FIELD.LowLevel", bits := 0x03800000, mask := 0xFFFF0000 }, by decide, rfl,
    row_holds _ _ _ _ pin (of_decide_eq_true h) rfl⟩

theorem writeFieldAsyncRising (pin : Nat) (value : Word) : Statement (.writeFieldAsyncRising pin value) := fun h =>
  ⟨{ mnemonic := "WRITE_FIELD.AsyncRising", bits := 0x03900000, mask := 0xFFFF0000 }, by decide, rfl,
    row_holds _ _ _ _ pin (of_decide_eq_true h) rfl⟩

theorem writeFieldAsyncFalling (pin : Nat) (value : Word) : Statement (.writeFieldAsyncFalling pin value) := fun h =>
  ⟨{ mnemonic := "WRITE_FIELD.AsyncFalling", bits := 0x03A00000, mask := 0xFFFF0000 }, by decide, rfl,
    row_holds _ _ _ _ pin (of_decide_eq_true h) rfl⟩

theorem writeFieldPullConfig (pin : Nat) (value : Word) : Statement (.writeFieldPullConfig pin value) := fun h =>
  ⟨{ mnemonic := "WRITE_FIELD.PullConfig", bits := 0x03B00000, mask := 0xFFFF0000 }, by decide, rfl,
    row_holds _ _ _ _ pin (of_decide_eq_true h) rfl⟩

theorem request (pin : Nat) : Statement (.request pin) := fun h =>
  ⟨{ mnemonic := "REQUEST", bits := 0x10000000, mask := 0xFFFF0000 }, by decide, rfl,
    row_holds _ _ _ _ pin (of_decide_eq_true h) rfl⟩

theorem configureFunction (pin : Nat) (fn : Fn) : Statement (.configureFunction pin fn) := by
  intro h
  have hp : pin < 65536 := of_decide_eq_true h
  have hf : fn.code < 8 := by cases fn <;> decide
  refine ⟨_, List.mem_append_right _ (List.mem_cons_of_mem _ List.mem_cons_self), rfl, ?_⟩
  have hc : (encode (.configureFunction pin fn)).cmd = BitVec.ofNat 32 (2 ^ 19 * 0x220 + (fn.code * 2 ^ 16 + pin)) := by
    simp only [encode, encodeLine, commandWord, Op.code]; congr 1; omega
  rw [OpcodeRow.holds, hc, beq_iff_eq]
  exact and_upper 19 0xFFF80000 (by decide) 0x220 _ (by omega)

theorem writeLevel (pin : Nat) (value : Word) : Statement (.writeLevel pin value) := fun h =>
  ⟨{ mnemonic := "WRITE_LEVEL", bits := 0x12000000, mask := 0xFFFF0000 }, by decide, rfl,
    row_holds _ _ _ _ pin (of_decide_eq_true h) rfl⟩

theorem readLevel (pin : Nat) : Statement (.readLevel pin) := fun h =>
  ⟨{ mnemonic := "READ_LEVEL", bits := 0x13000000, mask := 0xFFFF0000 }, by decide, rfl,
    row_holds _ _ _ _ pin (of_decide_eq_true h) rfl⟩

theorem release (pin : Nat) : Statement (.release pin) := fun h =>
  ⟨{ mnemonic := "RELEASE", bits := 0x14000000, mask := 0xFFFF0000 }, by decide, rfl,
    row_holds _ _ _ _ pin (of_decide_eq_true h) rfl⟩

end Sys2Proof.Laws.MatchesRow
end

