-- ==== Sys2Proof/Tests/Slice0.lean ====
section
/-!
SUPPORT. Tests: expected values are those of `spec/95_test_vectors.md` (the vector is named in each docstring) or of the
rule named. Then one witness for every obligation that has hypotheses.
-/

namespace Sys2Proof.Tests

open Sys2Proof Sys2Proof.Machine

/-! ### Small states and runs -/

/-- The machine after reset, each bus read to draw 1 in every bit that the rules leave open. -/
def base : State := { State.reset with supply := List.replicate 4 0xFFFFFFFF }

/-- The same, every open bit to be drawn 0. -/
def quiet : State := { State.reset with supply := List.replicate 4 0 }

/-- The pin's line is `Ready`. -/
def ready (pin : PinIndex) (s : State) : State :=
  { s with
    lines := s.lines.set pin { state := .ready, addr := some (resolveAll s.params pin), lastFn := none }
    refcount := s.refcount + 1 }

/-- The word at the offset holds a value. -/
def given (off : Nat) (v : Word) (s : State) : State := { s with csr := Memory.write s.csr off v }

/-- The next state, or `s` where there is none. -/
def after (s : State) (o : Host.Outcome State Fault Refusal) : State :=
  match o with
  | .next t => t
  | _ => s

/-- The reason of a refusal. -/
def refusal (o : Host.Outcome State Fault Refusal) : Option Refusal :=
  match o with
  | .refused r => some r
  | _ => none

/-- A command is presented to `s` and the next step is taken. -/
def ran (s : State) (cmd opnd : Word) : State := after s (step (s.presentFirst 0 cmd opnd))

/-- The responses' statuses and data, and the bus trace. -/
def seen (t : State) : List (Status × Word) × List (BusKind × Nat × Word) :=
  (t.ports.flatMap fun q => q.responses.map fun r => (r.status, r.rdata), t.bus.map fun x => (x.kind, x.off, x.data))

/-- The address part of the first response: word index, offset, shift, masks. -/
def address (t : State) : Option (Status × List Nat) :=
  (t.ports.head?.bind fun q => q.responses.head?).map fun r =>
    (r.status, [r.wordIndex.toNat, r.off.toNat, r.shift.toNat, r.wmask.toNat, r.rmask.toNat])

/-- Port 0 has accepted a command and has `turn` further steps. -/
def running (turn : Nat) (s : State) : State :=
  { s with
    ports := [{ Port.idle with inflight := some { cmd := 0, opnd := 0, pos := .start } }]
    active := 0
    turn := turn }

/-- Pin 17's line is `Ready` and its live function is OUTPUT. -/
def output17 : State := ready 17 (given 0x04 0x00200000 base)

/-- Port 0 is inside the read-modify-write of FSEL1: it holds the lock and has read the word. -/
def midway : State :=
  { ready 17 base with
    locks := [(0x04, 0)]
    ports := [{ Port.idle with
      inflight := some
        { cmd := 0x03000011, opnd := 1
          pos := .rmwWrite { addr := resolve Params.default 17 .functionSelect, width := 3, value := 1, note := none } 0 } }] }

/-- Port 0 is idle, has one command presented, and the schedule gives it one step. -/
def waiting (cmd opnd : Word) : State :=
  { base with sched := [.port 0 0], ports := [{ Port.idle with pending := [(cmd, opnd)] }] }

/-! ### Well-formedness -/

/-- R91: a pin that does not fit 16 bits is no command; the greatest that fits is. -/
theorem test_wellFormed : (Instr.request 65536).wellFormed = false ∧ (Instr.writeFieldSet 65536 1).wellFormed = false ∧
    (Instr.request 65535).wellFormed = true := by decide

/-! ### Decoding -/

/-- V-R2. -/
theorem test_decode_resolve :
    decode 0x01000039 0 = .ok (.resolveFunctionSelect 57) ∧
    decode 0x01100039 0 = .ok (.resolveSet 57) ∧
    decode 0x01200039 0 = .ok (.resolveClear 57) ∧
    decode 0x01300039 0 = .ok (.resolveLevel 57) ∧
    decode 0x01400039 0 = .ok (.resolveEventStatus 57) ∧
    decode 0x01500039 0 = .ok (.resolveRisingEdge 57) ∧
    decode 0x01600039 0 = .ok (.resolveFallingEdge 57) ∧
    decode 0x01700039 0 = .ok (.resolveHighLevel 57) ∧
    decode 0x01800039 0 = .ok (.resolveLowLevel 57) ∧
    decode 0x01900039 0 = .ok (.resolveAsyncRising 57) ∧
    decode 0x01A00039 0 = .ok (.resolveAsyncFalling 57) ∧
    decode 0x01B00039 0 = .ok (.resolvePullConfig 57) := by decide

/-- V-A1, R102 (`0x02000000 | fam<<20 | pin`). -/
theorem test_decode_readField :
    decode 0x02000011 0 = .ok (.readFieldFunctionSelect 17) ∧
    decode 0x02300011 0 = .ok (.readFieldLevel 17) ∧
    decode 0x02400011 0 = .ok (.readFieldEventStatus 17) ∧
    decode 0x02500011 0 = .ok (.readFieldRisingEdge 17) ∧
    decode 0x02600011 0 = .ok (.readFieldFallingEdge 17) ∧
    decode 0x02700011 0 = .ok (.readFieldHighLevel 17) ∧
    decode 0x02800011 0 = .ok (.readFieldLowLevel 17) ∧
    decode 0x02900011 0 = .ok (.readFieldAsyncRising 17) ∧
    decode 0x02A00011 0 = .ok (.readFieldAsyncFalling 17) ∧
    decode 0x02B00011 0 = .ok (.readFieldPullConfig 17) := by decide

/-- V-A2, V-A3, R102 (`0x03000000 | fam<<20 | pin`). -/
theorem test_decode_writeField :
    decode 0x03000011 0xFFFFFFF9 = .ok (.writeFieldFunctionSelect 17 0xFFFFFFF9) ∧
    decode 0x03100011 0xFFFFFFF9 = .ok (.writeFieldSet 17 0xFFFFFFF9) ∧
    decode 0x03200011 0xFFFFFFF9 = .ok (.writeFieldClear 17 0xFFFFFFF9) ∧
    decode 0x03500011 0xFFFFFFF9 = .ok (.writeFieldRisingEdge 17 0xFFFFFFF9) ∧
    decode 0x03600011 0xFFFFFFF9 = .ok (.writeFieldFallingEdge 17 0xFFFFFFF9) ∧
    decode 0x03700011 0xFFFFFFF9 = .ok (.writeFieldHighLevel 17 0xFFFFFFF9) ∧
    decode 0x03800011 0xFFFFFFF9 = .ok (.writeFieldLowLevel 17 0xFFFFFFF9) ∧
    decode 0x03900011 0xFFFFFFF9 = .ok (.writeFieldAsyncRising 17 0xFFFFFFF9) ∧
    decode 0x03A00011 0xFFFFFFF9 = .ok (.writeFieldAsyncFalling 17 0xFFFFFFF9) ∧
    decode 0x03B00011 0xFFFFFFF9 = .ok (.writeFieldPullConfig 17 0xFFFFFFF9) := by decide

/-- V-S3, V-L1, R102. -/
theorem test_decode_line :
    decode 0x10000011 0 = .ok (.request 17) ∧
    decode 0x11010011 0 = .ok (.configureFunction 17 .output) ∧
    decode 0x11070039 0 = .ok (.configureFunction 57 .alt3) ∧
    decode 0x12000011 2 = .ok (.writeLevel 17 2) ∧
    decode 0x1300FFFF 9 = .ok (.readLevel 65535) ∧
    decode 0x14000011 0 = .ok (.release 17) := by decide

/-- R28, R94: the codes of the eight functions. -/
theorem test_decode_functions :
    decode 0x11000011 0 = .ok (.configureFunction 17 .input) ∧
    decode 0x11010011 0 = .ok (.configureFunction 17 .output) ∧
    decode 0x11020011 0 = .ok (.configureFunction 17 .alt5) ∧
    decode 0x11030011 0 = .ok (.configureFunction 17 .alt4) ∧
    decode 0x11040011 0 = .ok (.configureFunction 17 .alt0) ∧
    decode 0x11050011 0 = .ok (.configureFunction 17 .alt1) ∧
    decode 0x11060011 0 = .ok (.configureFunction 17 .alt2) ∧
    decode 0x11070011 0 = .ok (.configureFunction 17 .alt3) := by decide

/-- V-E1 and V-R2's illegal words, and which test each fails. -/
theorem test_decode_illegal :
    decode 0x00000000 0 = .error .reservedOpcode ∧
    decode 0x04000011 0 = .error .reservedOpcode ∧
    decode 0x0F000000 0 = .error .reservedOpcode ∧
    decode 0x15000011 0 = .error .reservedOpcode ∧
    decode 0xFFFFFFFF 0 = .error .reservedOpcode ∧
    decode 0x10080011 0 = .error .mustBeZero ∧
    decode 0x01C00011 0 = .error .reservedFamily ∧
    decode 0x10100011 0 = .error .reservedFamily ∧
    decode 0x11110011 0 = .error .reservedFamily ∧
    decode 0x12010011 0 = .error .unusedFunction ∧
    decode 0x02070011 0 = .error .unusedFunction ∧
    decode 0x02100011 0 = .error .refusedPair ∧
    decode 0x02200011 0 = .error .refusedPair ∧
    decode 0x03300011 0 = .error .refusedPair ∧
    decode 0x03400011 0 = .error .refusedPair ∧
    decode 0x1208FFFF 0 = .error .mustBeZero ∧
    decode 0x01F0003A 0 = .error .reservedFamily := by decide

/-- R102: the words of V-S3, V-A2 and V-R2. -/
theorem test_encode :
    encode (.writeFieldPullConfig 57 2) = { cmd := 0x03B00039, opnd := 2 } ∧
    encode (.configureFunction 57 .alt3) = { cmd := 0x11070039, opnd := 0 } ∧
    encode (.writeLevel 17 1) = { cmd := 0x12000011, opnd := 1 } ∧
    encode (.resolveAsyncFalling 57) = { cmd := 0x01A00039, opnd := 0 } := by decide

/-- The host's numbering: bits 63 to 32 are the operand word. -/
theorem test_table_word :
    decodeTableWord 64 0x0000000112000011 = some (.writeLevel 17 1) ∧
    decodeTableWord 32 0x0000000112000011 = some (.writeLevel 17 0) ∧
    decodeTableWord 32 0x15000011 = none := by decide

/-! ### RESOLVE -/

/-- V-R2: pin 57 in every family. -/
theorem test_resolve_57 :
    [address (ran base 0x01000039 0),
      address (ran base 0x01100039 0),
      address (ran base 0x01200039 0),
      address (ran base 0x01300039 0),
      address (ran base 0x01400039 0),
      address (ran base 0x01500039 0),
      address (ran base 0x01600039 0),
      address (ran base 0x01700039 0),
      address (ran base 0x01800039 0),
      address (ran base 0x01900039 0),
      address (ran base 0x01A00039 0),
      address (ran base 0x01B00039 0)] =
    [some (.ok, [5, 0x14, 21, 0x00FFFFFF, 0x00FFFFFF]),
      some (.ok, [1, 0x20, 25, 0x03FFFFFF, 0x03FFFFFF]),
      some (.ok, [1, 0x2C, 25, 0x03FFFFFF, 0x03FFFFFF]),
      some (.ok, [1, 0x38, 25, 0x03FFFFFF, 0x03FFFFFF]),
      some (.ok, [1, 0x44, 25, 0x03FFFFFF, 0x03FFFFFF]),
      some (.ok, [1, 0x50, 25, 0x03FFFFFF, 0x03FFFFFF]),
      some (.ok, [1, 0x5C, 25, 0x03FFFFFF, 0x03FFFFFF]),
      some (.ok, [1, 0x68, 25, 0x03FFFFFF, 0x03FFFFFF]),
      some (.ok, [1, 0x74, 25, 0x03FFFFFF, 0x03FFFFFF]),
      some (.ok, [1, 0x80, 25, 0x03FFFFFF, 0x03FFFFFF]),
      some (.ok, [1, 0x8C, 25, 0x03FFFFFF, 0x03FFFFFF]),
      some (.ok, [3, 0xF0, 18, 0x000FFFFF, 0x000FFFFF])] := by decide

/-- V-S1, V-R2: pins on both sides of a word's edge, and pins above 57. -/
theorem test_resolve_edges :
    [address (ran base 0x01000009 0),
      address (ran base 0x0100000A 0),
      address (ran base 0x01000031 0),
      address (ran base 0x01000032 0),
      address (ran base 0x0110001F 0),
      address (ran base 0x01200020 0),
      address (ran base 0x01B0002F 0),
      address (ran base 0x01B00030 0),
      address (ran base 0x0100003A 0),
      address (ran base 0x0130FFFF 0)] =
    [some (.ok, [0, 0x0, 27, 0x3FFFFFFF, 0x3FFFFFFF]),
      some (.ok, [1, 0x4, 0, 0x3FFFFFFF, 0x3FFFFFFF]),
      some (.ok, [4, 0x10, 27, 0x3FFFFFFF, 0x3FFFFFFF]),
      some (.ok, [5, 0x14, 0, 0x00FFFFFF, 0x00FFFFFF]),
      some (.ok, [0, 0x1C, 31, 0xFFFFFFFF, 0xFFFFFFFF]),
      some (.ok, [1, 0x2C, 0, 0x03FFFFFF, 0x03FFFFFF]),
      some (.ok, [2, 0xEC, 30, 0xFFFFFFFF, 0xFFFFFFFF]),
      some (.ok, [3, 0xF0, 0, 0x000FFFFF, 0x000FFFFF]),
      some (.badPin, [0, 0x0, 0, 0x00000000, 0x00000000]),
      some (.badPin, [0, 0x0, 0, 0x00000000, 0x00000000])] := by decide

/-! ### READ_FIELD -/

/-- V-A1: reserved bits read as 1 do not reach `rdata`. -/
theorem test_readField_functionSelect :
    [seen (ran (given 0x04 0x3FDFFFFF base) 0x02000011 0),
      seen (ran (given 0x00 0x38000000 base) 0x02000009 0),
      seen (ran (given 0x14 0x00FFFFF8 base) 0x02000032 0)] =
    [([(.ok, 6)], [(.read, 0x04, 0xFFDFFFFF)]),
      ([(.ok, 7)], [(.read, 0x00, 0xF8000000)]),
      ([(.ok, 0)], [(.read, 0x14, 0xFFFFFFF8)])] := by decide

/-- V-A1. -/
theorem test_readField_pullConfig :
    [seen (ran (given 0xF0 0x00080000 base) 0x02B00039 0),
      seen (ran (given 0xE4 0xC0000000 base) 0x02B0000F 0)] =
    [([(.ok, 2)], [(.read, 0xF0, 0xFFF80000)]),
      ([(.ok, 3)], [(.read, 0xE4, 0xC0000000)])] := by decide

set_option maxRecDepth 4000
/-- V-A1, R61: the pad of an input. -/
theorem test_readField_level :
    [seen (ran ({ base with pad := base.pad.set 32 true }) 0x02300020 0),
      seen (ran (base) 0x02300039 0)] =
    [([(.ok, 1)], [(.read, 0x38, 0xFC000001)]),
      ([(.ok, 0)], [(.read, 0x38, 0xFC000000)])] := by decide

/-- V-A1, R62. -/
theorem test_readField_eventStatus :
    seen (ran ({ quiet with eds := quiet.eds.set 57 true }) 0x02400039 0) = ([(.ok, 1)], [(.read, 0x44, 0x02000000)]) := by decide

/-- V-A1 and R141: one pin in each detect-enable family. -/
theorem test_readField_enables :
    [seen (ran (given 0x50 0x00000100 quiet) 0x02500028 0),
      seen (ran (given 0x58 0x00000001 quiet) 0x02600000 0),
      seen (ran (given 0x68 0x02000000 quiet) 0x02700039 0),
      seen (ran (given 0x70 0xFFFFFFFE quiet) 0x02800000 0),
      seen (ran (given 0x80 0x00000001 base) 0x02900020 0),
      seen (ran (given 0x88 0xFFFFFFDF quiet) 0x02A00005 0)] =
    [([(.ok, 1)], [(.read, 0x50, 0x00000100)]),
      ([(.ok, 1)], [(.read, 0x58, 0x00000001)]),
      ([(.ok, 1)], [(.read, 0x68, 0x02000000)]),
      ([(.ok, 0)], [(.read, 0x70, 0xFFFFFFFE)]),
      ([(.ok, 1)], [(.read, 0x80, 0xFC000001)]),
      ([(.ok, 0)], [(.read, 0x88, 0xFFFFFFDF)])] := by decide

/-- V-A1: refused and failing forms, no bus transaction. -/
theorem test_readField_refused :
    [seen (ran (base) 0x02100011 0),
      seen (ran (base) 0x0210003A 0),
      seen (ran (base) 0x0230003A 0)] =
    [([(.illegalCommand, 0)], []),
      ([(.illegalCommand, 0)], []),
      ([(.badPin, 0)], [])] := by decide

/-! ### WRITE_FIELD -/

/-- V-A2: reserved bits read as 1 are written 0; V-A2's truncation. -/
theorem test_writeField_functionSelect :
    [seen (ran (given 0x04 0x3FFFFFFF base) 0x03000011 1),
      seen (ran (given 0x14 0x00FFFFFF base) 0x03000039 4),
      seen (ran (quiet) 0x03000011 0xFFFFFFF9)] =
    [([(.ok, 0)], [(.read, 0x04, 0xFFFFFFFF), (.write, 0x04, 0x3F3FFFFF)]),
      ([(.ok, 0)], [(.read, 0x14, 0xFFFFFFFF), (.write, 0x14, 0x009FFFFF)]),
      ([(.ok, 0)], [(.read, 0x04, 0x00000000), (.write, 0x04, 0x00200000)])] := by decide

/-- V-S2 (isolation) and P3: the word afterwards. -/
theorem test_writeField_stored :
    (ran (given 0x04 0x2ABCDEF5 quiet) 0x0300000D 6).csr = [(0x04, 0x2ABCDCF5)] ∧
    (ran (given 0xF0 0x00055555 base) 0x03B00039 2).csr = [(0xF0, 0x00095555)] ∧
    (ran (given 0x04 0x00200000 quiet) 0x03000011 0).csr = [] := by decide

/-- V-A2. -/
theorem test_writeField_pullConfig :
    [seen (ran (given 0xE8 0x55555555 base) 0x03B0001F 2),
      seen (ran (base) 0x03B00039 1)] =
    [([(.ok, 0)], [(.read, 0xE8, 0x55555555), (.write, 0xE8, 0x95555555)]),
      ([(.ok, 0)], [(.read, 0xF0, 0xFFF00000), (.write, 0xF0, 0x00040000)])] := by decide

/-- V-A2 and R146: one pin in each detect-enable family. -/
theorem test_writeField_enables :
    [seen (ran (quiet) 0x0350001F 1),
      seen (ran (base) 0x03600020 1),
      seen (ran (given 0x64 1 quiet) 0x03700000 2),
      seen (ran (given 0x70 0xFFFFFFFF base) 0x03800000 0),
      seen (ran (quiet) 0x03900039 1),
      seen (ran (given 0x8C 0x03FFFFFF base) 0x03A00039 0)] =
    [([(.ok, 0)], [(.read, 0x4C, 0x00000000), (.write, 0x4C, 0x80000000)]),
      ([(.ok, 0)], [(.read, 0x5C, 0xFC000000), (.write, 0x5C, 0x00000001)]),
      ([(.ok, 0)], [(.read, 0x64, 0x00000001), (.write, 0x64, 0x00000000)]),
      ([(.ok, 0)], [(.read, 0x70, 0xFFFFFFFF), (.write, 0x70, 0xFFFFFFFE)]),
      ([(.ok, 0)], [(.read, 0x80, 0x00000000), (.write, 0x80, 0x02000000)]),
      ([(.ok, 0)], [(.read, 0x8C, 0xFFFFFFFF), (.write, 0x8C, 0x01FFFFFF)])] := by decide

/-- V-A3: one write and no read; the value's low bit alone counts. -/
theorem test_writeField_set :
    [seen (ran (base) 0x03100000 0xFFFFFFFF),
      seen (ran (base) 0x03100039 2)] =
    [([(.ok, 0)], [(.write, 0x1C, 0x00000001)]),
      ([(.ok, 0)], [(.write, 0x20, 0x00000000)])] ∧
    (ran output17 0x03100011 1).olat[17] = true ∧
    (ran output17 0x03100011 0).olat[17] = false := by decide

/-- V-A3. -/
theorem test_writeField_clear :
    seen (ran (base) 0x03200039 3) = ([(.ok, 0)], [(.write, 0x2C, 0x02000000)]) ∧
    (ran { output17 with olat := Vector.replicate 58 true } 0x03200011 1).olat[17] = false ∧
    (ran { output17 with olat := Vector.replicate 58 true } 0x03200011 1).olat[18] = true := by decide

/-- U3: the latch of a pin that is no output takes the drawn bit. -/
theorem test_strobe_draws :
    (ran base 0x03200011 1).olat[17] = true ∧
    (ran quiet 0x03100011 1).olat[17] = false := by decide

/-- V-A3's refused forms. -/
theorem test_writeField_refused :
    [seen (ran (base) 0x03300011 1),
      seen (ran (base) 0x03400011 1),
      seen (ran (base) 0x0300003A 1)] =
    [([(.illegalCommand, 0)], []),
      ([(.illegalCommand, 0)], []),
      ([(.badPin, 0)], [])] := by decide

/-! ### The line layer -/

/-- V-L1: success and each failure of the environment. -/
theorem test_request :
    [seen (ran (base) 0x10000011 0),
      seen (ran ({ base with envFail := .deviceOpenFailed }) 0x10000011 0),
      seen (ran ({ base with envFail := .mapFailed }) 0x10000011 0),
      seen (ran ({ base with envFail := .allocationFailed }) 0x10000011 0),
      seen (ran ({ ready 3 base with envFail := .mapFailed }) 0x10000011 0),
      seen (ran ({ ready 3 base with envFail := .allocationFailed }) 0x10000011 0),
      seen (ran ({ ready 17 base with envFail := .allocationFailed }) 0x10000011 0),
      seen (ran ({ base with envFail := .deviceOpenFailed }) 0x1000003A 0)] =
    [([(.ok, 0)], []),
      ([(.deviceOpenFailed, 0)], []),
      ([(.mapFailed, 0)], []),
      ([(.allocationFailed, 0)], []),
      ([(.ok, 0)], []),
      ([(.allocationFailed, 0)], []),
      ([(.ok, 0)], []),
      ([(.badPin, 0)], [])] := by decide

/-- V-L1: the table and the count. -/
theorem test_request_state :
    ((ran base 0x10000011 0).line 17).state = .ready ∧
    (ran base 0x10000011 0).refcount = 1 ∧
    (ran (ready 17 base) 0x10000011 0).refcount = 1 ∧
    (ran { base with envFail := .allocationFailed } 0x10000011 0).refcount = 0 := by decide

/-- V-L1, P2. -/
theorem test_configureFunction :
    [seen (ran (ready 57 base) 0x11070039 0),
      seen (ran (ready 18 (given 0x04 0x20200924 base)) 0x11040012 0),
      seen (ran (base) 0x11010011 0)] =
    [([(.ok, 0)], [(.read, 0x14, 0xFF000000), (.write, 0x14, 0x00E00000)]),
      ([(.ok, 0)], [(.read, 0x04, 0xE0200924), (.write, 0x04, 0x24200924)]),
      ([(.nullState, 0)], [])] := by decide

/-- V-L1: the word and the noted code. -/
theorem test_configureFunction_state :
    (ran (ready 57 base) 0x11070039 0).csr = [(0x14, 0x00E00000)] ∧
    ((ran (ready 57 base) 0x11070039 0).line 57).lastFn = some .alt3 := by decide

/-- V-L1, V-S3. -/
theorem test_writeLevel :
    [seen (ran (ready 17 (given 0x04 0x00200000 quiet)) 0x12000011 0),
      seen (ran (ready 17 (given 0x04 0x00200000 quiet)) 0x12000011 1),
      seen (ran (ready 17 (given 0x04 0x00800000 quiet)) 0x12000011 1)] =
    [([(.ok, 0)], [(.read, 0x04, 0x00200000), (.write, 0x28, 0x00020000)]),
      ([(.ok, 0)], [(.read, 0x04, 0x00200000), (.write, 0x1C, 0x00020000)]),
      ([(.pinMisconfigured, 0)], [(.read, 0x04, 0x00800000)])] ∧
    (ran output17 0x12000011 1).olat[17] = true := by decide

/-- V-L1: the order of the checks. -/
theorem test_writeLevel_checks :
    [seen (ran (base) 0x12000011 2),
      seen (ran (base) 0x1200003A 2),
      seen (ran (ready 17 base) 0x12000011 2),
      seen (ran (ready 17 base) 0x12000011 0xFFFFFFFF)] =
    [([(.nullState, 0)], []),
      ([(.badPin, 0)], []),
      ([(.outOfRange, 0)], []),
      ([(.outOfRange, 0)], [])] := by decide

/-- V-L1, P1. -/
theorem test_readLevel :
    [seen (ran (ready 17 { base with pad := base.pad.set 17 true }) 0x13000011 0),
      seen (ran ({ output17 with pad := base.pad.set 17 true }) 0x13000011 0),
      seen (ran (base) 0x13000011 0)] =
    [([(.ok, 1)], [(.read, 0x34, 0x00020000)]),
      ([(.ok, 0)], [(.read, 0x34, 0x00000000)]),
      ([(.nullState, 0)], [])] := by decide

/-- V-L1. -/
theorem test_release :
    [seen (ran (ready 17 base) 0x14000011 0),
      seen (ran (base) 0x14000011 0)] =
    [([(.ok, 0)], []),
      ([(.nullState, 0)], [])] ∧
    ((ran (ready 17 base) 0x14000011 0).line 17).state = .released ∧
    (ran (ready 17 base) 0x14000011 0).refcount = 0 := by decide

/-! ### Steps and other agents -/

/-- P5 (b), R68: while port 0 holds FSEL1's lock, port 1 takes no step on it. -/
theorem test_lock : (({ midway with ports := midway.ports ++ [Port.idle] }.presentFirst 1 0x0300000B 1).enabled 1) = true ∧
    (let t := after base (step ({ midway with ports := midway.ports ++ [Port.idle] }.presentFirst 1 0x0300000B 1))
     (t.ports.map Port.responses, t.bus, t.enabled 1, t.firstEnabled) = ([[], []], [], false, some 0)) := by decide

/-- P5 (c), R233: another master's write between the read and the write is undone. -/
theorem test_lost_update : 
    (after base (step { midway with csr := [(0x04, 0x00000008)] })).csr = [(0x04, 0x00200000)] := by decide

/-- R62, R70: another master clears an event by writing 1; E3 needs `EXT_MASTER`. -/
theorem test_event_cleared :
    ({ base with eds := Vector.replicate 58 true }.environment (.extWrite 0x40 0x00020000)).eds[17] = false ∧
    ({ base with eds := Vector.replicate 58 true }.environment (.extWrite 0x40 0x00020000)).eds[49] = true ∧
    ({ base with params := { base.params with extMaster := false } }.environment (.extWrite 0x04 1)).csr = [] := by decide

/-- R231: with nothing presented the machine waits. -/
theorem test_waits : step State.reset = .next State.reset := by rfl

/-- R239: the colliding offsets of the original code are refused (R5). -/
theorem test_collision :
    refusal (step { base with params := { base.params with offHen := 0x4C } }) = some .badParameters := by decide

/-- R5, R25: thirty register words, at valid default offsets. -/
theorem test_layout : regWords.length = 30 ∧ Params.default.valid = true ∧ opcodeRows.length = 37 := by decide

/-- The register file's canonical form at reset. -/
theorem test_reset_wf : Memory.wf State.reset.csr = true := by decide

theorem running_undisturbed (s : State) : (running 3 s).undisturbed := ⟨rfl, Nat.le_refl 3⟩

theorem output17_lines : LinesResolved output17 := by decide

/-! ### Witnesses: each obligation's hypotheses hold together somewhere -/

theorem witness_DecodeEncodeRoundTrip : (Instr.writeLevel 65535 1).wellFormed = true := by decide

theorem witness_EncodeDecodeRoundTrip : decode 0x03100011 7 = .ok (.writeFieldSet 17 7) ∧
    decode 0x10000011 7 = .ok (.request 17) := by decide

/-- One word for each of the five tests. -/
theorem witness_IllegalCommands :
    ∀ c ∈ [((0x15000011 : Word), Illegal.reservedOpcode), (0x1208FFFF, .mustBeZero), (0x01C00011, .reservedFamily),
        (0x10100011, .reservedFamily), (0x02070011, .unusedFunction), (0x03400011, .refusedPair)],
      (waiting c.1 0).params.valid = true ∧ (waiting c.1 0).sched = .port 0 0 :: [] ∧
      (waiting c.1 0).ports[0]? = some { Port.idle with pending := [(c.1, 0)] } ∧ Port.idle.inflight = none ∧
      decode c.1 0 = .error c.2 := by decide

/-- The scheduled turn, and the turn taken when nothing is scheduled. -/
theorem witness_StepRunsDecodedCommand :
    (waiting 0x10000011 0).params.valid = true ∧
    (waiting 0x10000011 0).ports[0]? = some { Port.idle with pending := [(0x10000011, 0)] } ∧
    decode 0x10000011 0 = .ok (.request 17) ∧ (waiting 0x10000011 0).sched = .port 0 0 :: [] ∧
    { waiting 0x10000011 0 with sched := [] }.firstEnabled = some 0 := by decide

theorem witness_StepAnswers : State.reset.params.valid = true ∧ State.reset.ports ≠ [] ∧
    ¬({ base with ports := [] }.params.valid = true ∧ { base with ports := [] }.ports ≠ []) := by decide

theorem witness_ResolveAnswersAddress : 57 < 58 ∧ Instr.ofResolve .pullConfig 57 = .resolvePullConfig 57 := by decide

/-- Two pins in one word, and the pin of the last clause. -/
theorem witness_ResolverLaws : (16 : PinIndex) ≠ 31 ∧
    (resolve Params.default 16 .pullConfig).wordIndex = (resolve Params.default 31 .pullConfig).wordIndex ∧
    (57 : PinIndex).val = 57 := by decide

theorem witness_BadPinReturned : 57 < (Instr.resolveSet 58).pin ∧ 57 < (Instr.release 65535).pin := by decide

theorem witness_ReadFieldReturnsStoredField : Family.pullConfig.access = .readWrite ∧
    Instr.ofReadField .pullConfig 57 = some (.readFieldPullConfig 57) ∧ base.params.valid = true := by decide

theorem witness_ReadFieldLevelReturnsPinLevel : 57 < 58 ∧ base.params.valid = true := by decide

theorem witness_ReadFieldEventStatusReturnsLatch : 57 < 58 ∧ base.params.valid = true := by decide

theorem witness_WriteFieldStoresField : Family.pullConfig.access = .readWrite ∧
    Instr.ofWriteField .pullConfig 57 2 = some (.writeFieldPullConfig 57 2) ∧ (running 3 base).params.valid = true ∧
    (running 3 base).undisturbed ∧
    (running 3 base).lockFree (resolve (running 3 base).params 57 .pullConfig).off = true := by decide

/-- Each clause: another pin, the value 0, the value 1 on an output. -/
theorem witness_WriteFieldStrobesPin : (running 3 output17).params.valid = true ∧ (running 3 output17).undisturbed ∧
    (running 3 output17).lockFree (resolve (running 3 output17).params 17 .set).off = true ∧
    (running 3 output17).lockFree (resolve (running 3 output17).params 17 .clear).off = true ∧
    (18 : PinIndex) ≠ 17 ∧ (2 : Word).getLsbD 0 = false ∧ (1 : Word).getLsbD 0 = true ∧
    (running 3 output17).fieldValue .functionSelect 17 = 1 := by decide

theorem witness_WriteFieldIsolatesOtherPins : Family.functionSelect.access = .readWrite ∧
    Instr.ofWriteField .functionSelect 57 1 = some (.writeFieldFunctionSelect 57 1) ∧
    (running 3 base).params.valid = true ∧ (running 3 base).undisturbed ∧
    (running 3 base).lockFree (resolve (running 3 base).params 57 .functionSelect).off = true ∧
    ((Family.functionSelect ≠ .functionSelect) ∨ (56 : PinIndex) ≠ 57) := by decide

/-- A strobe family on an output, then the state it leaves, running again. -/
theorem witness_WriteFieldIdempotent : Instr.ofWriteField .set 17 1 = some (.writeFieldSet 17 1) ∧
    (running 3 output17).params.valid = true ∧ (running 3 output17).undisturbed ∧
    (running 3 output17).lockFree (resolve (running 3 output17).params 17 .set).off = true ∧
    (running 3 output17).fieldValue .functionSelect 17 = 1 ∧
    (let t := after base (exec (.writeFieldSet 17 1) (running 3 output17))
     (running 3 t).params = t.params ∧ (running 3 t).csr = t.csr ∧ (running 3 t).olat = t.olat ∧
       (running 3 t).undisturbed ∧ (running 3 t).lockFree (resolve (running 3 output17).params 17 .set).off = true) := by
  refine ⟨by decide, by decide, by decide, by decide, by decide, rfl, rfl, rfl, by decide, by decide⟩

/-- The interrupted command, and another state in which it goes on. -/
theorem witness_WriteFieldWritesBackWordRead : Family.functionSelect.access = .readWrite ∧
    Instr.ofWriteField .functionSelect 17 1 = some (.writeFieldFunctionSelect 17 1) ∧
    (running 2 base).params.valid = true ∧ (running 2 base).accepted ∧ (running 2 base).turn = 2 ∧
    (running 2 base).lockFree (resolve (running 2 base).params 17 .functionSelect).off = true ∧
    (let t := after base (exec (.writeFieldFunctionSelect 17 1) (running 2 base))
     { t with csr := [(0x04, 8)] }.params = (running 2 base).params ∧ { t with csr := [(0x04, 8)] }.inflight = t.inflight) := by
  refine ⟨by decide, by decide, by decide, by decide, by decide, by decide, by decide, rfl⟩

/-- Pin 17's line is `Ready` and an output, and another port holds the locks of FSEL1, SET0 and CLR0. -/
def locked17 : State := running 3 { output17 with locks := [(0x04, 1), (0x1C, 1), (0x28, 1)] }

/-- WRITE_FIELD on a read-write word and on a strobe word, CONFIGURE_FUNCTION, and WRITE_LEVEL of both values. -/
theorem witness_HeldLockStopsWriter :
    Instr.ofWriteField .functionSelect 17 1 = some (.writeFieldFunctionSelect 17 1) ∧
    Instr.ofWriteField .set 17 1 = some (.writeFieldSet 17 1) ∧ locked17.accepted ∧
    locked17.lockFree (resolve locked17.params 17 .functionSelect).off = false ∧
    locked17.lockFree (resolve locked17.params 17 .set).off = false ∧
    locked17.params.valid = true ∧ LinesResolved locked17 ∧ (locked17.line 17).state = .ready ∧ 1 ≤ locked17.turn ∧
    locked17.fieldValue .functionSelect 17 = 1 ∧
    locked17.lockFree (resolve locked17.params 17 (if (1 : Word) = 1 then .set else .clear)).off = false ∧
    locked17.lockFree (resolve locked17.params 17 (if (0 : Word) = 1 then .set else .clear)).off = false :=
  ⟨rfl, rfl, by decide, by decide, by decide, by decide, output17_lines, by decide, by decide, by decide, by decide,
    by decide⟩

/-- No failure, and each failure that does not count while the region is mapped. -/
theorem witness_RequestCreatesLine : (base.line 57).state ≠ .ready ∧ base.envFail = .none ∧
    ((ready 3 base).line 57).state ≠ .ready ∧ { ready 3 base with envFail := .deviceOpenFailed }.refcount ≠ 0 ∧
    { ready 3 base with envFail := .deviceOpenFailed }.envFail = .deviceOpenFailed ∧
    { ready 3 base with envFail := .mapFailed }.envFail = .mapFailed := by decide

theorem witness_RequestFailureStatuses : (base.line 57).state ≠ .ready ∧ base.refcount = 0 ∧
    { base with envFail := .deviceOpenFailed }.envFail = .deviceOpenFailed ∧
    { base with envFail := .mapFailed }.envFail = .mapFailed ∧
    { base with envFail := .allocationFailed }.envFail = .allocationFailed := by decide

/-- A REQUEST whose status is not `Ok`. -/
theorem witness_RequestRollsBack :
    exec (.request 58) (running 0 base) = .next ((running 0 base).respond (Response.bare .badPin)) ∧
    (Response.bare .badPin).status ≠ .ok :=
  ⟨rfl, by decide⟩

theorem witness_RequestOfReadyPinKeepsLine : ((ready 57 base).line 57).state = .ready := by decide

theorem witness_LineCommandsNeedReady : (base.line 57).state ≠ .ready ∧ ((ran (ready 17 base) 0x14000011 0).line 17).state ≠ .ready ∧
    Instr.readLevel 57 ∈ [Instr.configureFunction 57 .alt3, Instr.writeLevel 57 2, Instr.readLevel 57, Instr.release 57] := by
  decide

theorem witness_ConfigureFunctionWritesCode : (running 3 (ready 57 base)).params.valid = true ∧
    LinesResolved (running 3 (ready 57 base)) ∧ ((running 3 (ready 57 base)).line 57).state = .ready ∧
    (running 3 (ready 57 base)).undisturbed ∧
    (running 3 (ready 57 base)).lockFree (resolve Params.default 57 .functionSelect).off = true := by decide

/-- Both values. -/
theorem witness_WriteLevelDrivesOutput : (running 3 output17).params.valid = true ∧ LinesResolved (running 3 output17) ∧
    ((running 3 output17).line 17).state = .ready ∧ (running 3 output17).undisturbed ∧
    (running 3 output17).fieldValue .functionSelect 17 = 1 ∧
    (running 3 output17).lockFree (resolve Params.default 17 (if (1 : Word) = 1 then .set else .clear)).off = true ∧
    (running 3 output17).lockFree (resolve Params.default 17 (if (0 : Word) = 1 then .set else .clear)).off = true :=
  ⟨by decide, output17_lines, by decide, by decide, by decide, by decide, by decide⟩

theorem witness_WriteLevelPinMisconfigured : (running 1 (ready 17 base)).params.valid = true ∧
    LinesResolved (running 1 (ready 17 base)) ∧ ((running 1 (ready 17 base)).line 17).state = .ready ∧
    (running 1 (ready 17 base)).accepted ∧ 1 ≤ (running 1 (ready 17 base)).turn ∧ ((1 : Word) = 0 ∨ (1 : Word) = 1) ∧
    (running 1 (ready 17 base)).fieldValue .functionSelect 17 ≠ 1 := by decide

theorem witness_WriteLevelOutOfRange : (output17.line 17).state = .ready ∧ (2 : Word) ≠ 0 ∧ (2 : Word) ≠ 1 := by decide

theorem witness_ReadLevelReturnsPinLevel : (running 1 output17).params.valid = true ∧ LinesResolved (running 1 output17) ∧
    ((running 1 output17).line 17).state = .ready ∧ (running 1 output17).accepted ∧ 1 ≤ (running 1 output17).turn := by
  decide

theorem witness_ReleaseEndsLine : ((ready 57 base).line 57).state = .ready := by decide

/-- The two transitions. -/
theorem witness_LineTransitions :
    (∃ t, exec (.request 57) (running 3 base) = .next t ∧ (t.line 57).state ≠ ((running 3 base).line 57).state) ∧
    (∃ t, exec (.release 57) (running 3 (ready 57 base)) = .next t ∧
      (t.line 57).state ≠ ((running 3 (ready 57 base)).line 57).state) :=
  ⟨⟨_, rfl, by decide⟩, _, rfl, by decide⟩

/-- Another pin; a command that is none of the three; one that is not even CONFIGURE_FUNCTION. -/
theorem witness_LineTableFrame : (∃ t, exec (.readLevel 17) (running 3 output17) = .next t) ∧
    (Instr.readLevel 17).pin ≠ (18 : PinIndex).val ∧ (∀ pin, Instr.readLevel 17 ≠ .request pin) ∧
    (∀ pin, Instr.readLevel 17 ≠ .release pin) ∧ (∀ pin fn, Instr.readLevel 17 ≠ .configureFunction pin fn) :=
  ⟨⟨_, rfl⟩, by decide, by simp, by simp, by simp⟩

theorem witness_CommandsLeavePadsAndEvents : (running 3 output17).params.valid = true ∧ LinesResolved (running 3 output17) ∧
    ∃ t, exec (.writeLevel 17 1) (running 3 output17) = .next t :=
  ⟨by decide, output17_lines, _, rfl⟩

/-- A command under both clauses. -/
theorem witness_RegisterFrame : (running 3 output17).params.valid = true ∧ LinesResolved (running 3 output17) ∧
    (∃ t, exec (.readLevel 17) (running 3 output17) = .next t) ∧
    (∀ f pin value, f.access = .readWrite → Instr.ofWriteField f pin value ≠ some (.readLevel 17)) ∧
    (∀ pin fn, Instr.readLevel 17 ≠ .configureFunction pin fn) ∧
    (∀ pin value, Instr.readLevel 17 ≠ .writeFieldSet pin value) ∧
    (∀ pin value, Instr.readLevel 17 ≠ .writeFieldClear pin value) ∧
    (∀ pin value, Instr.readLevel 17 ≠ .writeLevel pin value) := by
  refine ⟨by decide, output17_lines, ⟨_, rfl⟩, ?_, by simp, by simp, by simp, by simp⟩
  intro f pin value _ h
  cases f <;> simp [Instr.ofWriteField] at h

theorem witness_CoreLayerIgnoresLineLayer : Instr.ofWriteField .set 17 1 = some (.writeFieldSet 17 1) ∧
    ∃ t, exec (.writeFieldSet 17 1) (running 3 output17) = .next t :=
  ⟨rfl, _, rfl⟩

theorem witness_StepKeepsCount : CountsReady output17 ∧ ∃ t, step output17 = .next t :=
  ⟨by decide, _, rfl⟩

/-- A lock held by a command in flight. -/
theorem midway_locks : LocksHeld midway := by
  refine ⟨by decide, fun off k => ⟨fun h => ?_, ?_⟩⟩
  · simp only [midway, Sparse.find] at h
    split at h
    · subst_vars
      cases h
      exact ⟨_, _, rfl, rfl, rfl⟩
    · cases h
  · rintro ⟨q, f, hq, hf, ho⟩
    obtain ⟨hk, rfl⟩ := List.getElem?_eq_some_iff.1 hq
    obtain rfl : k = 0 := by simpa [midway] using hk
    cases hf
    cases ho
    rfl

theorem witness_StepKeepsLocks : LocksHeld midway ∧ ∃ t, step midway = .next t :=
  ⟨midway_locks, _, rfl⟩

/-- Port 0 is inside the read-modify-write of FSEL1, and port 1 is about to take that word's lock. -/
def contended : State :=
  { midway with
    ports := midway.ports ++ [{ Port.idle with
      inflight := some
        { cmd := 0x03000012, opnd := 1
          pos := .rmwAcquire { addr := resolve Params.default 18 .functionSelect, width := 3, value := 1, note := none } } }]
    sched := [.port 1 3] }

theorem contended_locks : LocksHeld contended := by
  refine ⟨by decide, fun off k => ⟨fun h => ?_, ?_⟩⟩
  · simp only [contended, midway, Sparse.find] at h
    split at h
    · subst_vars
      cases h
      exact ⟨_, _, rfl, rfl, rfl⟩
    · cases h
  · rintro ⟨q, f, hq, hf, ho⟩
    obtain ⟨hk, rfl⟩ := List.getElem?_eq_some_iff.1 hq
    have hk : k < 2 := hk
    obtain rfl | rfl : k = 0 ∨ k = 1 := by omega
    · cases hf
      cases ho
      rfl
    · cases hf
      cases ho

/-- Both clauses: the port inside, beside itself and beside the one that waits. -/
theorem witness_MutualExclusion : LocksHeld contended ∧ ∃ t p q f g, step contended = .next t ∧
    t.ports[0]? = some p ∧ t.ports[1]? = some q ∧ p.inflight = some f ∧ q.inflight = some g ∧
    f.pos.holds = some 0x04 ∧ g.pos.needs = some 0x04 :=
  ⟨contended_locks, _, _, _, _, _, rfl, rfl, rfl, rfl, rfl, rfl, rfl⟩

theorem witness_StepKeepsCanonicalForm : Memory.wf output17.csr = true ∧ ∃ t, step output17 = .next t :=
  ⟨by decide, _, rfl⟩

/-- The invariant holds in the middle of a read-modify-write. -/
theorem midway_inv : Inv midway where
  params := by decide
  ports := by decide
  counts := by decide
  lines := by decide
  stored := ⟨by decide, fun e he => by cases he⟩
  locks := midway_locks
  phases := by
    intro q hq f hf
    obtain rfl := List.mem_singleton.1 hq
    cases hf
    exact ⟨⟨17, .functionSelect, rfl, rfl, rfl⟩, by decide⟩
  bus := fun t ht => by cases ht

theorem witness_StepKeepsInvariant : Inv midway ∧ ∃ t, step midway = .next t :=
  ⟨midway_inv, _, rfl⟩

theorem witness_SomePortCanMove : Inv midway ∧ ∃ q, midway.ports[0]? = some q ∧ (q.inflight ≠ none ∨ q.pending ≠ []) :=
  ⟨midway_inv, _, rfl, .inl (by decide)⟩

theorem witness_SinglePortAnswersInOneStep : Inv midway ∧ midway.sched = [] ∧
    ∃ q, midway.ports = [q] ∧ (q.inflight ≠ none ∨ q.pending ≠ []) :=
  ⟨midway_inv, rfl, _, rfl, .inl (by decide)⟩

theorem witness_ResponsesOnlyAppended : (∃ t, step midway = .next t) ∧ ∃ q, midway.ports[0]? = some q :=
  ⟨⟨_, rfl⟩, _, rfl⟩

theorem witness_ReadWriteWord : base.params.valid = true ∧ { fam := .pullConfig, idx := 3 } ∈ regWords ∧
    Family.pullConfig.access = .readWrite := by decide

/-- Each clause, in word 1 and in word 0. -/
theorem witness_SetClearWordWrite : output17.params.valid = true ∧ 1 < 2 ∧ (17 : PinIndex).val / 32 = 0 ∧
    (0x00020000 : Word).getLsbD ((17 : PinIndex).val % 32) = true ∧ output17.fieldValue .functionSelect 17 = 1 ∧
    (57 : PinIndex).val / 32 ≠ 0 ∧ (0x00020000 : Word).getLsbD ((18 : PinIndex).val % 32) = false := by decide

theorem witness_LevelWord : base.params.valid = true ∧ 1 < 2 ∧ (57 : PinIndex).val / 32 = 1 ∧ (31 : PinIndex).val / 32 = 0 := by
  decide

theorem witness_EventStatusWord : base.params.valid = true ∧ 1 < 2 ∧ (32 : PinIndex).val / 32 = 1 ∧
    (31 : PinIndex).val / 32 ≠ 1 := by decide

/-- Each move. -/
theorem witness_EnvironmentMoves : base.params.valid = true ∧ base.ports ≠ [] ∧
    (∀ m ∈ [Move.pad 57 true, .event 57, .extWrite 0xF0 1, .extRead 0xF0], { base with sched := [m] }.sched = m :: []) ∧
    { fam := .pullConfig, idx := 3 } ∈ regWords ∧ RegWord.off base.params { fam := .pullConfig, idx := 3 } = 0xF0 ∧
    base.params.extMaster = true ∧ { base.params with extMaster := false }.extMaster = false ∧
    (∀ w ∈ regWords, w.off base.params ≠ 0x18) ∧ (∀ w ∈ regWords, w.off base.params ≠ 0x90) ∧
    0x31 % 4 ≠ 0 ∧ base.params.regionLen ≤ 0xF4 := by decide

theorem witness_ResetState : { midway with sched := [.reset] }.params.valid = true ∧
    { midway with sched := [.reset] }.ports ≠ [] ∧ { midway with sched := [.reset] }.sched = .reset :: [] := by decide

/-- Both values, and the state in which the level is read. -/
theorem witness_WriteLevelThenReadLevel : (running 3 output17).params.valid = true ∧ LinesResolved (running 3 output17) ∧
    ((running 3 output17).line 17).state = .ready ∧ (running 3 output17).undisturbed ∧
    (running 3 output17).fieldValue .functionSelect 17 = 1 ∧
    (running 3 output17).lockFree (resolve Params.default 17 (if (1 : Word) = 1 then .set else .clear)).off = true ∧
    (running 3 output17).lockFree (resolve Params.default 17 (if (0 : Word) = 1 then .set else .clear)).off = true ∧
    (∀ v : Word, ∃ t, exec (.writeLevel 17 v) (running 3 output17) = .next t ∧ (running 3 t).undisturbed) ∧
    ∀ t : State, (running 3 t).params = t.params ∧ (running 3 t).csr = t.csr ∧ (running 3 t).olat = t.olat ∧
      (running 3 t).lines = t.lines :=
  ⟨by decide, output17_lines, by decide, by decide, by decide, by decide, by decide, fun _ => ⟨_, rfl, running_undisturbed _⟩, fun _ => ⟨rfl, rfl, rfl, rfl⟩⟩

/-- The interrupted command, and a state in which it goes on. -/
theorem witness_WriteLevelCheckThenWrite : (running 1 output17).params.valid = true ∧ LinesResolved (running 1 output17) ∧
    ((running 1 output17).line 17).state = .ready ∧ (running 1 output17).accepted ∧ (running 1 output17).turn = 1 ∧
    (running 1 output17).fieldValue .functionSelect 17 = 1 ∧
    (let t := after base (exec (.writeLevel 17 1) (running 1 output17))
     { t with csr := [] }.params = (running 1 output17).params ∧ { t with csr := [] }.inflight = t.inflight ∧
       { t with csr := [] }.lockFree (resolve Params.default 17 .set).off = true) := by
  refine ⟨by decide, output17_lines, by decide, by decide, by decide, by decide, by decide, rfl, by decide⟩

/-- The interrupted command, and another state in which it goes on. -/
theorem witness_ConfigureFunctionWritesBackWordRead : (running 2 (ready 17 base)).params.valid = true ∧
    LinesResolved (running 2 (ready 17 base)) ∧ ((running 2 (ready 17 base)).line 17).state = .ready ∧
    (running 2 (ready 17 base)).accepted ∧ (running 2 (ready 17 base)).turn = 2 ∧
    (running 2 (ready 17 base)).lockFree (resolve (running 2 (ready 17 base)).params 17 .functionSelect).off = true ∧
    (let t := after base (exec (.configureFunction 17 .alt3) (running 2 (ready 17 base)))
     { t with csr := [(0x04, 8)] }.params = (running 2 (ready 17 base)).params ∧
       { t with csr := [(0x04, 8)] }.inflight = t.inflight) := by
  refine ⟨by decide, by decide, by decide, by decide, by decide, by decide, by decide, rfl⟩

/-- Each input. -/
theorem witness_InputMoves : base.params.valid = true ∧ base.ports ≠ [] ∧
    { base with sched := [.present 0 0x10000011 0] }.sched = .present 0 0x10000011 0 :: [] ∧
    { base with sched := [.failInput .mapFailed] }.sched = .failInput .mapFailed :: [] := by decide

theorem witness_PortMoveFrame : Inv midway ∧ midway.nextMove = some (.port 0 3) ∧ (∃ t, step midway = .next t) ∧ 1 ≠ 0 :=
  ⟨midway_inv, by decide, ⟨_, rfl⟩, by decide⟩

/-- A step that takes a REQUEST and one that takes a RELEASE: the state and the count change. -/
theorem witness_LineStepTransitions :
    (∃ t, step (waiting 0x10000039 0) = .next t ∧ (waiting 0x10000039 0).nextMove ≠ some .reset ∧
      (t.line 57).state ≠ ((waiting 0x10000039 0).line 57).state ∧ t.refcount ≠ (waiting 0x10000039 0).refcount) ∧
    (∃ t, step (ready 57 (waiting 0x14000039 0)) = .next t ∧ (ready 57 (waiting 0x14000039 0)).nextMove ≠ some .reset ∧
      (t.line 57).state ≠ ((ready 57 (waiting 0x14000039 0)).line 57).state ∧
      t.refcount ≠ (ready 57 (waiting 0x14000039 0)).refcount) :=
  ⟨⟨_, rfl, by decide, by decide, by decide⟩, _, rfl, by decide, by decide, by decide⟩

/-- Each clause: an offset, a latch and an entry that the command in flight is not about. -/
theorem witness_InFlightCommandFrame : Inv midway ∧ midway.nextMove = some (.port 0 3) ∧ (∃ t, step midway = .next t) ∧
    ∃ q f, midway.ports[0]? = some q ∧ q.inflight = some f ∧ (∀ j, f.pos.modifies = some j → j.addr.off ≠ 0x08) ∧
      (∀ a, f.pos.strobes = some a → a ≠ resolve midway.params 17 .set ∧ a ≠ resolve midway.params 17 .clear) ∧
      ∀ j fn, f.pos.modifies = some j → j.note ≠ some (17, fn) :=
  ⟨midway_inv, by decide, ⟨_, rfl⟩, _, _, rfl, rfl, by rintro j ⟨⟩; decide, by rintro a ⟨⟩, by rintro j fn ⟨⟩; simp⟩

/-- R68: a CONFIGURE_FUNCTION and a WRITE_LEVEL whose word is locked write nothing. -/
theorem test_locked_writers :
    ((after base (exec (.configureFunction 17 .input) locked17)).csr, (seen (after base (exec (.writeLevel 17 1) locked17)))) =
      ([(0x04, 0x00200000)], ([], [(.read, 0x04, 0xC0200000)])) := by decide

end Sys2Proof.Tests
end

section
/-!
PROOFS. The scope of the model: a step of a valid block always answers and keeps its parameters and ports, the inputs
change themselves alone, and the core layer does not read line-layer state.
-/

namespace Sys2Proof.Machine

/-! ### The moves of the schedule (R6, R22, R104) -/

theorem nextMove_of_sched (s : State) (m : Move) (rest : List Move) (h : s.sched = m :: rest) : s.nextMove = some m := by
  simp [State.nextMove, h]

theorem afterMove_of_sched (s : State) (m : Move) (rest : List Move) (h : s.sched = m :: rest) :
    s.afterMove = { s with sched := rest } := by
  simp [State.afterMove, h]

/-- A scheduled move of another agent or of an input is taken, and the step is that move. -/
theorem step_of_sched (s : State) (hv : s.params.valid = true) (hp : s.ports ≠ []) (m : Move) (rest : List Move)
    (h : s.sched = m :: rest) (hn : ∀ k more, m ≠ .port k more) :
    step s = .next ({ s with sched := rest }.environment m) := by
  rw [step_of_environment s hv hp m (nextMove_of_sched s m rest h) hn, afterMove_of_sched s m rest h]

/-- Settles O54: each input is a scheduled move other than a port's, and its effect is `State.environment`'s. -/
theorem inputMoves : Obligations.InputMoves := by
  intro s rest hv hp
  constructor
  · intro k cmd opnd h
    exact step_of_sched s hv hp _ rest h (by simp)
  · intro e h
    exact step_of_sched s hv hp _ rest h (by simp)

/-! ### Every step of a valid block answers, with the same parameters and ports (R5, R211, R213) -/

theorem portTurn_answers (s : State) : ∃ t, portTurn s = .next t := by
  unfold portTurn
  split
  · exact ⟨_, rfl⟩
  · split
    · exact ⟨_, rfl⟩
    · split
      · obtain ⟨t, ht, -⟩ := exec_effect _ s.accept
        exact ⟨t, ht⟩
      · exact ⟨_, rfl⟩

theorem step_answers (s : State) (hv : s.params.valid = true) (hp : s.ports ≠ []) : ∃ t, step s = .next t := by
  cases hm : s.nextMove with
  | none => exact ⟨s, by simp [step, hv, hp, hm]⟩
  | some m =>
    cases m with
    | port k more =>
      rw [step_of_port s hv hp k more hm]
      exact portTurn_answers _
    | _ => exact ⟨_, step_of_environment s hv hp _ hm (by simp)⟩

theorem step_refused (s : State) (h : ¬(s.params.valid = true ∧ s.ports ≠ [])) : step s = .refused .badParameters := by
  have hc : (s.params.valid && !s.ports.isEmpty) = false := by simpa using h
  simp [step, hc]

/-- Two states are of the same block: its parameters and its number of ports (R5). -/
structure SameBlock (s t : State) : Prop where
  params : t.params = s.params
  count  : t.ports.length = s.ports.length

theorem SameBlock.trans {s t u : State} (h : SameBlock s t) (h' : SameBlock t u) : SameBlock s u :=
  ⟨h'.params.trans h.params, h'.count.trans h.count⟩

theorem SameOthers.sameBlock {s t : State} (h : SameOthers s t) : SameBlock s t := ⟨h.params, h.count⟩

theorem onPort_sameBlock (s : State) (g : Port → Port) : SameBlock s (s.onPort g) :=
  ⟨rfl, by simp⟩

theorem run_sameBlock (s : State) (n : Nat) : SameBlock s (s.run n) :=
  run_keeps (SameBlock s) (fun t h => h.trans (advance_sameOthers t).sameBlock) s ⟨rfl, rfl⟩ n

theorem environment_sameBlock (s : State) (m : Move) : SameBlock s (s.environment m) := by
  cases m with
  | present k cmd opnd => exact ⟨rfl, by simp [State.environment]⟩
  | reset => exact ⟨rfl, by simp [State.environment]⟩
  | extRead off => simp only [State.environment]; split <;> exact ⟨rfl, rfl⟩
  | extWrite off v => simp only [State.environment]; split <;> exact ⟨by simp, by simp⟩
  | _ => exact ⟨rfl, rfl⟩

/-- No step changes what fixes the block (log entry 1). -/
theorem step_sameBlock (s t : State) (h : step s = .next t) : SameBlock s t := by
  refine step_keeps (SameBlock s) ?turn ?environment ?run ?illegal ?command s t ⟨rfl, rfl⟩ h
  case turn => exact fun u k n hu => ⟨hu.params, hu.count⟩
  case environment =>
    exact fun u m hu => SameBlock.trans (t := u.afterMove) ⟨hu.params, hu.count⟩ (environment_sameBlock _ m)
  case run => exact fun u n hu => hu.trans (run_sameBlock u n)
  case illegal => exact fun u hu _ => (hu.trans (onPort_sameBlock u _)).trans (onPort_sameBlock u.accept _)
  case command =>
    exact fun u i v hu _ he => (hu.trans (onPort_sameBlock u _)).trans (effect_sameOthers u.accept i v he).sameBlock

/-- Settles O7: every command answers a next state, and every operation of a step keeps what fixes the block. -/
theorem stepAnswers : Obligations.StepAnswers := by
  intro s
  refine ⟨fun hv hp => ?_, step_refused s⟩
  obtain ⟨t, ht⟩ := step_answers s hv hp
  have hst := step_sameBlock s t ht
  exact ⟨t, ht, hst.params, hst.count⟩

/-! ### The core layer beside the line layer (R2, R120, R140, R145) -/

/-- The state with another line table and another count: everything the line layer keeps (R31, R32). -/
def State.withLineLayer (s : State) (lines : Vector Line 58) (n : Nat) : State :=
  { s with lines := lines, refcount := n }

/-- The command in flight on the active port will write no line: its read-modify-write, if it is in one, notes no
function at its end, as only CONFIGURE_FUNCTION's does (R146, R174). -/
def NotesNothing (s : State) : Prop := ∀ ph j, s.at ph → ph.modifies = some j → j.note = none

theorem notesNothing_of_none (s : State) (h : s.inflight = none) : NotesNothing s := by
  intro ph j hp
  simp [State.at, h] at hp

theorem notesNothing_goto (s : State) (ph : Phase) (h : ∀ j, ph.modifies = some j → j.note = none) :
    NotesNothing (s.goto ph) := by
  intro ph' j hp
  obtain ⟨f, -, rfl⟩ : ∃ f, s.inflight = some f ∧ ph = ph' := by simpa [State.at] using hp
  exact h j

/-- A command that notes nothing has nothing to note at any later position. -/
theorem advance_notesNothing (s : State) (h : NotesNothing s) : NotesNothing s.advance := by
  have hc := advance_cases s
  generalize s.advance = t at hc
  cases hc with
  | stays => exact h
  | acquired j hp hl => exact notesNothing_goto _ _ fun _ => h (.rmwAcquire j) _ hp
  | wordRead j hp => exact notesNothing_goto _ _ fun _ => h (.rmwRead j) _ hp
  | strobeAcquired a d hp => exact notesNothing_goto _ _ (by simp [Phase.modifies])
  | outputFound a d hp => exact notesNothing_goto _ _ (by simp [Phase.modifies])
  | _ => exact notesNothing_of_none _ (by simp)

section
variable (s : State) (lines : Vector Line 58) (n : Nat)

theorem memWrite_withLineLayer (off : Nat) (v : Word) :
    (s.withLineLayer lines n).memWrite off v = (s.memWrite off v).withLineLayer lines n := by
  have hl : locate (s.withLineLayer lines n).params off = locate s.params off := rfl
  unfold State.memWrite
  rw [hl]
  cases locate s.params off with
  | none => rfl
  | some w =>
    obtain ⟨f, k⟩ := w
    cases f <;> rfl

theorem busWrite_withLineLayer (off : Nat) (v : Word) :
    (s.withLineLayer lines n).busWrite off v = (s.busWrite off v).withLineLayer lines n := by
  simp only [State.busWrite, memWrite_withLineLayer]
  rfl

theorem ite_withLineLayer (c : Prop) [Decidable c] (t u : State) :
    (if c then t else u).withLineLayer lines n = if c then t.withLineLayer lines n else u.withLineLayer lines n :=
  apply_ite (State.withLineLayer · lines n) c t u

/-- One step of such a command neither reads nor writes the line table and the count. -/
theorem advanceFrom_withLineLayer (ph : Phase) (h : ∀ j, ph.modifies = some j → j.note = none) :
    (s.withLineLayer lines n).advanceFrom ph = (s.advanceFrom ph).withLineLayer lines n := by
  cases ph with
  | start => rfl
  | rmwAcquire j =>
    simp only [State.advanceFrom, ite_withLineLayer]
    rfl
  | rmwRead j => rfl
  | rmwWrite j current =>
    simp only [State.advanceFrom, busWrite_withLineLayer, h j rfl]
    rfl
  | strobeAcquire a data =>
    simp only [State.advanceFrom, ite_withLineLayer]
    rfl
  | strobeWrite a data =>
    simp only [State.advanceFrom, busWrite_withLineLayer]
    rfl
  | driveLevel a data =>
    simp only [State.advanceFrom, ite_withLineLayer, busWrite_withLineLayer]
    rfl
  | checkFn fsel target =>
    simp only [State.advanceFrom, ite_withLineLayer]
    rfl
  | readLevel a => rfl

theorem advance_withLineLayer (h : NotesNothing s) :
    (s.withLineLayer lines n).advance = s.advance.withLineLayer lines n := by
  cases hf : s.inflight with
  | none => rw [advance_idle s hf, advance_idle (s.withLineLayer lines n) hf]
  | some f =>
    rw [advance_some s f hf, advance_some (s.withLineLayer lines n) f hf]
    exact advanceFrom_withLineLayer s lines n f.pos fun j => h f.pos j (by simp [State.at, hf])

theorem run_withLineLayer (k : Nat) (h : NotesNothing s) :
    (s.withLineLayer lines n).run k = (s.run k).withLineLayer lines n := by
  induction k generalizing s with
  | zero => rfl
  | succ k ih => rw [State.run, advance_withLineLayer s lines n h, ih _ (advance_notesNothing s h), State.run]

theorem proceed_withLineLayer (ph : Phase) (h : ∀ j, ph.modifies = some j → j.note = none) :
    (s.withLineLayer lines n).proceed ph = (s.proceed ph).withLineLayer lines n :=
  run_withLineLayer (s.goto ph) lines n s.turn (notesNothing_goto s ph h)

/-- The pin check reads no line-layer state: the command is blind to it when what follows the check is. -/
theorem withPin_withLineLayer (pin : Nat) (g g' : PinIndex → State)
    (h : ∀ p, g' p = (g p).withLineLayer lines n) :
    (s.withLineLayer lines n).withPin pin g' = (s.withPin pin g).withLineLayer lines n := by
  unfold State.withPin
  cases pinIndex pin with
  | none => rfl
  | some p => exact h p

theorem resolveCommand_withLineLayer (f : Family) (pin : Nat) :
    (s.withLineLayer lines n).resolveCommand f pin = (s.resolveCommand f pin).withLineLayer lines n :=
  withPin_withLineLayer s lines n pin _ _ fun _ => rfl

theorem readFieldCommand_withLineLayer (f : Family) (pin : Nat) :
    (s.withLineLayer lines n).readFieldCommand f pin = (s.readFieldCommand f pin).withLineLayer lines n :=
  withPin_withLineLayer s lines n pin _ _ fun _ => rfl

theorem modifyFieldCommand_withLineLayer (f : Family) (pin : Nat) (v : Word) :
    (s.withLineLayer lines n).modifyFieldCommand f pin v = (s.modifyFieldCommand f pin v).withLineLayer lines n :=
  withPin_withLineLayer s lines n pin _ _ fun _ => proceed_withLineLayer s lines n _ (by rintro j ⟨⟩; rfl)

theorem strobeFieldCommand_withLineLayer (f : Family) (pin : Nat) (v : Word) :
    (s.withLineLayer lines n).strobeFieldCommand f pin v = (s.strobeFieldCommand f pin v).withLineLayer lines n :=
  withPin_withLineLayer s lines n pin _ _ fun _ => proceed_withLineLayer s lines n _ (by rintro j ⟨⟩)

end

/-- WRITE_FIELD on a read-write family is the read-modify-write (R145). -/
theorem exec_ofWriteField_readWrite (f : Family) (pin : Nat) (v : Word) (i : Instr) (s : State)
    (ha : f.access = .readWrite) (hi : Instr.ofWriteField f pin v = some i) :
    exec i s = .next (s.modifyFieldCommand f pin v) := by
  rcases exec_ofWriteField f pin v i s hi with ⟨-, he⟩ | ⟨hs, -⟩
  · exact he
  · simp [ha] at hs

/-- WRITE_FIELD on a strobe family is the strobe write (R145). -/
theorem exec_ofWriteField_strobe (f : Family) (pin : Nat) (v : Word) (i : Instr) (s : State)
    (ha : f.access = .strobe) (hi : Instr.ofWriteField f pin v = some i) :
    exec i s = .next (s.strobeFieldCommand f pin v) := by
  rcases exec_ofWriteField f pin v i s hi with ⟨hr, -⟩ | ⟨-, he⟩
  · simp [ha] at hr
  · exact he

/-- Settles O35: each of the core layer's four operations commutes with replacing the line table and the count. -/
theorem coreLayerIgnoresLineLayer : Obligations.CoreLayerIgnoresLineLayer := by
  intro f pin value i s t lines n hi ht
  change exec i (s.withLineLayer lines n) = .next (t.withLineLayer lines n)
  rcases hi with rfl | hi | hi
  · rw [exec_ofResolve] at ht ⊢
    cases ht
    rw [resolveCommand_withLineLayer]
  · rw [exec_ofReadField f pin i _ hi] at ht ⊢
    cases ht
    rw [readFieldCommand_withLineLayer]
  · rcases exec_ofWriteField f pin value i s hi with ⟨ha, -⟩ | ⟨ha, -⟩
    · rw [exec_ofWriteField_readWrite f pin value i _ ha hi] at ht ⊢
      cases ht
      rw [modifyFieldCommand_withLineLayer]
    · rw [exec_ofWriteField_strobe f pin value i _ ha hi] at ht ⊢
      cases ht
      rw [strobeFieldCommand_withLineLayer]

end Sys2Proof.Machine
end

section
/-!
PROOFS. What a command's first step does, in two ways: it ends the command, or it enters the steps that other agents can
come between; and what a command's steps make of the ports. With it: the command a step runs, and the responses.
-/

namespace Sys2Proof.Machine

/-! ### The taking of a command (R22, R34, R90) -/

/-- The port of the turn is idle and its oldest command is legal: the turn runs the command, the port having accepted it. -/
theorem portTurn_accepts (s : State) (q : Port) (cmd opnd : Word) (cs : List (Word × Word)) (i : Instr)
    (hq : s.ports[s.active]? = some q) (hi : q.inflight = none) (hp : q.pending = (cmd, opnd) :: cs)
    (hd : decode cmd opnd = .ok i) :
    portTurn s = exec i
      { s with
        ports := s.ports.modify s.active fun p =>
          { p with pending := cs, inflight := some { cmd := cmd, opnd := opnd, pos := .start } } } := by
  rw [portTurn_of_decoded s q (cmd, opnd) cs i hq hi hp hd, State.accept, State.onPort]
  refine congrArg (fun l => exec i { s with ports := l }) ?_
  exact modify_congr _ _ q _ _ hq (by simp [hp])

/-- Settles O6: the step is the turn of the port that moves next, and the turn runs the command. -/
theorem stepRunsDecodedCommand : Obligations.StepRunsDecodedCommand := by
  intro s k more q cmd opnd cs i hv hq hi hp hd
  have hports : s.ports ≠ [] := by rintro h; simp [h] at hq
  constructor
  · intro rest hs
    rw [step_of_port s hv hports k more (nextMove_of_sched s _ rest hs), afterMove_of_sched s _ rest hs]
    exact portTurn_accepts _ q cmd opnd cs i hq hi hp hd
  · intro hs hf
    have hm : s.nextMove = some (.port k wholeCommand) := by simp [State.nextMove, hs, hf]
    have ha : s.afterMove = s := by rw [State.afterMove, hs, List.tail_nil, ← hs]
    rw [step_of_port s hv hports k _ hm, ha]
    exact portTurn_accepts _ q cmd opnd cs i hq hi hp hd

/-! ### The two ways of a command's first step -/

/-- The position a command takes first: the three steps of R146, the two of R147, the check of R175, the read of R176. -/
inductive Phase.Entry : Phase → Prop
  | rmw (j : Rmw) : Phase.Entry (.rmwAcquire j)
  | strobe (a : Resolved) (data : Word) : Phase.Entry (.strobeAcquire a data)
  | check (fsel target : Resolved) : Phase.Entry (.checkFn fsel target)
  | level (a : Resolved) : Phase.Entry (.readLevel a)

/-- The command ended in one step: its port answered, and of all else only the line table, the count and a read on the
bus, with its draw, can differ. -/
structure EndsAtOnce (s t : State) : Prop where
  frame : t = { s with
    lines := t.lines, refcount := t.refcount, ports := t.ports, supply := t.supply, drawn := t.drawn, bus := t.bus }
  ports : ∃ r, t.ports = (s.respond r).ports
  bus   : ∀ x ∈ t.bus, x ∈ s.bus ∨ x.ok s.params

theorem EndsAtOnce.active {s t : State} (h : EndsAtOnce s t) : t.active = s.active := by rw [h.frame]
theorem EndsAtOnce.params {s t : State} (h : EndsAtOnce s t) : t.params = s.params := by rw [h.frame]
theorem EndsAtOnce.csr {s t : State} (h : EndsAtOnce s t) : t.csr = s.csr := by rw [h.frame]
theorem EndsAtOnce.pad {s t : State} (h : EndsAtOnce s t) : t.pad = s.pad := by rw [h.frame]
theorem EndsAtOnce.eds {s t : State} (h : EndsAtOnce s t) : t.eds = s.eds := by rw [h.frame]
theorem EndsAtOnce.locks {s t : State} (h : EndsAtOnce s t) : t.locks = s.locks := by rw [h.frame]
theorem EndsAtOnce.envFail {s t : State} (h : EndsAtOnce s t) : t.envFail = s.envFail := by rw [h.frame]
theorem EndsAtOnce.sched {s t : State} (h : EndsAtOnce s t) : t.sched = s.sched := by rw [h.frame]

/-- A transaction that reads the word of a pin is in order when the word's family can be read. -/
theorem read_ok (ps : Params) (p : PinIndex) (f : Family) (ha : f.access ≠ .strobe) (v : Word) :
    BusTxn.ok ps { kind := .read, off := (resolve ps p f).off, data := v } :=
  ⟨RegWord.ofPin p f, ofPin_mem p f, (resolve_off ps p f).symm, ha⟩

/-- The bus after a read holds what it held and the read. -/
theorem busRead_ok (s : State) (p : PinIndex) (f : Family) (ha : f.access ≠ .strobe) :
    ∀ x ∈ (s.busRead (resolve s.params p f).off).bus, x ∈ s.bus ∨ x.ok s.params := by
  intro x hx
  rw [State.busRead_bus, List.mem_append, List.mem_singleton] at hx
  rcases hx with hx | rfl
  · exact .inl hx
  · exact .inr (read_ok s.params p f ha _)

/-- A command ends at once or enters its first position; the position's temporaries are in order when the lines hold the
resolver's addresses (R127). -/
theorem effect_cases (s : State) (i : Instr) (t : State) (h : Effect s i t) :
    EndsAtOnce s t ∨ ∃ ph : Phase, t = s.proceed ph ∧ ph.Entry ∧ (LinesResolved s → ph.ok s.params) := by
  cases h with
  | answered i r => exact .inl ⟨rfl, ⟨r, rfl⟩, fun _ => .inl⟩
  | read i p f ha hi => exact .inl ⟨rfl, ⟨_, rfl⟩, busRead_ok s p f ha⟩
  | created p hl => exact .inl ⟨rfl, ⟨_, rfl⟩, fun _ => .inl⟩
  | ended p hl => exact .inl ⟨rfl, ⟨_, rfl⟩, fun _ => .inl⟩
  | modified i p f v ha hi => exact .inr ⟨_, rfl, .rmw _, fun _ => ⟨p, f, ha, rfl, rfl⟩⟩
  | strobed i p f v ha hi => exact .inr ⟨_, rfl, .strobe _ _, fun _ => ⟨p, f, v, ha, rfl, rfl⟩⟩
  | configured p fn hl =>
    exact .inr ⟨_, rfl, .rmw _, fun hL => ⟨p, .functionSelect, rfl, lineAddr_of_ready s hL p hl _, rfl⟩⟩
  | levelWritten p v f hf hl =>
    have ha : f.access = .strobe := by rcases hf with rfl | rfl <;> rfl
    exact .inr ⟨_, rfl, .check _ _, fun hL =>
      ⟨p, f, lineAddr_of_ready s hL p hl _, ha, lineAddr_of_ready s hL p hl _⟩⟩
  | levelRead p hl => exact .inr ⟨_, rfl, .level _, fun hL => ⟨p, lineAddr_of_ready s hL p hl _⟩⟩

/-! ### The ports -/

/-- All that a command's steps can make of the ports: the active one keeps or changes its position, or answers (R34). -/
inductive PortMoves (s t : State) : Prop
  | stays (h : t.ports = s.ports)
  | goes (ph : Phase) (h : t.ports = (s.goto ph).ports)
  | answers (r : Response) (h : t.ports = (s.respond r).ports)

theorem inflight_of_answers {s t : State} {r : Response} (h : t.ports = (s.respond r).ports) (ha : t.active = s.active) :
    t.inflight = none := by
  rw [inflight_congr (s.respond r) t h ha, inflight_respond]

theorem EndsAtOnce.inflight {s t : State} (h : EndsAtOnce s t) : t.inflight = none := by
  obtain ⟨r, hr⟩ := h.ports
  exact inflight_of_answers hr h.active

theorem EndsAtOnce.portMoves {s t : State} (h : EndsAtOnce s t) : PortMoves s t := by
  obtain ⟨r, hr⟩ := h.ports
  exact .answers r hr

theorem advance_portMoves (s : State) : PortMoves s s.advance := by
  have h := advance_cases s
  generalize s.advance = t at h
  cases h with
  | stays => exact .stays rfl
  | acquired => exact .goes _ rfl
  | wordRead => exact .goes _ rfl
  | wordWritten => exact .answers (Response.bare .ok) (by simp)
  | strobeAcquired => exact .goes _ rfl
  | strobeWritten => exact .answers (Response.bare .ok) (by simp)
  | levelDriven => exact .answers (Response.bare .ok) (by simp)
  | outputFound => exact .goes _ rfl
  | misconfigured => exact .answers _ rfl
  | levelRead => exact .answers _ rfl

theorem PortMoves.congr {s t u : State} (h : PortMoves t u) (hp : t.ports = s.ports) (ha : t.active = s.active) :
    PortMoves s u := by
  cases h with
  | stays h => exact .stays (h.trans hp)
  | goes ph h => exact .goes ph (by simpa [hp, ha] using h)
  | answers r h => exact .answers r (by simpa [hp, ha] using h)

/-- What a position leads to, the position before it leads to. -/
theorem PortMoves.of_goto {s u : State} {ph : Phase} (h : PortMoves (s.goto ph) u) : PortMoves s u := by
  cases h with
  | stays h => exact .goes ph h
  | goes ph' h => exact .goes ph' (by rwa [goto_goto] at h)
  | answers r h => exact .answers r (by rwa [respond_goto] at h)

/-- After its response a port is idle, so a turn answers at most once. -/
theorem PortMoves.advance {s t : State} (h : PortMoves s t) (ha : t.active = s.active) : PortMoves s t.advance := by
  cases h with
  | stays h => exact (advance_portMoves t).congr h ha
  | goes ph h => exact ((advance_portMoves t).congr (s := s.goto ph) h ha).of_goto
  | answers r h =>
    rw [advance_idle t (inflight_of_answers h ha)]
    exact .answers r h

theorem PortMoves.run {s t : State} (h : PortMoves s t) (ha : t.active = s.active) (n : Nat) : PortMoves s (t.run n) :=
  (run_keeps (fun u => PortMoves s u ∧ u.active = s.active)
    (fun u hu => ⟨hu.1.advance hu.2, (advance_sameOthers u).active.trans hu.2⟩) t ⟨h, ha⟩ n).1

theorem run_portMoves (s : State) (n : Nat) : PortMoves s (s.run n) := (PortMoves.stays rfl).run rfl n

theorem proceed_portMoves (s : State) (ph : Phase) : PortMoves s (s.proceed ph) := (PortMoves.goes ph rfl).run rfl _

theorem effect_portMoves (s : State) (i : Instr) (t : State) (h : Effect s i t) : PortMoves s t := by
  rcases effect_cases s i t h with he | ⟨ph, rfl, -, -⟩
  · exact he.portMoves
  · exact proceed_portMoves s ph

/-! ### The responses (R22) -/

theorem onPort_port (s : State) (g : Port → Port) (k : Nat) (q : Port) (hq : s.ports[k]? = some q) :
    (s.onPort g).ports[k]? = some (if s.active = k then g q else q) := by
  simp only [State.onPort_ports, List.getElem?_modify, hq]
  split <;> rfl

/-- Each port keeps the commands presented on it and its responses, but for one that the active port may add. -/
theorem PortMoves.port {s t : State} (h : PortMoves s t) (k : Nat) (q : Port) (hq : s.ports[k]? = some q) :
    ∃ q', t.ports[k]? = some q' ∧ q'.pending = q.pending ∧
      (q'.responses = q.responses ∨ ∃ r, q'.responses = q.responses ++ [r]) := by
  cases h with
  | stays h => exact ⟨q, by rw [h, hq], rfl, .inl rfl⟩
  | goes ph h => exact ⟨_, h ▸ onPort_port s _ k q hq, by split <;> rfl, .inl (by split <;> rfl)⟩
  | answers r h =>
    refine ⟨_, h ▸ onPort_port s _ k q hq, by split <;> rfl, ?_⟩
    split
    · exact .inr ⟨r, rfl⟩
    · exact .inl rfl

theorem modify_map_responses (l : List Port) (k : Nat) (g : Port → Port) (h : ∀ q, (g q).responses = q.responses) :
    (l.modify k g).map Port.responses = l.map Port.responses := by
  refine List.ext_getElem? fun n => ?_
  rw [List.getElem?_map, List.getElem?_map, List.getElem?_modify]
  cases l[n]? <;> by_cases hk : k = n <;> simp [hk, h]

theorem accept_responses (s : State) : s.accept.ports.map Port.responses = s.ports.map Port.responses :=
  modify_map_responses _ _ _ fun _ => rfl

/-- No move of another agent, no input and no reset returns or takes back a response. -/
theorem environment_responses (s : State) (m : Move) :
    (s.environment m).ports.map Port.responses = s.ports.map Port.responses := by
  cases m with
  | present k cmd opnd => exact modify_map_responses _ _ _ fun _ => rfl
  | reset => simp [State.environment, Function.comp_def]
  | extRead off => simp only [State.environment]; split <;> rfl
  | extWrite off v => simp only [State.environment]; split <;> simp
  | _ => rfl

/-- States with the same responses have the same port by port. -/
theorem port_of_responses {s t : State} (h : t.ports.map Port.responses = s.ports.map Port.responses) (k : Nat) (q : Port)
    (hq : s.ports[k]? = some q) : ∃ q', t.ports[k]? = some q' ∧ q'.responses = q.responses := by
  have hk := congrArg (fun l => l[k]?) h
  simp only [List.getElem?_map, hq, Option.map_some, Option.map_eq_some_iff] at hk
  exact hk

/-- Settles O44: a turn's steps answer at most once, and nothing else changes a port's responses. -/
theorem responsesOnlyAppended : Obligations.ResponsesOnlyAppended := by
  intro s t k q hs hq
  obtain ⟨-, ⟨-, rfl⟩ | ⟨l, more, -, hp⟩ | ⟨m, -, -, rfl⟩⟩ := step_cases s t hs
  · exact ⟨q, hq, .inl rfl⟩
  · obtain ⟨q₁, hq₁, hr₁⟩ := port_of_responses (accept_responses (s.afterMove.giveTurn l more)) k q hq
    rcases portTurn_cases _ _ hp with ⟨f, -, rfl⟩ | ⟨-, -, rfl⟩ | ⟨c, why, -, -, -, rfl⟩ | ⟨c, i, -, -, -, -, he⟩
    · obtain ⟨q', hq', -, hr⟩ := (run_portMoves (s.afterMove.giveTurn l more) _).port k q hq
      exact ⟨q', hq', hr⟩
    · exact ⟨q, hq, .inl rfl⟩
    · obtain ⟨q', hq', -, hr⟩ := PortMoves.port (.answers (Response.bare .illegalCommand) rfl) k q₁ hq₁
      exact ⟨q', hq', hr₁ ▸ hr⟩
    · obtain ⟨q', hq', -, hr⟩ := (effect_portMoves _ i t he).port k q₁ hq₁
      exact ⟨q', hq', hr₁ ▸ hr⟩
  · obtain ⟨q', hq', hr⟩ := port_of_responses (environment_responses s.afterMove m) k q hq
    exact ⟨q', hq', .inl hr⟩

end Sys2Proof.Machine
end

section
/-!
PROOFS. The locks: at every step they are those of the commands between the taking and the giving back (R33, R68). With it:
mutual exclusion, and that a command on the only port ends in one turn.
-/

namespace Sys2Proof.Machine

/-! ### Which lock a port holds -/

/-- The offset whose lock the command in flight on port `k` holds, if any (R68). -/
def State.held (s : State) (k : Nat) : Option Nat :=
  (s.ports[k]?).bind fun q => q.inflight.bind fun f => f.pos.holds

/-- The same of the active port. -/
abbrev State.holding (s : State) : Option Nat := s.held s.active

theorem held_eq_some (s : State) (k off : Nat) : s.held k = some off ↔
    ∃ q f, s.ports[k]? = some q ∧ q.inflight = some f ∧ f.pos.holds = some off := by
  simp [State.held, Option.bind_eq_some_iff]

theorem locksHeld_iff (s : State) : LocksHeld s ↔
    Sparse.rising s.locks = true ∧ ∀ off k, Sparse.find off s.locks = some k ↔ s.held k = some off := by
  simp only [LocksHeld, held_eq_some]

theorem holding_eq (s : State) : s.holding = s.inflight.bind fun f => f.pos.holds := by
  simp [State.held, State.inflight, Option.bind_assoc]

theorem holding_of_none (s : State) (h : s.inflight = none) : s.holding = none := by
  simp [holding_eq, h]

theorem holding_of_at {s : State} {ph : Phase} (h : s.at ph) : s.holding = ph.holds := by
  obtain ⟨f, hf, rfl⟩ := Option.map_eq_some_iff.1 h
  simp [holding_eq, hf]

theorem at_goto {s : State} {ph₀ : Phase} (h : s.at ph₀) (ph : Phase) : (s.goto ph).at ph := by
  obtain ⟨f, hf, rfl⟩ := Option.map_eq_some_iff.1 h
  simp [hf]

theorem holding_goto_none (s : State) (ph : Phase) (h : ph.holds = none) : (s.goto ph).holding = none := by
  rw [holding_eq, inflight_goto]
  cases s.inflight <;> simp [h]

theorem SameOthers.held {s t : State} (h : SameOthers s t) (k : Nat) (hk : k ≠ s.active) : t.held k = s.held k := by
  rw [State.held, State.held, h.others k hk]

/-- A command just accepted is at its start, where no lock is held. -/
theorem accept_holding (s : State) : s.accept.holding = none := by
  rw [holding_eq, State.accept, inflight_onPort]
  cases s.ports[s.active]? with
  | none => rfl
  | some q => cases h : q.pending.head? <;> simp [h, Phase.holds]

theorem onPort_sameOthers (s : State) (g : Port → Port) : SameOthers s (s.onPort g) := .of_modify s _ g rfl rfl rfl

theorem run_sameOthers (s : State) (n : Nat) : SameOthers s (s.run n) :=
  run_keeps (SameOthers s) (fun t h => h.trans (advance_sameOthers t)) s ⟨rfl, rfl, rfl, fun _ _ => rfl⟩ n

/-! ### What may happen to the locks in a step -/

/-- The locks are sound when neither they nor what any port holds has changed. -/
theorem LocksHeld.congr {s t : State} (h : LocksHeld s) (hl : t.locks = s.locks) (hh : ∀ k, t.held k = s.held k) :
    LocksHeld t := by
  rw [locksHeld_iff] at h ⊢
  simpa only [hl, hh] using h

/-- The active port holds what it held, and the locks are as they were. -/
theorem LocksHeld.kept {s t : State} (h : LocksHeld s) (ho : SameOthers s t) (hl : t.locks = s.locks)
    (ha : t.holding = s.holding) : LocksHeld t := by
  refine h.congr hl fun k => ?_
  by_cases hk : k = s.active
  · rw [hk]
    exact (congrArg t.held ho.active).symm.trans ha
  · exact ho.held k hk

/-- The active port, which held no lock, takes a free one. -/
theorem LocksHeld.taken {s t : State} (h : LocksHeld s) (ho : SameOthers s t) (off : Nat) (hf : s.lockFree off = true)
    (hl : t.locks = Sparse.put off s.active s.locks) (hs : s.holding = none) (ht : t.holding = some off) :
    LocksHeld t := by
  rw [locksHeld_iff] at h ⊢
  obtain ⟨hr, hh⟩ := h
  have hfree : Sparse.find off s.locks = none := by simpa [State.lockFree] using hf
  rw [State.holding, ho.active] at ht
  refine ⟨hl ▸ Sparse.rising_put _ _ _ hr, fun o k => ?_⟩
  rw [hl, Sparse.find_put]
  by_cases hk : k = s.active
  · have hno : Sparse.find o s.locks ≠ some s.active := by simp [hh, hs]
    subst hk
    rw [ht]
    by_cases hoff : o = off
    · simp [hoff]
    · simp [hoff, hno, Ne.symm hoff]
  · rw [ho.held k hk, ← hh]
    by_cases hoff : o = off
    · simp [hoff, hfree, Ne.symm hk]
    · simp [hoff]

/-- The active port gives back the lock it held. -/
theorem LocksHeld.given {s t : State} (h : LocksHeld s) (ho : SameOthers s t) (off : Nat)
    (hl : t.locks = Sparse.drop off s.locks) (hs : s.holding = some off) (ht : t.holding = none) : LocksHeld t := by
  rw [locksHeld_iff] at h ⊢
  obtain ⟨hr, hh⟩ := h
  have hmine : Sparse.find off s.locks = some s.active := (hh off s.active).2 hs
  rw [State.holding, ho.active] at ht
  refine ⟨hl ▸ Sparse.rising_drop _ _ hr, fun o k => ?_⟩
  rw [hl, Sparse.find_drop]
  by_cases hk : k = s.active
  · subst hk
    rw [ht]
    by_cases hoff : o = off
    · simp [hoff]
    · have hno : Sparse.find o s.locks ≠ some s.active := by simpa [hh, hs] using Ne.symm hoff
      simp [hoff, hno]
  · rw [ho.held k hk, ← hh]
    by_cases hoff : o = off
    · simp [hoff, hmine, Ne.symm hk]
    · simp [hoff]

theorem advance_locksHeld (s : State) (h : LocksHeld s) : LocksHeld s.advance := by
  have ho := advance_sameOthers s
  have hc := advance_cases s
  generalize s.advance = t at ho hc
  cases hc with
  | stays => exact h
  | acquired j hp hl =>
    exact h.taken ho _ hl rfl (holding_of_at hp) (holding_of_at (at_goto (s := s.acquire _) hp _))
  | wordRead j hp =>
    exact h.kept ho rfl ((holding_of_at (at_goto (s := s.busRead _) hp _)).trans (holding_of_at hp).symm)
  | wordWritten j c hp => exact h.given ho _ (by simp) (holding_of_at hp) (holding_of_none _ (by simp))
  | strobeAcquired a d hp hl =>
    exact h.taken ho _ hl rfl (holding_of_at hp) (holding_of_at (at_goto (s := s.acquire _) hp _))
  | strobeWritten a d hp => exact h.given ho _ (by simp) (holding_of_at hp) (holding_of_none _ (by simp))
  | levelDriven a d hp hl =>
    exact h.kept ho (by simp) ((holding_of_none _ (by simp)).trans (holding_of_at hp).symm)
  | outputFound a d hp hf =>
    exact h.kept ho rfl ((holding_of_at (at_goto (s := s.busRead _) hp _)).trans (holding_of_at hp).symm)
  | misconfigured a d hp hf =>
    exact h.kept ho rfl ((holding_of_none _ (by simp)).trans (holding_of_at hp).symm)
  | levelRead a hp => exact h.kept ho rfl ((holding_of_none _ (by simp)).trans (holding_of_at hp).symm)

theorem Phase.Entry.holds {ph : Phase} (h : ph.Entry) : ph.holds = none := by
  cases h <;> rfl

/-- A command enters its first position without a lock. -/
theorem goto_locksHeld (s : State) (h : LocksHeld s) (hs : s.holding = none) (ph : Phase) (hp : ph.Entry) :
    LocksHeld (s.goto ph) :=
  h.kept (onPort_sameOthers s _) rfl ((holding_goto_none s ph hp.holds).trans hs.symm)

theorem accept_locksHeld (s : State) (h : LocksHeld s) (hi : s.inflight = none) : LocksHeld s.accept :=
  h.kept (onPort_sameOthers s _) rfl ((accept_holding s).trans (holding_of_none s hi).symm)

theorem respond_locksHeld (s : State) (h : LocksHeld s) (hs : s.holding = none) (r : Response) :
    LocksHeld (s.respond r) :=
  h.kept (onPort_sameOthers s _) rfl ((holding_of_none _ (inflight_respond s r)).trans hs.symm)

theorem effect_locksHeld (s : State) (i : Instr) (t : State) (h : LocksHeld s) (hs : s.holding = none)
    (he : Effect s i t) : LocksHeld t := by
  rcases effect_cases s i t he with hc | ⟨ph, rfl, hp, -⟩
  · exact h.kept (effect_sameOthers s i t he) hc.locks ((holding_of_none t hc.inflight).trans hs.symm)
  · exact proceed_keeps LocksHeld advance_locksHeld s ph (goto_locksHeld s h hs ph hp)

theorem environment_locksHeld (s : State) (m : Move) (h : LocksHeld s) : LocksHeld (s.environment m) := by
  cases m with
  | present k cmd opnd =>
    refine h.congr rfl fun l => ?_
    simp only [State.held, State.environment, List.getElem?_modify]
    cases s.ports[l]? <;> by_cases hk : k = l <;> simp [hk]
  | reset =>
    rw [locksHeld_iff]
    refine ⟨rfl, fun off k => ?_⟩
    simp only [State.environment, State.blockReset_locks, Sparse.find_nil, State.held, State.blockReset_ports,
      List.getElem?_map]
    cases s.ports[k]? <;> simp
  | extRead off =>
    simp only [State.environment]
    split <;> exact h
  | extWrite off v =>
    simp only [State.environment]
    split
    · exact h.congr (by simp) fun k => by simp [State.held]
    · exact h
  | _ => exact h

/-- Settles O37: a lock is taken, kept and given back only with its holder's position. -/
theorem stepKeepsLocks : Obligations.StepKeepsLocks := by
  intro s t h hs
  refine step_keeps LocksHeld ?turn ?environment ?run ?illegal ?command s t h hs
  case turn => exact fun u k n hu => hu
  case environment => exact fun u m hu => environment_locksHeld u.afterMove m hu
  case run => exact fun u n hu => run_keeps LocksHeld advance_locksHeld u hu n
  case illegal =>
    exact fun u hu hi => respond_locksHeld u.accept (accept_locksHeld u hu hi) (accept_holding u) _
  case command =>
    exact fun u i v hu hi he => effect_locksHeld u.accept i v (accept_locksHeld u hu hi) (accept_holding u) he

/-- Settles O38: a lock names one holder, and stops the port whose next step needs it. -/
theorem mutualExclusion : Obligations.MutualExclusion := by
  intro s t h hs k l p q f g off hp hq hf hg ho
  obtain ⟨-, hh⟩ := stepKeepsLocks s t h hs
  have hk : Sparse.find off t.locks = some k := (hh off k).2 ⟨p, f, hp, hf, ho⟩
  constructor
  · intro ho'
    have hl : Sparse.find off t.locks = some l := (hh off l).2 ⟨q, g, hq, hg, ho'⟩
    exact Option.some.inj (hk.symm.trans hl)
  · intro hn
    simp [State.enabled, hq, hg, hn, State.lockFree, hk]

/-! ### A command on the only port ends in one turn (R22, R33) -/

/-- The number of steps in which a command at the position ends, when no lock stops it. -/
def Phase.rest : Phase → Nat
  | .start => 0
  | .rmwAcquire _ => 3
  | .rmwRead _ => 2
  | .rmwWrite _ _ => 1
  | .strobeAcquire _ _ => 2
  | .strobeWrite _ _ => 1
  | .driveLevel _ _ => 1
  | .checkFn _ _ => 2
  | .readLevel _ => 1

theorem Phase.Entry.ne_start {ph : Phase} (h : ph.Entry) : ph ≠ .start := by
  cases h <;> simp

theorem Phase.rest_le (ph : Phase) : ph.rest ≤ wholeCommand := by
  cases ph <;> simp [Phase.rest, wholeCommand]

theorem Phase.holds_of_needs {ph : Phase} {off : Nat} (h : ph.needs = some off) : ph.holds = none := by
  cases ph <;> simp_all [Phase.needs, Phase.holds]

/-- On the only port, no lock that the command needs is held. -/
theorem lockFree_of_alone (s : State) (h : LocksHeld s) (h1 : s.ports.length = 1) {ph : Phase} (hp : s.at ph) {off : Nat}
    (hn : ph.needs = some off) : s.lockFree off = true := by
  rw [locksHeld_iff] at h
  cases hk : Sparse.find off s.locks with
  | none => simp [State.lockFree, hk]
  | some k =>
    have hheld := (h.2 off k).1 hk
    obtain ⟨q, f, hq, -, -⟩ := (held_eq_some s k off).1 hheld
    have hk0 : k < s.ports.length := (List.getElem?_eq_some_iff.1 hq).1
    have ha0 : s.active < s.ports.length := by
      obtain ⟨f, hf, -⟩ := Option.map_eq_some_iff.1 hp
      obtain ⟨q, hq, -⟩ := Option.bind_eq_some_iff.1 hf
      exact (List.getElem?_eq_some_iff.1 hq).1
    obtain rfl : k = s.active := by omega
    rw [show s.held s.active = _ from holding_of_at hp, Phase.holds_of_needs hn] at hheld
    cases hheld

/-- A step of the only port's command ends it or brings it nearer to its end. -/
theorem advance_rest (s : State) (h : LocksHeld s) (h1 : s.ports.length = 1) (ph : Phase) (hp : s.at ph) (hs : ph ≠ .start) :
    s.advance.inflight = none ∨ ∃ ph', s.advance.at ph' ∧ ph' ≠ .start ∧ ph'.rest < ph.rest := by
  obtain ⟨f, hf, hfp⟩ := Option.map_eq_some_iff.1 hp
  rw [advance_some s f hf, hfp]
  have hfree := fun off => lockFree_of_alone s h h1 hp (off := off)
  cases ph with
  | start => exact absurd rfl hs
  | rmwAcquire j =>
    rw [State.advanceFrom, if_pos (hfree _ rfl)]
    exact .inr ⟨_, at_goto (s := s.acquire _) hp _, by simp, by simp [Phase.rest]⟩
  | rmwRead j =>
    rw [State.advanceFrom]
    exact .inr ⟨_, at_goto (s := s.busRead _) hp _, by simp, by simp [Phase.rest]⟩
  | rmwWrite j c => exact .inl (by simp [State.advanceFrom])
  | strobeAcquire a d =>
    rw [State.advanceFrom, if_pos (hfree _ rfl)]
    exact .inr ⟨_, at_goto (s := s.acquire _) hp _, by simp, by simp [Phase.rest]⟩
  | strobeWrite a d => exact .inl (by simp [State.advanceFrom])
  | driveLevel a d =>
    rw [State.advanceFrom, if_pos (hfree _ rfl)]
    exact .inl (by simp)
  | checkFn a b =>
    rw [State.advanceFrom]
    split
    · exact .inr ⟨_, at_goto (s := s.busRead _) hp _, by simp, by simp [Phase.rest]⟩
    · exact .inl (by simp)
  | readLevel a => exact .inl (by simp [State.advanceFrom])

theorem run_ends (s : State) (h : LocksHeld s) (h1 : s.ports.length = 1) (ph : Phase) (hp : s.at ph) (hs : ph ≠ .start)
    (n : Nat) (hn : ph.rest ≤ n) : (s.run n).inflight = none := by
  induction n generalizing s ph with
  | zero => cases ph <;> simp_all [Phase.rest]
  | succ n ih =>
    rw [State.run]
    rcases advance_rest s h h1 ph hp hs with hi | ⟨ph', hp', hs', hlt⟩
    · rw [run_idle _ hi]
      exact hi
    · exact ih s.advance (advance_locksHeld s h) ((advance_sameOthers s).count.trans h1) ph' hp' hs' (by omega)

theorem effect_ends (s : State) (i : Instr) (t : State) (h : LocksHeld s) (h1 : s.ports.length = 1) (ha : s.accepted)
    (ht : wholeCommand ≤ s.turn) (he : Effect s i t) : t.inflight = none := by
  rcases effect_cases s i t he with hc | ⟨ph, rfl, hp, -⟩
  · exact hc.inflight
  · exact run_ends (s.goto ph) (goto_locksHeld s h (holding_of_at ha) ph hp) (by simpa using h1) ph (at_goto ha ph)
      hp.ne_start _ (ph.rest_le.trans ht)

/-- The port when the command in flight on it, or else the oldest presented, has been answered. -/
def Port.served (q : Port) (r : Response) : Port :=
  { pending := if q.inflight = none then q.pending.tail else q.pending
    inflight := none
    responses := q.responses ++ [r] }

/-- A command that was in flight on the only port and has ended has answered. -/
theorem PortMoves.served {s t : State} (h : PortMoves s t) (q : Port) (hq : s.ports = [q]) (ha : s.active = 0)
    (hta : t.active = s.active) (hi : q.inflight ≠ none) (ht : t.inflight = none) : ∃ r, t.ports = [q.served r] := by
  have hs : s.inflight = q.inflight := by simp [State.inflight, hq, ha]
  cases h with
  | stays h =>
    rw [inflight_congr s t h hta, hs] at ht
    exact absurd ht hi
  | goes ph h =>
    rw [inflight_congr (s.goto ph) t h hta, inflight_goto, hs, Option.map_eq_none_iff] at ht
    exact absurd ht hi
  | answers r h => exact ⟨r, by simp [h, hq, ha, Port.answer, Port.served, hi]⟩

/-- A command that the only port, idle, has accepted, and that has ended, has answered. -/
theorem PortMoves.served_of_accept {s t : State} (h : PortMoves s.accept t) (q : Port) (hq : s.ports = [q])
    (ha : s.active = 0) (hta : t.active = s.accept.active) (hi : q.inflight = none) (c : Word × Word)
    (hc : q.pending.head? = some c) (ht : s.accept.accepted → t.inflight = none) : ∃ r, t.ports = [q.served r] := by
  have hports : s.accept.ports = [{ q with
      pending := q.pending.tail, inflight := some { cmd := c.1, opnd := c.2, pos := .start } }] := by
    simp [State.accept, hq, ha, hc]
  obtain ⟨r, hr⟩ := h.served _ hports ha hta (by simp) (ht (by simp [State.inflight, hports, ha]))
  exact ⟨r, by simpa [Port.served, hi] using hr⟩

/-- With nothing scheduled, the only port has the next turn when it has work: what it needs is free. -/
theorem nextMove_of_alone (s : State) (h : LocksHeld s) (q : Port) (hq : s.ports = [q]) (hs : s.sched = [])
    (hw : q.inflight ≠ none ∨ q.pending ≠ []) : s.nextMove = some (.port 0 wholeCommand) := by
  have he : s.enabled 0 = true := by
    cases hi : q.inflight with
    | none =>
      have hp : q.pending ≠ [] := by simpa [hi] using hw
      simpa [State.enabled, hq, hi] using hp
    | some f =>
      cases hn : f.pos.needs with
      | none => simp [State.enabled, hq, hi, hn]
      | some off =>
        have hp : (s.giveTurn 0 0).at f.pos := by simp [State.inflight, hq, hi]
        have hf : s.lockFree off = true := lockFree_of_alone (s.giveTurn 0 0) h (by simp [hq]) hp hn
        simp [State.enabled, hq, hi, hn, hf]
  simp [State.nextMove, hs, State.firstEnabled, hq, he, List.range_succ]

/-- The only port's turn, with work, ends the command it goes on with or takes, and answers it. -/
theorem portTurn_of_alone (s t : State) (h : LocksHeld s) (q : Port) (hq : s.ports = [q]) (ha : s.active = 0)
    (ht : s.turn = wholeCommand) (hp : ∀ f, q.inflight = some f → f.pos ≠ .start)
    (hw : q.inflight ≠ none ∨ q.pending ≠ []) (hs : portTurn s = .next t) : ∃ r, t.ports = [q.served r] := by
  have hinf : s.inflight = q.inflight := by simp [State.inflight, hq, ha]
  have hpres : s.presented = q.pending.head? := by simp [State.presented, hq, ha]
  rw [← hinf] at hp hw
  rcases portTurn_cases s t hs with ⟨f, hf, rfl⟩ | ⟨hi, hn, -⟩ | ⟨c, -, hi, hc, -, rfl⟩ | ⟨c, i, hi, hc, -, -, he⟩
  · have hend : (s.run (s.turn + 1)).inflight = none :=
      run_ends s h (by simp [hq]) f.pos (by simp [hf]) (hp f hf) _ (by have := f.pos.rest_le; omega)
    exact (run_portMoves s _).served q hq ha (run_sameOthers s _).active (by simp [← hinf, hf]) hend
  · rw [hpres, List.head?_eq_none_iff] at hn
    simp [hi, hn] at hw
  · exact PortMoves.served_of_accept (.answers _ rfl) q hq ha rfl (hinf ▸ hi) c (hpres ▸ hc) fun _ => inflight_raise _ _
  · exact (effect_portMoves _ i t he).served_of_accept q hq ha (effect_sameOthers _ i t he).active (hinf ▸ hi) c
      (hpres ▸ hc) fun hacc =>
        effect_ends s.accept i t (accept_locksHeld s h hi) (by simp [State.accept, hq]) hacc (by simp [ht]) he

/-- Settles O43: the turn is the only port's, and the command, whose locks are free, has fewer steps left than the turn. -/
theorem singlePortAnswersInOneStep : Obligations.SinglePortAnswersInOneStep := by
  intro s q hI hq hs hw
  obtain ⟨t, ht⟩ := step_answers s hI.params hI.ports
  have hturn := ht
  rw [step_of_port s hI.params hI.ports 0 _ (nextMove_of_alone s hI.locks q hq hs hw)] at hturn
  have hpos : ∀ f, q.inflight = some f → f.pos ≠ .start := fun f hf h0 => by
    have hok := hI.phases q (by simp [hq]) f hf
    rwa [h0] at hok
  obtain ⟨r, hr⟩ := portTurn_of_alone (s.afterMove.giveTurn 0 wholeCommand) t hI.locks q hq rfl rfl hpos hw hturn
  exact ⟨t, r, ht, hr⟩

end Sys2Proof.Machine
end

section
/-!
PROOFS. The line table and the count: which steps and which commands write them, and that the count is the number of
`Ready` lines (R31, R32, R170, R180).
-/

namespace Sys2Proof.Machine

/-! ### What a command does to the line table -/

/-- Of the line table and the count, a command changes a noted function at most, or it is a REQUEST that creates the pin's
line, or a RELEASE that ends it. -/
theorem effect_lines (s : State) (i : Instr) (t : State) (h : Effect s i t) : SameLines s t ∨
    (∃ p : PinIndex, i = .request p.val ∧ (s.line p).state ≠ .ready ∧ SameLines (s.createLine p) t) ∨
    (∃ p : PinIndex, i = .release p.val ∧ (s.line p).state = .ready ∧ SameLines (s.endLine p) t) := by
  cases h with
  | answered => exact .inl (.of_eq _ _ rfl rfl rfl)
  | read => exact .inl (.of_eq _ _ rfl rfl rfl)
  | created p hl => exact .inr (.inl ⟨p, rfl, hl, .of_eq _ _ rfl rfl rfl⟩)
  | ended p hl => exact .inr (.inr ⟨p, rfl, hl, .of_eq _ _ rfl rfl rfl⟩)
  | _ => exact .inl (proceed_sameLines s _)

theorem line_createLine (s : State) (p q : PinIndex) : (s.createLine p).line q =
    if q = p then { state := .ready, addr := some (resolveAll s.params p), lastFn := none } else s.line q :=
  line_setLine s p q _

theorem line_endLine (s : State) (p q : PinIndex) : (s.endLine p).line q =
    if q = p then { state := .released, addr := none, lastFn := none } else s.line q :=
  line_setLine s p q _

theorem line_blockReset (s : State) (p : PinIndex) : s.blockReset.line p = Line.unrequested := by
  simp [State.line]

/-- A predicate of the line table, the count and the parameters that REQUEST, RELEASE and reset keep, a step keeps. -/
theorem step_keeps_lines (P : State → Prop) (same : ∀ s t, SameLines s t → P s → P t)
    (created : ∀ s p, (s.line p).state ≠ .ready → P s → P (s.createLine p))
    (ended : ∀ s p, (s.line p).state = .ready → P s → P (s.endLine p))
    (reset : ∀ s, P s → P s.blockReset) (s t : State) (h : P s) (hs : step s = .next t) : P t := by
  refine step_keeps P ?turn ?environment ?run ?illegal ?command s t h hs
  case turn => exact fun u k n hu => same u _ (.of_eq _ _ rfl rfl rfl) hu
  case environment =>
    intro u m hu
    have ha : P u.afterMove := same u _ (.of_eq _ _ rfl rfl rfl) hu
    by_cases hm : m = .reset
    · exact hm ▸ reset _ ha
    · exact same _ _ (environment_sameLines _ m hm) ha
  case run => exact fun u n hu => same u _ (run_sameLines u n) hu
  case illegal => exact fun u hu _ => same u _ (.of_eq _ _ rfl rfl rfl) hu
  case command =>
    intro u i v hu _ he
    have ha : P u.accept := same u _ (.of_eq _ _ rfl rfl rfl) hu
    rcases effect_lines _ i v he with h | ⟨p, -, hl, h⟩ | ⟨p, -, hl, h⟩
    · exact same _ _ h ha
    · exact same _ _ h (created _ p hl ha)
    · exact same _ _ h (ended _ p hl ha)

/-! ### The count (R32) -/

/-- The number of `Ready` entries beside the pin's. -/
def State.readyBeside (s : State) (p : PinIndex) : Nat :=
  ((List.finRange 58).erase p).countP fun q => decide ((s.line q).state = .ready)

theorem readyCount_eq (s : State) (p : PinIndex) :
    s.readyCount = s.readyBeside p + if (s.line p).state = .ready then 1 else 0 := by
  rw [State.readyCount, (List.perm_cons_erase (List.mem_finRange p)).countP_eq, List.countP_cons]
  simp [State.readyBeside]

/-- States that agree on every entry's state but the pin's have as many `Ready` entries beside the pin's. -/
theorem readyBeside_congr (s t : State) (p : PinIndex) (h : ∀ q, q ≠ p → (t.line q).state = (s.line q).state) :
    t.readyBeside p = s.readyBeside p := by
  refine List.countP_congr fun q hq => ?_
  rw [h q (((List.nodup_finRange 58).mem_erase_iff.1 hq).1)]

theorem readyCount_createLine (s : State) (p : PinIndex) (hl : (s.line p).state ≠ .ready) :
    (s.createLine p).readyCount = s.readyCount + 1 := by
  rw [readyCount_eq _ p, readyCount_eq s p,
    readyBeside_congr s (s.createLine p) p fun q hq => by rw [line_createLine, if_neg hq]]
  simp [line_createLine, hl]

theorem readyCount_endLine (s : State) (p : PinIndex) (hl : (s.line p).state = .ready) :
    (s.endLine p).readyCount + 1 = s.readyCount := by
  rw [readyCount_eq _ p, readyCount_eq s p,
    readyBeside_congr s (s.endLine p) p fun q hq => by rw [line_endLine, if_neg hq]]
  simp [line_endLine, hl]

theorem SameLines.readyCount {s t : State} (h : SameLines s t) : t.readyCount = s.readyCount := by
  simp only [State.readyCount, h.state]

theorem readyCount_of_unrequested (s : State) (h : ∀ p, s.line p = Line.unrequested) : s.readyCount = 0 := by
  simp [State.readyCount, h, Line.unrequested]

/-- Settles O36: REQUEST and RELEASE change the count and the number of `Ready` lines together, reset makes both 0. -/
theorem stepKeepsCount : Obligations.StepKeepsCount := by
  intro s t h hs
  refine step_keeps_lines CountsReady ?same ?created ?ended ?reset s t h hs
  case same => exact fun u v hv hu => hv.count.trans (hu.trans hv.readyCount.symm)
  case created => exact fun u p hl hu => (congrArg (· + 1) hu).trans (readyCount_createLine u p hl).symm
  case ended =>
    intro u p hl hu
    have hc := readyCount_endLine u p hl
    change u.refcount - 1 = _
    omega
  case reset => exact fun u _ => (readyCount_of_unrequested _ (line_blockReset u)).symm

/-! ### The transitions of a step (R170) -/

/-- All that a step but the reset input's does to the line table and the count. -/
theorem step_lines (s t : State) (hs : step s = .next t) (hreset : s.nextMove ≠ some .reset) : SameLines s t ∨
    (∃ p : PinIndex, s.takes (.request p.val) ∧ (s.line p).state ≠ .ready ∧ SameLines (s.createLine p) t) ∨
    (∃ p : PinIndex, s.takes (.release p.val) ∧ (s.line p).state = .ready ∧ SameLines (s.endLine p) t) := by
  obtain ⟨-, ⟨-, rfl⟩ | ⟨k, more, hm, hp⟩ | ⟨m, hm, -, rfl⟩⟩ := step_cases s t hs
  · exact .inl (.of_eq _ _ rfl rfl rfl)
  · have hturn : SameLines s (s.afterMove.giveTurn k more) := .of_eq _ _ rfl rfl rfl
    rcases portTurn_cases _ _ hp with ⟨f, -, rfl⟩ | ⟨-, -, rfl⟩ | ⟨c, why, -, -, -, rfl⟩ | ⟨c, i, hi, hc, hd, -, he⟩
    · exact .inl (hturn.trans (run_sameLines _ _))
    · exact .inl hturn
    · exact .inl (.of_eq _ _ rfl rfl rfl)
    · have htakes : s.takes i := by
        obtain ⟨q, hq, hqc⟩ := Option.bind_eq_some_iff.1 hc
        rw [State.inflight, hq] at hi
        exact ⟨k, more, q, c, hm, hq, hi, hqc, hd⟩
      rcases effect_lines _ i t he with h | ⟨p, rfl, hl, h⟩ | ⟨p, rfl, hl, h⟩
      · exact .inl ((SameLines.of_eq s (s.afterMove.giveTurn k more).accept rfl rfl rfl).trans h)
      · exact .inr (.inl ⟨p, htakes, hl, .trans (by exact .of_eq _ _ rfl rfl rfl) h⟩)
      · exact .inr (.inr ⟨p, htakes, hl, .trans (by exact .of_eq _ _ rfl rfl rfl) h⟩)
  · exact .inl ((SameLines.of_eq s s.afterMove rfl rfl rfl).trans
      (environment_sameLines _ m fun h => hreset (h ▸ hm)))

/-- Settles O56: the line whose state a step changes is the one that a REQUEST creates or a RELEASE ends in it. -/
theorem lineStepTransitions : Obligations.LineStepTransitions := by
  intro s t hs hreset
  rcases step_lines s t hs hreset with h | ⟨p, htakes, hl, h⟩ | ⟨p, htakes, hl, h⟩
  · exact ⟨fun q hq => absurd (h.state q) hq, fun hc => absurd h.count hc⟩
  · refine ⟨fun q hq => .inl ?_, fun _ => ⟨p.val, .inl htakes⟩⟩
    rw [h.state, line_createLine] at hq ⊢
    split at hq
    · subst_vars
      exact ⟨htakes, hl, by simp⟩
    · exact absurd rfl hq
  · refine ⟨fun q hq => .inr ?_, fun _ => ⟨p.val, .inr htakes⟩⟩
    rw [h.state, line_endLine] at hq ⊢
    split at hq
    · subst_vars
      exact ⟨htakes, hl, by simp⟩
    · exact absurd rfl hq

/-! ### The entries a command writes (R21, R174, R180) -/

/-- The read-modify-write that the rest of the active port's command performs, if it is one. -/
def State.modifies (s : State) : Option Rmw := s.inflight.bind fun f => f.pos.modifies

theorem modifies_of_at {s : State} {ph : Phase} (h : s.at ph) : s.modifies = ph.modifies := by
  obtain ⟨f, hf, rfl⟩ := Option.map_eq_some_iff.1 h
  simp [State.modifies, hf]

theorem modifies_of_none (s : State) (h : s.inflight = none) : s.modifies = none := by
  simp [State.modifies, h]

theorem modifies_goto (s : State) (ph : Phase) (j : Rmw) (h : (s.goto ph).modifies = some j) : ph.modifies = some j := by
  obtain ⟨f, hf, hj⟩ := Option.bind_eq_some_iff.1 h
  rw [inflight_goto, Option.map_eq_some_iff] at hf
  obtain ⟨g, -, rfl⟩ := hf
  exact hj

/-- A command stays inside its own read-modify-write, and leaves every entry that it is not to note a function in. -/
structure NotesOwn (s t : State) : Prop where
  modifies : ∀ j, t.modifies = some j → s.modifies = some j
  lines    : ∀ p : PinIndex, (∀ j fn, s.modifies = some j → j.note ≠ some (p, fn)) → t.line p = s.line p

theorem NotesOwn.trans {s t u : State} (h : NotesOwn s t) (h' : NotesOwn t u) : NotesOwn s u :=
  ⟨fun j hj => h.modifies j (h'.modifies j hj), fun p hp =>
    (h'.lines p fun j fn hj => hp j fn (h.modifies j hj)).trans (h.lines p hp)⟩

theorem NotesOwn.of_none {s t : State} (hi : t.inflight = none) (hl : t.lines = s.lines) : NotesOwn s t :=
  ⟨fun j hj => by simp [modifies_of_none t hi] at hj, fun p _ => line_congr _ _ hl p⟩

theorem NotesOwn.of_goto {s u : State} {ph₀ : Phase} (hp : s.at ph₀) (hl : u.lines = s.lines) (ph : Phase)
    (h : ∀ j, ph.modifies = some j → ph₀.modifies = some j) : NotesOwn s (u.goto ph) :=
  ⟨fun j hj => by rw [modifies_of_at hp]; exact h j (modifies_goto u ph j hj), fun p _ => line_congr _ _ hl p⟩

/-- Noting a function writes the noted pin's entry alone. -/
theorem line_noteFn (s : State) (n : Option (PinIndex × Fn)) (p : PinIndex) (h : ∀ fn, n ≠ some (p, fn)) :
    (s.noteFn n).line p = s.line p := by
  cases n with
  | none => rfl
  | some x =>
    obtain ⟨q, fn⟩ := x
    have hne : p ≠ q := fun he => h fn (he ▸ rfl)
    rw [State.noteFn, line_setLine, if_neg hne]

theorem advance_notesOwn (s : State) : NotesOwn s s.advance := by
  have h := advance_cases s
  generalize s.advance = t at h
  cases h with
  | stays => exact ⟨fun _ => id, fun _ _ => rfl⟩
  | acquired j hp => exact .of_goto (u := s.acquire _) hp rfl _ fun _ => id
  | wordRead j hp => exact .of_goto (u := s.busRead _) hp rfl _ fun _ => id
  | wordWritten j c hp =>
    refine ⟨fun _ hj => by simp [modifies_of_none _ (inflight_respond _ _)] at hj, fun p hn => ?_⟩
    have hl : ((s.busWrite j.addr.off (j.addr.merge j.width c j.value)).unlock j.addr.off).lines = s.lines := by simp
    exact (line_noteFn _ j.note p fun fn => hn j fn (modifies_of_at hp)).trans (line_congr _ _ hl p)
  | strobeAcquired a d hp => exact .of_goto (u := s.acquire _) hp rfl _ fun _ => id
  | outputFound a d hp => exact .of_goto (u := s.busRead _) hp rfl _ fun _ => id
  | _ => exact .of_none (by simp) (by simp)

theorem run_notesOwn (s : State) (n : Nat) : NotesOwn s (s.run n) :=
  run_keeps (NotesOwn s) (fun t h => h.trans (advance_notesOwn t)) s ⟨fun _ => id, fun _ _ => rfl⟩ n

/-- A command that enters a position leaves every entry that the position is not to note a function in. -/
theorem proceed_line (s : State) (ph : Phase) (p : PinIndex) (h : ∀ j fn, ph.modifies = some j → j.note ≠ some (p, fn)) :
    (s.proceed ph).line p = s.line p :=
  (run_notesOwn (s.goto ph) s.turn).lines p fun j fn hj => h j fn (modifies_goto s ph j hj)

/-- A command writes its own pin's entry, or none. -/
theorem effect_line (s : State) (i : Instr) (t : State) (h : Effect s i t) (p : PinIndex) (hp : i.pin ≠ p.val) :
    t.line p = s.line p := by
  cases h with
  | answered => rfl
  | read => rfl
  | created q hl =>
    have hne : p ≠ q := fun he => hp (he ▸ rfl)
    exact (line_createLine s q p).trans (if_neg hne)
  | ended q hl =>
    have hne : p ≠ q := fun he => hp (he ▸ rfl)
    exact (line_endLine s q p).trans (if_neg hne)
  | configured q fn hl =>
    refine proceed_line s _ p fun j fn' hj hn => hp ?_
    cases hj
    cases hn
    rfl
  | _ => exact proceed_line s _ p fun j fn hj => by cases hj <;> simp

/-- Of the commands other than REQUEST and RELEASE, only CONFIGURE_FUNCTION writes an entry. -/
theorem effect_lines_eq (s : State) (i : Instr) (t : State) (h : Effect s i t) (hr : ∀ pin, i ≠ .request pin)
    (hl : ∀ pin, i ≠ .release pin) (hc : ∀ pin fn, i ≠ .configureFunction pin fn) : t.lines = s.lines := by
  refine Vector.ext fun n hn => ?_
  change t.line ⟨n, hn⟩ = s.line ⟨n, hn⟩
  cases h with
  | answered => rfl
  | read => rfl
  | created q => exact absurd rfl (hr q.val)
  | ended q => exact absurd rfl (hl q.val)
  | configured q fn => exact absurd rfl (hc q.val fn)
  | _ => exact proceed_line s _ _ fun j fn hj => by cases hj <;> simp

/-- Settles O32: by the command's effect, entry by entry; that the states, the addresses and the count stay is
`effect_lines`. -/
theorem lineTableFrame : Obligations.LineTableFrame := by
  intro i s t ht
  have he := effect_of_exec i s t ht
  refine ⟨fun p hp => effect_line s i t he p hp, fun hr hl => ?_⟩
  rcases effect_lines s i t he with h | ⟨p, hi, -⟩ | ⟨p, hi, -⟩
  · exact ⟨h.count, fun hc => effect_lines_eq s i t he hr hl hc, fun p => ⟨h.state p, h.addr p⟩⟩
  · exact absurd hi (hr p.val)
  · exact absurd hi (hl p.val)

end Sys2Proof.Machine
end

section
/-!
PROOFS. The invariant of the machine: it holds after reset and every step keeps it (R31, R53, R58, R98, R127, R150).
-/

namespace Sys2Proof.Machine

/-! ### The stored words (R20, R58) -/

theorem advance_csr (s : State) : s.advance.csr = s.csr ∨ ∃ off v, s.advance.csr = (s.memWrite off v).csr := by
  have h := advance_cases s
  generalize s.advance = t at h
  cases h with
  | wordWritten j c => exact .inr ⟨_, _, by simp; rfl⟩
  | strobeWritten a d => exact .inr ⟨_, _, rfl⟩
  | levelDriven a d => exact .inr ⟨_, _, rfl⟩
  | _ => exact .inl rfl

theorem environment_csr (s : State) (m : Move) :
    (s.environment m).csr = s.csr ∨ ∃ off v, (s.environment m).csr = (s.memWrite off v).csr := by
  cases m with
  | extWrite off v =>
    simp only [State.environment]
    split
    · exact .inr ⟨off, v, rfl⟩
    · exact .inl rfl
  | extRead off => simp only [State.environment]; split <;> exact .inl rfl
  | _ => exact .inl rfl

/-- A property of the stored words that every write of the register file keeps, whoever issues it, a step keeps. -/
theorem step_keeps_csr (P : Params → Sparse Word → Prop)
    (write : ∀ (s : State) off v, P s.params s.csr → P s.params (s.memWrite off v).csr)
    (s t : State) (h : P s.params s.csr) (hs : step s = .next t) : P t.params t.csr := by
  have single : ∀ u v : State, P u.params u.csr → v.params = u.params →
      (v.csr = u.csr ∨ ∃ off w, v.csr = (u.memWrite off w).csr) → P v.params v.csr := by
    rintro u v hu hp (hc | ⟨off, w, hc⟩) <;> rw [hp, hc]
    · exact hu
    · exact write u off w hu
  have run : ∀ (u : State) n, P u.params u.csr → P (u.run n).params (u.run n).csr := fun u n hu =>
    run_keeps (fun u => P u.params u.csr)
      (fun u hu => single u _ hu (advance_sameOthers u).params (advance_csr u)) u hu n
  refine step_keeps (fun u => P u.params u.csr) ?turn ?environment ?run ?illegal ?command s t h hs
  case turn => exact fun u k n hu => hu
  case environment =>
    exact fun u m hu => single u.afterMove _ hu (environment_sameBlock _ m).params (environment_csr _ m)
  case run => exact run
  case illegal => exact fun u hu _ => hu
  case command =>
    intro u i v hu _ he
    rcases effect_cases _ i v he with hc | ⟨ph, rfl, -, -⟩
    · rw [hc.params, hc.csr]
      exact hu
    · exact run (u.accept.goto ph) _ hu

/-- Settles O39: every change of the stored words is a write. -/
theorem stepKeepsCanonicalForm : Obligations.StepKeepsCanonicalForm := by
  intro s t h hs
  exact step_keeps_csr (fun _ m => Memory.wf m = true) (fun u off v hu => memWrite_wf u off v hu) s t h hs

/-- Each stored word is a word of a read-write family and has no reserved bit (R58). -/
def WordsValid (ps : Params) (m : Sparse Word) : Prop :=
  ∀ e ∈ m, ∃ w ∈ regWords, w.fam.access = .readWrite ∧ w.off ps = e.1 ∧ e.2 &&& ~~~w.mask = 0

/-- What the controller's writes store is a read-write word's, without its reserved bits, whatever is written. -/
theorem memWrite_wordsValid (s : State) (off : Nat) (v : Word) (h : WordsValid s.params s.csr) :
    WordsValid s.params (s.memWrite off v).csr := by
  have hwrite : ∀ w ∈ regWords, w.fam.access = .readWrite →
      WordsValid s.params (Memory.write s.csr (w.off s.params) (v &&& w.mask)) := by
    intro w hw ha e he
    rcases Memory.mem_write _ _ _ e he with rfl | he
    · exact ⟨w, hw, ha, rfl, masked_reserved v w.mask⟩
    · exact h e he
  unfold State.memWrite
  cases hl : locate s.params off with
  | none => exact h
  | some w =>
    have hw := hwrite w (locate_some _ _ w hl).1
    obtain ⟨f, k⟩ := w
    cases f with
    | set | clear | level | eventStatus => exact h
    | _ => exact hw rfl

theorem step_storedValid (s t : State) (h : StoredValid s) (hs : step s = .next t) : StoredValid t :=
  ⟨stepKeepsCanonicalForm s t h.1 hs, step_keeps_csr WordsValid memWrite_wordsValid s t h.2 hs⟩

/-! ### The cached addresses (R31, R127) -/

theorem step_linesResolved (s t : State) (h : LinesResolved s) (hs : step s = .next t) : LinesResolved t := by
  refine step_keeps_lines LinesResolved ?same ?created ?ended ?reset s t h hs
  case same => exact fun u v hv hu p => by rw [hv.addr, hv.state, hv.params, hu p]
  case created =>
    intro u p _ hu q
    rw [line_createLine]
    split
    · subst_vars
      rfl
    · exact hu q
  case ended =>
    intro u p _ hu q
    rw [line_endLine]
    split
    · rfl
    · exact hu q
  case reset => exact fun u _ p => by rw [line_blockReset]; rfl

/-! ### The commands in flight and the bus (R53, R98, R150) -/

theorem PhasesOk.active {s : State} (h : PhasesOk s) : ActiveOk s := by
  intro f hf
  obtain ⟨q, hq, hqf⟩ := Option.bind_eq_some_iff.1 hf
  exact h q (List.mem_of_getElem? hq) f hqf

/-- The commands in flight are in order when the active port's is and the other ports are as they were. -/
theorem PhasesOk.of_sameOthers {s t : State} (h : PhasesOk s) (ho : SameOthers s t) (ha : ActiveOk t) : PhasesOk t := by
  intro q hq f hf
  obtain ⟨k, hk⟩ := List.getElem?_of_mem hq
  by_cases hka : k = t.active
  · exact ha f (by simp [State.inflight, ← hka, hk, hf])
  · rw [ho.params]
    rw [ho.others k (ho.active ▸ hka)] at hk
    exact h q (List.mem_of_getElem? hk) f hf

/-- A write of a pin's word without reserved bits is in order. -/
theorem write_ok (ps : Params) (p : PinIndex) (f : Family) (ha : f.access = .readWrite ∨ f.access = .strobe) (v : Word)
    (hv : v &&& ~~~(RegWord.ofPin p f).mask = 0) :
    BusTxn.ok ps { kind := .write, off := (resolve ps p f).off, data := v } :=
  ⟨RegWord.ofPin p f, ofPin_mem p f, (resolve_off ps p f).symm, ha, hv⟩

/-- A strobe's word is a read-modify-write's whose word read is 0 (R147). -/
theorem strobeData_eq_merge (a : Resolved) (v : Word) : a.strobeData v = a.merge 1 0 v := by
  simp [Resolved.strobeData, Resolved.merge, unshiftedMask]

theorem width_of_strobe (f : Family) (ha : f.access = .strobe) : f.width = 1 := by
  cases f with
  | set => rfl
  | clear => rfl
  | _ => cases ha

/-- A strobe sets no reserved bit (R150). -/
theorem strobeData_reserved (ps : Params) (p : PinIndex) (f : Family) (ha : f.access = .strobe) (v : Word) :
    (resolve ps p f).strobeData v &&& ~~~(RegWord.ofPin p f).mask = 0 := by
  rw [strobeData_eq_merge, ← width_of_strobe f ha, merge_reserved]

theorem busOk_append (s t : State) (x : BusTxn) (h : BusOk s) (hp : t.params = s.params) (hb : t.bus = s.bus ++ [x])
    (hx : x.ok s.params) : BusOk t := by
  intro y hy
  rw [hb, List.mem_append, List.mem_singleton] at hy
  rw [hp]
  rcases hy with hy | rfl
  · exact h y hy
  · exact hx

/-- A step of a command whose temporaries are in order issues a transaction that is in order, or none. -/
theorem advance_busOk (s : State) (ha : ActiveOk s) (h : BusOk s) : BusOk s.advance := by
  have hc := advance_cases s
  generalize s.advance = t at hc
  cases hc with
  | stays => exact h
  | acquired => exact h
  | wordRead j hp =>
    obtain ⟨p, f, hf, hj, -⟩ : j.ok s.params := ha.at hp
    exact busOk_append s _ _ h rfl rfl (hj ▸ read_ok s.params p f (by simp [hf]) _)
  | wordWritten j c hp =>
    obtain ⟨⟨p, f, hf, hj, hw⟩, -⟩ := ha.at (ph := .rmwWrite j c) hp
    refine busOk_append s _ _ h (by simp) (by simp; rfl) ?_
    rw [hj, hw]
    exact write_ok s.params p f (.inl hf) _ (merge_reserved s.params p f c j.value)
  | strobeAcquired => exact h
  | strobeWritten a d hp =>
    obtain ⟨p, f, v, hf, rfl, rfl⟩ := ha.at (ph := .strobeWrite a d) hp
    exact busOk_append s _ _ h (by simp) (by simp)
      (write_ok s.params p f (.inr hf) _ (strobeData_reserved s.params p f hf v))
  | levelDriven a d hp =>
    obtain ⟨p, f, hf, rfl, rfl⟩ := ha.at (ph := .driveLevel a d) hp
    exact busOk_append s _ _ h (by simp) (by simp)
      (write_ok s.params p f (.inr hf) _ (strobeData_reserved s.params p f hf 1))
  | outputFound a b hp =>
    obtain ⟨p, f, rfl, -⟩ := ha.at (ph := .checkFn a b) hp
    exact busOk_append s _ _ h rfl rfl (read_ok s.params p .functionSelect (by decide) _)
  | misconfigured a b hp =>
    obtain ⟨p, f, rfl, -⟩ := ha.at (ph := .checkFn a b) hp
    exact busOk_append s _ _ h rfl rfl (read_ok s.params p .functionSelect (by decide) _)
  | levelRead a hp =>
    obtain ⟨p, rfl⟩ := ha.at (ph := .readLevel a) hp
    exact busOk_append s _ _ h rfl rfl (read_ok s.params p .level (by decide) _)

/-- What a turn carries along: the temporaries of its command and the bus are in order. -/
theorem run_activeOk_busOk (s : State) (n : Nat) (ha : ActiveOk s) (h : BusOk s) :
    ActiveOk (s.run n) ∧ BusOk (s.run n) :=
  run_keeps (fun u => ActiveOk u ∧ BusOk u)
    (fun u hu => ⟨advance_activeOk u hu.1, advance_busOk u hu.1 hu.2⟩) s ⟨ha, h⟩ n

theorem effect_activeOk_busOk (s : State) (i : Instr) (t : State) (hL : LinesResolved s) (h : BusOk s)
    (he : Effect s i t) : ActiveOk t ∧ BusOk t := by
  rcases effect_cases s i t he with hc | ⟨ph, rfl, -, hok⟩
  · refine ⟨activeOk_of_none t hc.inflight, fun x hx => ?_⟩
    rw [hc.params]
    exact (hc.bus x hx).elim (h x) id
  · exact run_activeOk_busOk (s.goto ph) s.turn (activeOk_goto s ph (hok hL)) h

theorem environment_phasesOk (s : State) (m : Move) (h : PhasesOk s) : PhasesOk (s.environment m) := by
  cases m with
  | present k cmd opnd =>
    intro q hq f hf
    obtain ⟨l, hl⟩ := List.getElem?_of_mem hq
    rw [State.environment, List.getElem?_modify] at hl
    obtain ⟨q', hq', rfl⟩ := Option.map_eq_some_iff.1 hl
    exact h q' (List.mem_of_getElem? hq') f (by split at hf <;> exact hf)
  | reset =>
    intro q hq f hf
    obtain ⟨q', -, rfl⟩ := List.mem_map.1 hq
    cases hf
  | extRead off => simp only [State.environment]; split <;> exact h
  | extWrite off v =>
    simp only [State.environment]
    split
    · intro q hq f hf
      rw [State.memWrite_params]
      exact h q (by simpa using hq) f hf
    · exact h
  | _ => exact h

theorem environment_busOk (s : State) (m : Move) (h : BusOk s) : BusOk (s.environment m) := by
  cases m with
  | extRead off => simp only [State.environment]; split <;> exact h
  | extWrite off v =>
    simp only [State.environment]
    split
    · intro x hx
      rw [State.memWrite_params]
      exact h x (by simpa using hx)
    · exact h
  | _ => exact h

/-- A step leaves the commands in flight and the bus in order: a command's temporaries are the resolver's (R127), and its
transactions are those that its temporaries name. -/
theorem step_phasesOk_busOk (s t : State) (hL : LinesResolved s) (hP : PhasesOk s) (hB : BusOk s)
    (hs : step s = .next t) : PhasesOk t ∧ BusOk t := by
  obtain ⟨-, ⟨-, rfl⟩ | ⟨k, more, -, hp⟩ | ⟨m, -, -, rfl⟩⟩ := step_cases s t hs
  · exact ⟨hP, hB⟩
  · have hP' : PhasesOk (s.afterMove.giveTurn k more) := hP
    have hA : SameOthers (s.afterMove.giveTurn k more) (s.afterMove.giveTurn k more).accept := onPort_sameOthers _ _
    rcases portTurn_cases _ _ hp with ⟨f, -, rfl⟩ | ⟨-, -, rfl⟩ | ⟨c, why, -, -, -, rfl⟩ | ⟨c, i, -, -, -, -, he⟩
    · obtain ⟨ha, hb⟩ := run_activeOk_busOk _ (more + 1) hP'.active hB
      exact ⟨hP'.of_sameOthers (run_sameOthers _ _) ha, hb⟩
    · exact ⟨hP', hB⟩
    · exact ⟨hP'.of_sameOthers (hA.trans (onPort_sameOthers _ _)) (activeOk_of_none _ (inflight_raise _ _)), hB⟩
    · obtain ⟨ha, hb⟩ := effect_activeOk_busOk (s.afterMove.giveTurn k more).accept i t hL hB he
      exact ⟨hP'.of_sameOthers (hA.trans (effect_sameOthers _ i t he)) ha, hb⟩
  · exact ⟨environment_phasesOk s.afterMove m hP, environment_busOk s.afterMove m hB⟩

/-! ### The invariant -/

/-- Settles O40: each part of the invariant is kept, the commands' temporaries and the bus together with the lines. -/
theorem stepKeepsInvariant : Obligations.StepKeepsInvariant := by
  intro s t h hs
  have hblock := step_sameBlock s t hs
  obtain ⟨hphases, hbus⟩ := step_phasesOk_busOk s t h.lines h.phases h.bus hs
  exact
    { params := by rw [hblock.params, h.params]
      ports := by rw [← List.length_pos_iff, hblock.count]; exact List.length_pos_iff.2 h.ports
      counts := stepKeepsCount s t h.counts hs
      lines := step_linesResolved s t h.lines hs
      stored := step_storedValid s t h.stored hs
      locks := stepKeepsLocks s t h.locks hs
      phases := hphases
      bus := hbus }

theorem line_reset (p : PinIndex) : State.reset.line p = Line.unrequested := by
  simp [State.line, State.reset]

theorem ports_reset {q : Port} (h : q ∈ State.reset.ports) : q = Port.idle := List.mem_singleton.1 h

/-- After reset no lock is held and no port holds one. -/
theorem locksHeld_reset : LocksHeld State.reset := by
  refine ⟨rfl, fun off k => ⟨nofun, ?_⟩⟩
  rintro ⟨q, f, hq, hf, -⟩
  rw [ports_reset (List.mem_of_getElem? hq)] at hf
  cases hf

/-- Settles O41: every line is `Unrequested`, the one port is idle, and nothing is stored, locked or on the bus. -/
theorem invariantAtReset : Obligations.InvariantAtReset where
  params := by decide
  ports := by simp [State.reset]
  counts := (readyCount_of_unrequested _ line_reset).symm
  lines := fun p => by rw [line_reset]; rfl
  stored := ⟨reset_wf, nofun⟩
  locks := locksHeld_reset
  phases := fun q hq f hf => by rw [ports_reset hq] at hf; cases hf
  bus := nofun

/-! ### What reset leaves (R40, R230) -/

/-- Settles O50: both states have the line table, count and locks of `Line.unrequested`, 0 and none, and idle ports. -/
theorem resetState : Obligations.ResetState := by
  refine ⟨⟨fun p => ?_, rfl, fun _ => rfl, fun q hq => by rw [ports_reset hq]; rfl⟩, fun s rest hv hp hs => ?_⟩
  · rw [line_reset]
    exact ⟨rfl, rfl⟩
  · refine ⟨_, step_of_sched s hv hp _ rest hs (by simp), ⟨fun p => ?_, rfl, fun _ => rfl, fun q hq => ?_⟩,
      rfl, rfl, rfl, rfl, rfl, environment_responses _ _⟩
    · rw [State.environment, line_blockReset]
      exact ⟨rfl, rfl⟩
    · obtain ⟨q', -, rfl⟩ := List.mem_map.1 hq
      rfl

end Sys2Proof.Machine
end

section
/-!
PROOFS. The frame of a port's step: what a command in flight may change of the registers, and that it changes no pad, no event
latch, no input and no other port (R22, R34, R62, R146, R147).
-/

namespace Sys2Proof.Machine

/-! ### The controller's words that a command writes -/

theorem memWrite_strobe (s : State) (h : s.params.valid = true) (p : PinIndex) (f : Family) (ha : f.access = .strobe)
    (v : Word) : ∃ level, s.memWrite (resolve s.params p f).off v =
      (s.strobe (wordIndexOf p f) (v &&& (RegWord.ofPin p f).mask) level).afterDraw := by
  cases f with
  | set => exact ⟨true, memWrite_set s h p v⟩
  | clear => exact ⟨false, memWrite_clear s h p v⟩
  | _ => cases ha

/-- The Set or Clear address that the rest of the active port's command may strobe, if any. -/
def State.strobes (s : State) : Option Resolved := s.inflight.bind fun f => f.pos.strobes

theorem strobes_of_at {s : State} {ph : Phase} (h : s.at ph) : s.strobes = ph.strobes := by
  obtain ⟨f, hf, rfl⟩ := Option.map_eq_some_iff.1 h
  simp [State.strobes, hf]

theorem strobes_of_none (s : State) (h : s.inflight = none) : s.strobes = none := by
  simp [State.strobes, h]

theorem strobes_goto (s : State) (ph : Phase) (a : Resolved) (h : (s.goto ph).strobes = some a) :
    ph.strobes = some a := by
  obtain ⟨f, hf, ha⟩ := Option.bind_eq_some_iff.1 h
  rw [inflight_goto, Option.map_eq_some_iff] at hf
  obtain ⟨g, -, rfl⟩ := hf
  exact ha

/-- A command strobes no other address later than it would strobe now. -/
theorem advance_strobes (s : State) (a : Resolved) (h : s.advance.strobes = some a) : s.strobes = some a := by
  have hc := advance_cases s
  generalize s.advance = t at h hc
  cases hc with
  | stays => exact h
  | acquired j hp => exact absurd (strobes_goto _ _ a h) nofun
  | wordRead j hp => exact absurd (strobes_goto _ _ a h) nofun
  | strobeAcquired b d hp =>
    rw [strobes_of_at hp]
    exact strobes_goto _ (.strobeWrite b d) a h
  | outputFound b c hp =>
    rw [strobes_of_at hp]
    exact strobes_goto _ (.driveLevel c (c.strobeData 1)) a h
  | _ => simp [strobes_of_none] at h

/-- The registers that a command's steps leave: every event latch, every word but that of its read-modify-write, every
output latch but its strobe's. -/
structure RegistersKept (s t : State) : Prop where
  events  : t.eds = s.eds
  stored  : ∀ off, (∀ j, s.modifies = some j → j.addr.off ≠ off) → Memory.read t.csr off = Memory.read s.csr off
  latches : ∀ p : PinIndex, (∀ a, s.strobes = some a → a ≠ resolve s.params p .set ∧ a ≠ resolve s.params p .clear) →
    t.olat[p] = s.olat[p]

theorem RegistersKept.of_eq {s t : State} (he : t.eds = s.eds) (hc : t.csr = s.csr) (ho : t.olat = s.olat) :
    RegistersKept s t :=
  ⟨he, fun _ _ => by rw [hc], fun _ _ => by rw [ho]⟩

/-- The write of a command's own read-write word. -/
theorem registersKept_stored (s : State) (hv : s.params.valid = true) (j : Rmw) (hj : s.modifies = some j)
    (hok : j.ok s.params) (v : Word) : RegistersKept s (s.memWrite j.addr.off v) := by
  obtain ⟨p, f, ha, hp, -⟩ := hok
  have hw := memWrite_readWrite s hv _ (ofPin_mem p f) ha v
  rw [← resolve_off, ← hp] at hw
  rw [hw]
  exact ⟨rfl, fun off hoff => (Memory.read_write _ _ _ off).trans (if_neg (hoff j hj).symm), fun _ _ => rfl⟩

/-- The write of a command's own strobe. -/
theorem registersKept_strobed (s : State) (hv : s.params.valid = true) (p : PinIndex) (f : Family)
    (ha : f.access = .strobe) (hs : s.strobes = some (resolve s.params p f)) (v : Word) :
    RegistersKept s (s.memWrite (resolve s.params p f).off ((resolve s.params p f).strobeData v)) := by
  obtain ⟨level, hw⟩ := memWrite_strobe s hv p f ha ((resolve s.params p f).strobeData v)
  rw [hw]
  refine ⟨rfl, fun _ _ => rfl, fun q hq => ?_⟩
  have hne : q ≠ p := by
    rintro rfl
    obtain ⟨hset, hclear⟩ := hq _ hs
    cases f with
    | set => exact hset rfl
    | clear => exact hclear rfl
    | _ => cases ha
  exact (strobed_getElem s s.params p q f (width_of_strobe f ha) v level).trans (if_neg fun h => hne h.1)

/-- The same of a state that differs from the one kept in no register. -/
theorem RegistersKept.congr {s t u : State} (h : RegistersKept s t) (he : u.eds = t.eds) (hc : u.csr = t.csr)
    (ho : u.olat = t.olat) : RegistersKept s u :=
  ⟨he.trans h.events, fun off hoff => by rw [hc, h.stored off hoff], fun p hp => by rw [ho, h.latches p hp]⟩

theorem advance_registersKept (s : State) (hv : s.params.valid = true) (ha : ActiveOk s) :
    RegistersKept s s.advance := by
  have hc := advance_cases s
  generalize s.advance = t at hc
  cases hc with
  | wordWritten j c hp =>
    have hok := (ha.at (ph := .rmwWrite j c) hp).1
    exact (registersKept_stored s hv j (modifies_of_at hp) hok (j.addr.merge j.width c j.value)).congr
      (by simp) (by simp) (by simp)
  | strobeWritten a d hp =>
    obtain ⟨p, f, v, hf, rfl, rfl⟩ := ha.at (ph := .strobeWrite a d) hp
    exact (registersKept_strobed s hv p f hf (strobes_of_at hp) v).congr (by simp) (by simp) (by simp)
  | levelDriven a d hp =>
    obtain ⟨p, f, hf, rfl, rfl⟩ := ha.at (ph := .driveLevel a d) hp
    exact (registersKept_strobed s hv p f hf (strobes_of_at hp) 1).congr (by simp) (by simp) (by simp)
  | _ => exact .of_eq rfl rfl rfl

/-! ### A turn -/

/-- What a port's step leaves of the inputs, the event latches, the parameters and the schedule. -/
structure OutsideKept (s t : State) : Prop where
  pad     : t.pad = s.pad
  events  : t.eds = s.eds
  envFail : t.envFail = s.envFail
  params  : t.params = s.params
  sched   : t.sched = s.sched

/-- What a command's steps leave of everything that is not its port's: what is outside, and the registers and entries that
are not its own. -/
structure TurnFrame (s t : State) : Prop extends NotesOwn s t, RegistersKept s t, OutsideKept s t where
  strobes : ∀ a, t.strobes = some a → s.strobes = some a

theorem TurnFrame.refl (s : State) : TurnFrame s s :=
  { modifies := fun _ => id, lines := fun _ _ => rfl, events := rfl, stored := fun _ _ => rfl
    latches := fun _ _ => rfl, strobes := fun _ => id, params := rfl, pad := rfl, envFail := rfl, sched := rfl }

theorem TurnFrame.trans {s t u : State} (h : TurnFrame s t) (h' : TurnFrame t u) : TurnFrame s u :=
  { toNotesOwn := h.toNotesOwn.trans h'.toNotesOwn
    events := h'.events.trans h.events
    stored := fun off hoff =>
      (h'.stored off fun j hj => hoff j (h.modifies j hj)).trans (h.stored off hoff)
    latches := fun p hp =>
      (h'.latches p fun a ha => h.params ▸ hp a (h.strobes a ha)).trans (h.latches p hp)
    strobes := fun a ha => h.strobes a (h'.strobes a ha)
    params := h'.params.trans h.params
    pad := h'.pad.trans h.pad
    envFail := h'.envFail.trans h.envFail
    sched := h'.sched.trans h.sched }

theorem advance_inputs (s : State) :
    s.advance.pad = s.pad ∧ s.advance.envFail = s.envFail ∧ s.advance.sched = s.sched := by
  have h := advance_cases s
  generalize s.advance = t at h
  cases h <;> exact ⟨by simp, by simp, by simp⟩

theorem advance_turnFrame (s : State) (hv : s.params.valid = true) (ha : ActiveOk s) : TurnFrame s s.advance := by
  obtain ⟨hpad, henv, hsched⟩ := advance_inputs s
  exact
    { toNotesOwn := advance_notesOwn s
      toRegistersKept := advance_registersKept s hv ha
      strobes := advance_strobes s
      params := (advance_sameOthers s).params
      pad := hpad
      envFail := henv
      sched := hsched }

theorem run_turnFrame (s : State) (hv : s.params.valid = true) (ha : ActiveOk s) (n : Nat) : TurnFrame s (s.run n) :=
  (run_keeps (fun u => ActiveOk u ∧ TurnFrame s u)
    (fun u hu => ⟨advance_activeOk u hu.1, hu.2.trans (advance_turnFrame u (hu.2.params ▸ hv) hu.1)⟩)
    s ⟨ha, .refl s⟩ n).2

/-! ### A port's step -/

theorem effect_outsideKept (s : State) (i : Instr) (t : State) (hv : s.params.valid = true) (hL : LinesResolved s)
    (h : Effect s i t) : OutsideKept s t := by
  rcases effect_cases s i t h with hc | ⟨ph, rfl, -, hok⟩
  · exact ⟨hc.pad, hc.eds, hc.envFail, hc.params, hc.sched⟩
  · have hf := (run_turnFrame (s.goto ph) hv (activeOk_goto s ph (hok hL)) s.turn).toOutsideKept
    exact ⟨hf.pad, hf.events, hf.envFail, hf.params, hf.sched⟩

/-- Settles O55: the turn's steps and the command's effect keep what is outside, and change the active port alone. -/
theorem portMoveFrame : Obligations.PortMoveFrame := by
  intro s t k more hI hm hs
  rw [step_of_port s hI.params hI.ports k more hm] at hs
  have hactive : ActiveOk (s.afterMove.giveTurn k more) := PhasesOk.active hI.phases
  have hA : SameOthers (s.afterMove.giveTurn k more) (s.afterMove.giveTurn k more).accept := onPort_sameOthers _ _
  have hkept : OutsideKept (s.afterMove.giveTurn k more) t ∧ SameOthers (s.afterMove.giveTurn k more) t := by
    rcases portTurn_cases _ _ hs with ⟨f, -, rfl⟩ | ⟨-, -, rfl⟩ | ⟨c, why, -, -, -, rfl⟩ | ⟨c, i, -, -, -, -, he⟩
    · exact ⟨(run_turnFrame (s.afterMove.giveTurn k more) hI.params hactive _).toOutsideKept, run_sameOthers _ _⟩
    · exact ⟨(TurnFrame.refl _).toOutsideKept, run_sameOthers _ 0⟩
    · exact ⟨⟨rfl, rfl, rfl, rfl, rfl⟩, hA.trans (onPort_sameOthers _ _)⟩
    · obtain ⟨hpad, hev, henv, hpar, hsch⟩ :=
        effect_outsideKept (s.afterMove.giveTurn k more).accept i t hI.params hI.lines he
      exact ⟨⟨hpad, hev, henv, hpar, hsch⟩, hA.trans (effect_sameOthers _ i t he)⟩
  obtain ⟨⟨hpad, hev, henv, hpar, hsch⟩, ho⟩ := hkept
  exact ⟨hpad, hev, henv, hpar, hsch, ho.others⟩

theorem portTurn_of_inflight (s : State) (f : InFlight) (h : s.inflight = some f) :
    portTurn s = .next (s.run (s.turn + 1)) := by
  simp [portTurn, h]

/-- Settles O57: the frame of the turn, read at the position at which the command goes on. -/
theorem inFlightCommandFrame : Obligations.InFlightCommandFrame := by
  intro s t k more q f hI hm hq hf hs
  rw [step_of_port s hI.params hI.ports k more hm] at hs
  have hactive : ActiveOk (s.afterMove.giveTurn k more) := PhasesOk.active hI.phases
  have hin : (s.afterMove.giveTurn k more).inflight = some f := by simp [State.inflight, hq, hf]
  have hmod : (s.afterMove.giveTurn k more).modifies = f.pos.modifies := by simp [State.modifies, hin]
  have hstr : (s.afterMove.giveTurn k more).strobes = f.pos.strobes := by simp [State.strobes, hin]
  rw [portTurn_of_inflight _ f hin] at hs
  cases hs
  have hframe := run_turnFrame (s.afterMove.giveTurn k more) hI.params hactive (more + 1)
  have hlines := run_sameLines (s.afterMove.giveTurn k more) (more + 1)
  obtain ⟨q', hq', hp, -⟩ := (run_portMoves (s.afterMove.giveTurn k more) (more + 1)).port k q hq
  exact ⟨fun off h => hframe.stored off (hmod ▸ h), fun p h => hframe.latches p (hstr ▸ h),
    fun p h => hframe.lines p (hmod ▸ h), fun p => ⟨hlines.state p, hlines.addr p⟩, hlines.count, q', hq', hp⟩

end Sys2Proof.Machine
end

section
/-!
PROOFS. Commands that are interrupted: between the read and the write of a read-modify-write (R233), and at a lock that another
port holds (R68).
-/

namespace Sys2Proof.Machine

/-! ### Between the read and the write (R34, R146, R233) -/

/-- The word a read-modify-write writes is computed from the stored word, whatever the read answered in reserved bits. -/
theorem merge_memRead (s : State) (hv : s.params.valid = true) (p : PinIndex) (f : Family) (ha : f.access = .readWrite)
    (v : Word) :
    (resolve s.params p f).merge f.width
        (s.memRead (resolve s.params p f).off &&& (resolve s.params p f).writeMask) v =
      (resolve s.params p f).merge f.width (Memory.read s.csr (resolve s.params p f).off) v := by
  rw [show (resolve s.params p f).writeMask = (resolve s.params p f).readMask from rfl, memRead_readMask s hv p f ha,
    resolve_readMask, merge_masked]

/-- After two steps of a read-modify-write its word's lock is held and nothing but the read has been done. -/
theorem proceed_rmw_interrupted (s : State) (hacc : s.accepted) (ht : s.turn = 2) (j : Rmw)
    (hl : s.lockFree j.addr.off = true) :
    s.proceed (.rmwAcquire j) = ((s.acquire j.addr.off).busRead j.addr.off).goto
      (.rmwWrite j (s.memRead j.addr.off &&& j.addr.writeMask)) := by
  obtain ⟨f, hf⟩ := inflight_of_accepted s hacc
  rw [State.proceed, ht]
  exact run_two s f hf j hl 0

/-- The third step, in whatever state the command goes on: the word is computed from the one read, the code noted, the lock
given back. -/
theorem run_rmwWrite (u : State) (hv : u.params.valid = true) (p : PinIndex) (f : Family) (ha : f.access = .readWrite)
    (v : Word) (note : Option (PinIndex × Fn)) (current : Word)
    (hp : u.at (.rmwWrite { addr := resolve u.params p f, width := f.width, value := v, note := note } current)) :
    (u.run 1).csr = Memory.write u.csr (resolve u.params p f).off
      ((resolve u.params p f).merge f.width current v) ∧
    (u.run 1).lines = (u.noteFn note).lines ∧
    (u.run 1).inflight = none ∧ (u.run 1).lockFree (resolve u.params p f).off = true := by
  obtain ⟨g, hg, hgp⟩ := Option.map_eq_some_iff.1 hp
  rw [State.run, State.run, advance_some u g hg, hgp, State.advanceFrom]
  refine ⟨?_, ?_, by simp, ?_⟩
  · simp only [State.respond_csr, State.noteFn_csr, State.unlock_csr]
    rw [busWrite_readWrite u hv p f ha _ (merge_reserved u.params p f current v)]
  · cases note <;> simp [State.noteFn, State.setLine, State.line]
  · simp [State.lockFree, Sparse.find_drop]

/-- A read-modify-write of a pin's field, interrupted after its read and going on in another state of the machine: all that
O18 and O53 say of it but for the noted code, which is `State.noteFn`'s. -/
theorem rmw_interrupted (s : State) (hv : s.params.valid = true) (p : PinIndex) (f : Family) (ha : f.access = .readWrite)
    (v : Word) (note : Option (PinIndex × Fn)) (hacc : s.accepted) (ht : s.turn = 2)
    (hl : s.lockFree (resolve s.params p f).off = true) (t : State)
    (hst : t = s.proceed (.rmwAcquire { addr := resolve s.params p f, width := f.width, value := v, note := note })) :
    t.csr = s.csr ∧ t.lines = s.lines ∧ Sparse.find (resolve s.params p f).off t.locks = some s.active ∧
    t.inflight.isSome = true ∧
    ∀ u : State, u.params = s.params → u.inflight = t.inflight →
      (u.run 1).csr = Memory.write u.csr (resolve s.params p f).off
        ((resolve s.params p f).merge f.width (Memory.read s.csr (resolve s.params p f).off) v) ∧
      (u.run 1).lines = (u.noteFn note).lines ∧
      (u.run 1).inflight = none ∧ (u.run 1).lockFree (resolve s.params p f).off = true := by
  rw [proceed_rmw_interrupted s hacc ht _ hl] at hst
  have hat : t.at (.rmwWrite { addr := resolve s.params p f, width := f.width, value := v, note := note }
      (s.memRead (resolve s.params p f).off &&& (resolve s.params p f).writeMask)) := by
    rw [hst]
    exact at_goto (s := (s.acquire _).busRead _) hacc _
  refine ⟨by simp [hst], by simp [hst], by simp [hst, Sparse.find_put], ?_, fun u hu hi => ?_⟩
  · obtain ⟨g, hg, -⟩ := Option.map_eq_some_iff.1 hat
    simp [hg]
  · rw [State.at, ← hi, ← hu] at hat
    have hrun := run_rmwWrite u (hu ▸ hv) p f ha v note _ hat
    rw [hu, merge_memRead s hv p f ha v] at hrun
    exact hrun

/-- Settles O18: WRITE_FIELD on a read-write family is the read-modify-write of the pin's field. -/
theorem writeFieldWritesBackWordRead : Obligations.WriteFieldWritesBackWordRead := by
  intro f pin h value i s ha hi hv hacc ht a hl
  refine ⟨_, exec_ofWriteField_readWrite f pin value i s ha hi, ?_⟩
  rw [State.modifyFieldCommand, withPin_of_lt s pin h]
  obtain ⟨hcsr, -, hlock, hin, hgo⟩ := rmw_interrupted s hv ⟨pin, h⟩ f ha value none hacc ht hl _ rfl
  refine ⟨hcsr, hlock, hin, fun u hu hui => ?_⟩
  obtain ⟨hc, -, hn, hf⟩ := hgo u hu hui
  exact ⟨hc, hn, hf⟩

/-- CONFIGURE_FUNCTION of a `Ready` line is the read-modify-write of its FunctionSelect field (R174). -/
theorem exec_configureFunction_of_ready (s : State) (pin : Nat) (h : pin < 58) (fn : Fn) (hL : LinesResolved s)
    (hr : (s.line ⟨pin, h⟩).state = .ready) :
    exec (.configureFunction pin fn) s = .next (s.proceed (.rmwAcquire
      { addr := resolve s.params ⟨pin, h⟩ .functionSelect
        width := 3
        value := BitVec.ofNat 32 fn.code
        note := some (⟨pin, h⟩, fn) })) := by
  rw [exec, execConfigureFunction, withReady_of_ready s pin h hr, lineAddr_of_ready s hL _ hr]

/-- Settles O53: CONFIGURE_FUNCTION is the read-modify-write of the FunctionSelect field that notes the code. -/
theorem configureFunctionWritesBackWordRead : Obligations.ConfigureFunctionWritesBackWordRead := by
  intro pin h fn s p a hv hL hr hacc ht hl
  obtain ⟨hcsr, hlines, hlock, hin, hgo⟩ :=
    rmw_interrupted s hv p .functionSelect rfl (BitVec.ofNat 32 fn.code) (some (p, fn)) hacc ht hl _ rfl
  exact ⟨_, exec_configureFunction_of_ready s pin h fn hL hr, hcsr, hlines, hlock, hin, hgo⟩

/-! ### At a lock that is held (R68) -/

/-- A command that enters a position whose lock is held waits there. -/
theorem proceed_waits (s : State) (hacc : s.accepted) (ph : Phase) (off : Nat) (hn : ph.needs = some off)
    (hl : s.lockFree off = false) : s.proceed ph = s.goto ph ∧ WaitsFor (s.goto ph) off := by
  obtain ⟨f, hf⟩ := inflight_of_accepted s hacc
  have hg : (s.goto ph).inflight = some { f with pos := ph } := by simp [hf]
  exact ⟨(waits_of_needs _ _ off hg hn hl).2 _, waitsFor_goto s ph off (by simp [hf]) hn⟩

/-- WRITE_LEVEL whose check finds OUTPUT and whose strobe word is locked: it waits after the read. -/
theorem proceed_checkFn_waits (s : State) (hacc : s.accepted) (ht : 1 ≤ s.turn) (fsel target : Resolved)
    (hf : fsel.extract 3 (s.memRead fsel.off) = 1) (hl : s.lockFree target.off = false) :
    s.proceed (.checkFn fsel target) = (s.busRead fsel.off).goto (.driveLevel target (target.strobeData 1)) ∧
      WaitsFor ((s.busRead fsel.off).goto (.driveLevel target (target.strobeData 1))) target.off := by
  obtain ⟨f, hfl⟩ := inflight_of_accepted s hacc
  obtain ⟨n, hn⟩ : ∃ n, s.turn = n + 1 := ⟨s.turn - 1, by omega⟩
  have hgo : (s.goto (.checkFn fsel target)).advance =
      (s.busRead fsel.off).goto (.driveLevel target (target.strobeData 1)) := by
    rw [advance_goto s f hfl, State.advanceFrom, memRead_goto, if_pos hf, busRead_goto, goto_goto]
  have hin : ((s.busRead fsel.off).goto (.driveLevel target (target.strobeData 1))).inflight =
      some { f with pos := .driveLevel target (target.strobeData 1) } := by simp [hfl]
  rw [State.proceed, hn, State.run, hgo]
  exact ⟨(waits_of_needs _ _ target.off hin rfl hl).2 n, waitsFor_goto _ _ _ (by simp [hfl]) rfl⟩

/-- Settles O19: each command enters, at once or after WRITE_LEVEL's check, the position at which its lock is taken. -/
theorem heldLockStopsWriter : Obligations.HeldLockStopsWriter := by
  refine ⟨?writeField, ?configureFunction, ?writeLevel⟩
  case writeField =>
    intro f pin h value i s a hi hacc hl
    rcases exec_ofWriteField f pin value i s hi with ⟨-, he⟩ | ⟨-, he⟩
    · rw [State.modifyFieldCommand, withPin_of_lt s pin h] at he
      obtain ⟨hgo, hw⟩ := proceed_waits s hacc (.rmwAcquire { addr := a, width := f.width, value := value, note := none })
        a.off rfl hl
      exact ⟨_, _, he.trans (congrArg _ hgo), rfl, rfl, hw⟩
    · rw [State.strobeFieldCommand, withPin_of_lt s pin h] at he
      obtain ⟨hgo, hw⟩ := proceed_waits s hacc (.strobeAcquire a (a.strobeData value)) a.off rfl hl
      exact ⟨_, _, he.trans (congrArg _ hgo), rfl, rfl, hw⟩
  case configureFunction =>
    intro pin h fn s p a hL hr hacc hl
    obtain ⟨hgo, hw⟩ := proceed_waits s hacc (.rmwAcquire
      { addr := a, width := 3, value := BitVec.ofNat 32 fn.code, note := some (p, fn) }) a.off rfl hl
    exact ⟨_, _, (exec_configureFunction_of_ready s pin h fn hL hr).trans (congrArg _ hgo), rfl, rfl, hw⟩
  case writeLevel =>
    intro pin h value s p a b hv hL hr hacc ht h01 hout hl
    obtain ⟨hgo, hw⟩ := proceed_checkFn_waits s hacc ht a b ((check_reads_field s hv p).trans hout) hl
    exact ⟨_, _, (writeLevel_enters pin h value s hL hr h01).trans (congrArg _ hgo), rfl, rfl,
      ⟨s.memRead a.off, memRead_readMask s hv p .functionSelect rfl, rfl⟩, hw⟩

end Sys2Proof.Machine
end

section
/-!
PROOFS. The controller's words on the bus: what a write and a read of each access type do, pin by pin (R58 to R62), and the
environment's moves, which are such accesses (R53, R63, R70).
-/

namespace Sys2Proof.Machine

/-! ### A write, by access type -/

/-- A write of a register word has that word's effect (R51, R54). -/
theorem memWrite_off (s : State) (hv : s.params.valid = true) (w : RegWord) (hw : w ∈ regWords) (v : Word) :
    s.memWrite (w.off s.params) v = s.writeWord w v := by
  rw [State.memWrite, locate_off _ hv w hw]

/-- A write of an unlisted offset has no effect (R53, U5). -/
theorem memWrite_unlisted (s : State) (off : Nat) (h : ∀ w ∈ regWords, w.off s.params ≠ off) (v : Word) :
    s.memWrite off v = s := by
  have hl : locate s.params off = none := List.find?_eq_none.2 fun w hw => by simpa using h w hw
  rw [State.memWrite, hl]

theorem memWrite_strobeWord (s : State) (hv : s.params.valid = true) (level : Bool) (k : Nat) (hk : k < 2) (v : Word) :
    s.memWrite (({ fam := if level then .set else .clear, idx := k } : RegWord).off s.params) v =
      (s.strobe k (v &&& (if level then Family.set else .clear).mask k) level).afterDraw := by
  cases level with
  | true => exact memWrite_off s hv { fam := .set, idx := k } ((mem_regWords _).2 hk) v
  | false => exact memWrite_off s hv { fam := .clear, idx := k } ((mem_regWords _).2 hk) v

/-! ### A pin's bit in the word of a one-bit family -/

theorem pinBit_eq_true (k : Nat) (v : Word) (p : PinIndex) :
    pinBit k v p = true ↔ p.val / 32 = k ∧ v.getLsbD (p.val % 32) = true := by
  simp [pinBit]

/-- The pin's bit is a valid bit of its word (R124). -/
theorem mask_pinBit (p : PinIndex) (f : Family) (hf : f.width = 1) :
    (f.mask (p.val / 32)).getLsbD (p.val % 32) = true := by
  have h := mask_bit p f 0 (by omega)
  rwa [oneBit_word p f hf, oneBit_shift p f hf, Nat.add_zero] at h

/-- Dropping the reserved bits of a word loses no pin's bit. -/
theorem pinBit_masked (p : PinIndex) (f : Family) (hf : f.width = 1) (k : Nat) (v : Word) :
    pinBit k (v &&& f.mask k) p = pinBit k v p := by
  by_cases hk : p.val / 32 = k
  · subst hk
    simp [pinBit, mask_pinBit p f hf]
  · have hne : (p.val / 32 == k) = false := by simpa using hk
    simp [pinBit, hne]

/-- A read answers the bit that the controller shows of the pin, whatever is drawn for the reserved bits. -/
theorem memRead_pinBit (s : State) (hv : s.params.valid = true) (w : RegWord) (hw : w ∈ regWords)
    (ha : w.fam.access ≠ .strobe) (hf : w.fam.width = 1) (p : PinIndex) (hp : p.val / 32 = w.idx) :
    (s.memRead (w.off s.params)).getLsbD (p.val % 32) = (s.shown w).getLsbD (p.val % 32) := by
  have h := congrArg (·.getLsbD (p.val % 32)) (memRead_valid s hv w hw ha)
  simpa [RegWord.mask, ← hp, mask_pinBit p w.fam hf] using h

/-! ### The four access types (R58, R60, R61, R62) -/

/-- Settles O45: the write is `memWrite_readWrite`; a read answers what is stored, on the word's valid bits. -/
theorem readWriteWord : Obligations.ReadWriteWord := by
  intro s w v hv hw ha
  have hwrite := memWrite_readWrite s hv w hw ha v
  refine ⟨hwrite, ⟨s.drawValue, ?read⟩, ?readBack, ?frame⟩
  case read => simp [State.memRead, locate_off _ hv w hw, State.shown, determinedBits, ha]
  case readBack =>
    have hread := memRead_valid { s with csr := Memory.write s.csr (w.off s.params) (v &&& w.mask) } hv w hw (by simp [ha])
    rw [hwrite]
    simpa [State.shown, ha, Memory.read_write, BitVec.and_assoc] using hread
  case frame =>
    simp only [State.environment]
    split <;> rfl

/-- Settles O46: the latches after the strobe, by the pin's bit of the word written. -/
theorem setClearWordWrite : Obligations.SetClearWordWrite := by
  intro s level k v hv hk f t
  have ht : t = (s.strobe k (v &&& f.mask k) level).afterDraw := memWrite_strobeWord s hv level k hk v
  have hf : f.width = 1 := by cases level <;> rfl
  have holat : ∀ p : PinIndex, t.olat[p] =
      if pinBit k v p then if s.isOutput p then level else s.drawValue.getLsbD (p.val % 32) else s.olat[p] := by
    intro p
    rw [ht, ← pinBit_masked p f hf]
    exact getElem_ofPins _ p
  refine ⟨by rw [ht]; rfl, fun p => ⟨fun hp hb hout => ?_, fun h => ?_⟩⟩
  · rw [holat, if_pos ((pinBit_eq_true k v p).2 ⟨hp, hb⟩), if_pos ((isOutput_iff s p).2 hout)]
  · have hb : ¬ pinBit k v p = true := by
      rw [pinBit_eq_true]
      rcases h with h | h <;> simp [h]
    rw [holat, if_neg hb]

/-- Settles O47: Level is read-only, and the word shown is made of the pins' levels. -/
theorem levelWord : Obligations.LevelWord := by
  intro s k v hv hk
  have hw : { fam := .level, idx := k } ∈ regWords := (mem_regWords _).2 hk
  refine ⟨memWrite_off s hv _ hw v, fun p hp => ?_⟩
  calc (s.memRead (0x34 + 4 * k)).getLsbD (p.val % 32)
      = (bitsOfWord k s.levelBit).getLsbD (p.val % 32) := memRead_pinBit s hv _ hw (by simp [Family.access]) rfl p hp
    _ = s.levelBit p := bitsOfWord_bit k _ p hp
    _ = if s.fieldValue .functionSelect p = 1 then s.olat[p] else s.pad[p] := levelBit_eq s p

/-- Settles O48: the word shown is made of the event latches, and a write clears by the pin's bit of the word written. -/
theorem eventStatusWord : Obligations.EventStatusWord := by
  intro s k v hv hk t
  have hw : { fam := .eventStatus, idx := k } ∈ regWords := (mem_regWords _).2 hk
  have ht : t = { s with eds := s.cleared k (v &&& Family.eventStatus.mask k) } := memWrite_off s hv _ hw v
  have heds : ∀ p : PinIndex, t.eds[p] = (s.eds[p] && !pinBit k v p) := by
    intro p
    rw [ht, ← pinBit_masked p .eventStatus rfl]
    exact getElem_ofPins _ p
  refine ⟨by rw [ht], fun p => ⟨fun hp => ⟨?_, ?_⟩, fun hp => ?_⟩⟩
  · exact (memRead_pinBit s hv _ hw (by simp [Family.access]) rfl p hp).trans
      (bitsOfWord_bit k (fun q => s.eds[q]) p hp)
  · simp [heds, pinBit, hp]
  · simp [heds, pinBit, hp]

/-! ### The environment's moves (R53, R63, R70) -/

/-- All that a write by another master can change: the registers, and the draws. -/
theorem memWrite_frame (s : State) (off : Nat) (v : Word) :
    s.memWrite off v =
      { s with
        csr := (s.memWrite off v).csr
        olat := (s.memWrite off v).olat
        eds := (s.memWrite off v).eds
        supply := (s.memWrite off v).supply
        drawn := (s.memWrite off v).drawn } := by
  ext1 <;> simp

/-- The register file does not look at the schedule. -/
theorem memWrite_withSched (s : State) (rest : List Move) (off : Nat) (v : Word) :
    { s with sched := rest }.memWrite off v = { s.memWrite off v with sched := rest } := by
  unfold State.memWrite
  cases locate s.params off with
  | none => rfl
  | some w =>
    obtain ⟨f, k⟩ := w
    cases f <;> rfl

theorem extAllowed_iff (s : State) (off : Nat) :
    s.extAllowed off = true ↔ s.params.extMaster = true ∧ off % 4 = 0 ∧ off < s.params.regionLen := by
  simp [State.extAllowed, and_assoc]

/-- Another master may access every register word (R5, R70). -/
theorem extAllowed_off (s : State) (hv : s.params.valid = true) (he : s.params.extMaster = true) (w : RegWord)
    (hw : w ∈ regWords) : s.extAllowed (w.off s.params) = true := by
  obtain ⟨-, -, hoff, -⟩ := (Params.valid_iff s.params).1 hv
  exact (extAllowed_iff s _).2 ⟨he, hoff w hw⟩

theorem extAllowed_of_outside (s : State) (off : Nat)
    (h : s.params.extMaster = false ∨ off % 4 ≠ 0 ∨ s.params.regionLen ≤ off) : s.extAllowed off = false := by
  rw [Bool.eq_false_iff, Ne, extAllowed_iff]
  rintro ⟨he, h4, hlt⟩
  rcases h with h | h | h
  · simp [he] at h
  · exact h h4
  · omega

/-- Settles O49: each move is scheduled and so is the step; an E3 is the access if it is allowed, and else nothing. -/
theorem environmentMoves : Obligations.EnvironmentMoves := by
  intro s m rest hv hp hs
  have hstep := step_of_sched s hv hp m rest hs
  refine ⟨?pad, ?event, ?word, ?unlisted, ?dropped, ?read, ?write⟩
  case pad =>
    rintro p b rfl
    exact hstep (by simp)
  case event =>
    rintro p rfl
    exact hstep (by simp)
  case word =>
    rintro w v hw rfl he
    rw [hstep (by simp), State.environment, if_pos (extAllowed_off { s with sched := rest } hv he w hw),
      memWrite_withSched]
  case unlisted =>
    rintro off v rfl hoff
    rw [hstep (by simp), State.environment, memWrite_unlisted { s with sched := rest } off hoff v, ite_self]
  case dropped =>
    intro off v hm hout
    have hno := extAllowed_of_outside { s with sched := rest } off hout
    rcases hm with rfl | rfl
    · rw [hstep (by simp), State.environment, hno]
      rfl
    · rw [hstep (by simp), State.environment, hno]
      rfl
  case read =>
    rintro off rfl
    refine ⟨_, hstep (by simp), ?_⟩
    rw [State.environment]
    split <;> rfl
  case write =>
    rintro off v rfl
    refine ⟨_, hstep (by simp), ?_⟩
    rw [State.environment]
    split
    · exact memWrite_frame { s with sched := rest } off v
    · rfl

end Sys2Proof.Machine
end

section
/-!
PROOFS. The commands on the register words: what READ_FIELD and READ_LEVEL answer, and what WRITE_FIELD and WRITE_LEVEL leave
when nothing disturbs them (R140, R145 to R147, R152, R175, R176).
-/

namespace Sys2Proof.Machine

/-! ### Reads (R140, R141, R176) -/

theorem exec_readField (f : Family) (pin : Nat) (h : pin < 58) (i : Instr) (s : State)
    (hi : Instr.ofReadField f pin = some i) :
    exec i s = .next ((s.busRead (resolve s.params ⟨pin, h⟩ f).off).respond (Response.value
      ((resolve s.params ⟨pin, h⟩ f).extract f.width (s.memRead (resolve s.params ⟨pin, h⟩ f).off)))) := by
  rw [exec_ofReadField f pin i s hi, State.readFieldCommand, withPin_of_lt s pin h]

/-- READ_LEVEL of a `Ready` line, given one further step, is the read of the pin's Level word (R176). -/
theorem exec_readLevel_of_ready (s : State) (pin : Nat) (h : pin < 58) (hL : LinesResolved s)
    (hr : (s.line ⟨pin, h⟩).state = .ready) (hacc : s.accepted) (ht : 1 ≤ s.turn) :
    exec (.readLevel pin) s = .next ((s.busRead (resolve s.params ⟨pin, h⟩ .level).off).respond (Response.value
      ((resolve s.params ⟨pin, h⟩ .level).extract 1 (s.memRead (resolve s.params ⟨pin, h⟩ .level).off)))) := by
  obtain ⟨f, hf⟩ := inflight_of_accepted s hacc
  rw [exec, execReadLevel, withReady_of_ready s pin h hr, lineAddr_of_ready s hL _ hr, proceed_readLevel s f hf _ ht]

theorem resolve_off_oneBit (ps : Params) (p : PinIndex) (f : Family) (hf : f.width = 1) :
    (resolve ps p f).off = f.baseOff ps + 4 * (p.val / 32) := by
  rw [resolve_off, RegWord.off, ofPin_fam, ofPin_idx, oneBit_word p f hf]

/-- The read of the pin's Level word leaves the frame, the answer and the transaction that O12 and O29 name. -/
theorem levelRead_result (s : State) (hv : s.params.valid = true) (p : PinIndex) (t : State)
    (ht : t = (s.busRead (resolve s.params p .level).off).respond (Response.value
      ((resolve s.params p .level).extract 1 (s.memRead (resolve s.params p .level).off)))) :
    t = { s with ports := t.ports, bus := t.bus, supply := t.supply, drawn := t.drawn } ∧
    t.ports = s.ports.modify s.active (Port.answer (Response.value
      (if (if s.fieldValue .functionSelect p = 1 then s.olat[p] else s.pad[p]) = true then 1 else 0))) ∧
    ∃ w : Word, t.bus = s.bus ++ [{ kind := .read, off := 0x34 + 4 * (p.val / 32), data := w }] := by
  rw [extract_memRead_level s hv p, levelBit_eq, resolve_off_oneBit s.params p .level rfl] at ht
  subst ht
  exact ⟨rfl, rfl, _, rfl⟩

/-- Settles O11: the read shows the stored word on its valid bits, and the pin's field lies in them. -/
theorem readFieldReturnsStoredField : Obligations.ReadFieldReturnsStoredField := by
  intro f pin h i s ha hi hv a
  refine ⟨_, exec_readField f pin h i s hi, rfl, ?_, s.memRead a.off, memRead_readMask s hv _ f ha, rfl⟩
  rw [extract_memRead_readWrite s hv _ f ha, extract_eq]
  rfl

/-- Settles O12: READ_FIELD of Level is the read of the pin's Level word. -/
theorem readFieldLevelReturnsPinLevel : Obligations.ReadFieldLevelReturnsPinLevel := by
  intro pin h s hv p
  exact ⟨_, exec_readField .level pin h _ s rfl, levelRead_result s hv p _ rfl⟩

/-- Settles O13: the word read shows the event latches. -/
theorem readFieldEventStatusReturnsLatch : Obligations.ReadFieldEventStatusReturnsLatch := by
  intro pin h s hv p
  refine ⟨_, exec_readField .eventStatus pin h _ s rfl, rfl, ?_, s.memRead (resolve s.params p .eventStatus).off, ?_⟩
  · rw [show Family.eventStatus.width = 1 from rfl, extract_memRead_events s hv p]
    rfl
  · rw [State.respond_bus, State.busRead_bus, resolve_off_oneBit s.params p .eventStatus rfl]
    rfl

/-- Settles O29: READ_LEVEL of a `Ready` line is the same read. -/
theorem readLevelReturnsPinLevel : Obligations.ReadLevelReturnsPinLevel := by
  intro pin h s p hv hL hr hacc ht
  exact ⟨_, exec_readLevel_of_ready s pin h hL hr hacc ht, levelRead_result s hv p _ rfl⟩

/-! ### Writes (R145, R146, R147, R152) -/

/-- WRITE_FIELD on Set and Clear, its lock free and its turn not interrupted, is one write (R147). -/
theorem exec_writeField_strobe (s : State) (hv : s.params.valid = true) (p : PinIndex) (level : Bool) (v : Word)
    (i : Instr) (hi : Instr.ofWriteField (if level then .set else .clear) p.val v = some i) (hu : s.undisturbed)
    (hl : s.lockFree (resolve s.params p (if level then .set else .clear)).off = true) :
    exec i s = .next (State.respond
      { s with
        olat := s.strobed (wordIndexOf p (if level then .set else .clear))
          ((resolve s.params p (if level then .set else .clear)).strobeData v &&&
            (RegWord.ofPin p (if level then .set else .clear)).mask) level
        bus := s.bus ++
          [{ kind := .write, off := (resolve s.params p (if level then .set else .clear)).off
             data := (resolve s.params p (if level then .set else .clear)).strobeData v }]
        supply := s.afterDraw.supply
        drawn := s.afterDraw.drawn } (Response.bare .ok)) := by
  rw [exec_ofWriteField_strobe _ p.val v i s (by cases level <;> rfl) hi, State.strobeFieldCommand,
    withPin_of_lt s p.val p.isLt]
  exact congrArg _ (strobe_undisturbed s hv p level _ hu hl)

/-- Settles O15: the latches after the one write are `strobed_getElem`'s. -/
theorem writeFieldStrobesPin : Obligations.WriteFieldStrobesPin := by
  intro level pin h value s hv hu p f i a hl
  have hf : f.width = 1 := by cases level <;> rfl
  have hi : Instr.ofWriteField f p.val value = some i := by cases level <;> rfl
  have holat := fun q => strobed_getElem s s.params p q f hf value level
  refine ⟨_, exec_writeField_strobe s hv p level value i hi hu hl, rfl, fun q hq => ?_, fun h0 => ?_, fun h1 hout => ?_,
    rfl, rfl⟩
  · exact (holat q).trans (if_neg fun hc => hq hc.1)
  · exact (holat p).trans (if_neg fun hc => Bool.false_ne_true (h0.symm.trans hc.2))
  · exact (holat p).trans ((if_pos ⟨rfl, h1⟩).trans (if_pos ((isOutput_iff s p).2 hout)))

/-- WRITE_FIELD on a read-write family, its lock free and its turn not interrupted: what it leaves of the registers (R146). -/
theorem exec_writeField_modify (s : State) (hv : s.params.valid = true) (p : PinIndex) (f : Family)
    (ha : f.access = .readWrite) (v : Word) (i : Instr) (hi : Instr.ofWriteField f p.val v = some i) (hu : s.undisturbed)
    (hl : s.lockFree (resolve s.params p f).off = true) :
    ∃ t, exec i s = .next t ∧ t.params = s.params ∧ t.olat = s.olat ∧
      t.csr = Memory.write s.csr (resolve s.params p f).off
        ((resolve s.params p f).merge f.width (Memory.read s.csr (resolve s.params p f).off) v) := by
  refine ⟨_, exec_ofWriteField_readWrite f p.val v i s ha hi, ?_⟩
  rw [State.modifyFieldCommand, withPin_of_lt s p.val p.isLt, rmw_undisturbed s hv p f ha v none hu hl]
  exact ⟨rfl, rfl, rfl⟩

theorem isOutput_congr {s t : State} (hp : t.params = s.params) (hc : t.csr = s.csr) (p : PinIndex) :
    t.isOutput p = s.isOutput p := by
  simp only [State.isOutput, State.functionCode, hp, hc]

/-- Strobing an output pin a second time changes no latch (R152). -/
theorem strobed_twice (s u : State) (p : PinIndex) (f : Family) (hf : f.width = 1) (v : Word) (level : Bool)
    (hout : s.isOutput p = true) (hp : u.params = s.params) (hc : u.csr = s.csr)
    (ho : u.olat = s.strobed (wordIndexOf p f) ((resolve s.params p f).strobeData v &&& (RegWord.ofPin p f).mask) level) :
    u.strobed (wordIndexOf p f) ((resolve u.params p f).strobeData v &&& (RegWord.ofPin p f).mask) level = u.olat := by
  refine pins_ext _ _ fun q => ?_
  rw [strobed_getElem u u.params p q f hf, isOutput_congr hp hc, hout, if_pos rfl, ho,
    strobed_getElem s s.params p q f hf, hout, if_pos rfl]
  split <;> rfl

/-- A strobe family is Set or Clear, which differ in the level (R60). -/
theorem strobe_family (f : Family) (ha : f.access = .strobe) : ∃ level : Bool, f = if level then .set else .clear := by
  cases f with
  | set => exact ⟨true, rfl⟩
  | clear => exact ⟨false, rfl⟩
  | _ => cases ha

/-- Settles O17: a merge of the word just merged is that word, and a strobe of an output just strobed changes no latch. -/
theorem writeFieldIdempotent : Obligations.WriteFieldIdempotent := by
  intro f p value i s hi hv hu hl hout
  rcases exec_ofWriteField f p.val value i s hi with ⟨ha, -⟩ | ⟨ha, -⟩
  · obtain ⟨t, het, hp, -, hc⟩ := exec_writeField_modify s hv p f ha value i hi hu hl
    refine ⟨t, het, fun u hup huc huo huu hul => ?_⟩
    rw [hp] at hup
    obtain ⟨v, hev, -, hvo, hvc⟩ := exec_writeField_modify u (hup ▸ hv) p f ha value i hi huu (hup ▸ hul)
    refine ⟨v, hev, ?_, hvo.trans huo⟩
    rw [hvc, huc, hc, hup, Memory.read_write, if_pos rfl, merge_merge, Memory.write_write]
  · obtain ⟨level, rfl⟩ := strobe_family f ha
    refine ⟨_, exec_writeField_strobe s hv p level value i hi hu hl, fun u hup huc huo huu hul => ?_⟩
    change u.params = s.params at hup
    refine ⟨_, exec_writeField_strobe u (hup ▸ hv) p level value i hi huu (hup ▸ hul), huc, ?_⟩
    exact (strobed_twice s u p _ (width_of_strobe _ ha) value level ((isOutput_iff s p).2 (hout ha)) hup huc huo).trans huo

/-! ### WRITE_LEVEL, and the level then read (R175, R176) -/

/-- The strobe of one output pin sets its latch to the level (R60). -/
theorem busWrite_strobe_output (s : State) (hv : s.params.valid = true) (p : PinIndex) (level : Bool)
    (hout : s.isOutput p = true) :
    s.busWrite (resolve s.params p (if level then .set else .clear)).off
        ((resolve s.params p (if level then .set else .clear)).strobeData 1) =
      { s with
        olat := s.olat.set p level
        bus := s.bus ++
          [{ kind := .write, off := (resolve s.params p (if level then .set else .clear)).off
             data := (resolve s.params p (if level then .set else .clear)).strobeData 1 }]
        supply := s.afterDraw.supply
        drawn := s.afterDraw.drawn } := by
  have hf : (if level then Family.set else .clear).width = 1 := by cases level <;> rfl
  rw [busWrite_strobe s hv, strobed_one s s.params p _ hf 1 rfl, hout, if_pos rfl]

/-- WRITE_LEVEL of 0 or 1 on an output, its lock free and its turn not interrupted: the check's read, then one strobe, which
drives the pin's latch (R175). -/
theorem exec_writeLevel_of_output (s : State) (pin : Nat) (h : pin < 58) (value : Word) (hv : s.params.valid = true)
    (hL : LinesResolved s) (hr : (s.line ⟨pin, h⟩).state = .ready) (hu : s.undisturbed) (h01 : value = 0 ∨ value = 1)
    (hout : s.fieldValue .functionSelect ⟨pin, h⟩ = 1)
    (hl : s.lockFree (resolve s.params ⟨pin, h⟩ (if value = 1 then .set else .clear)).off = true) :
    exec (.writeLevel pin value) s = .next (State.respond
      { s.busRead (resolve s.params ⟨pin, h⟩ .functionSelect).off with
        olat := s.olat.set (⟨pin, h⟩ : PinIndex) (decide (value = 1))
        bus := (s.busRead (resolve s.params ⟨pin, h⟩ .functionSelect).off).bus ++
          [{ kind := .write, off := (resolve s.params ⟨pin, h⟩ (if value = 1 then .set else .clear)).off
             data := (resolve s.params ⟨pin, h⟩ (if value = 1 then .set else .clear)).strobeData 1 }]
        supply := s.afterDraw.afterDraw.supply
        drawn := s.afterDraw.afterDraw.drawn } (Response.bare .ok)) := by
  obtain ⟨fl, hfl⟩ := inflight_of_accepted s hu.1
  have ht : 2 ≤ s.turn := le_trans (by decide) hu.2
  have hstrobe := fun level => busWrite_strobe_output (s.busRead (resolve s.params ⟨pin, h⟩ .functionSelect).off) hv
    ⟨pin, h⟩ level ((isOutput_iff s _).2 hout)
  rw [writeLevel_enters pin h value s hL hr h01, proceed_checkFn s fl hfl _ _ hl ht,
    if_pos ((check_reads_field s hv ⟨pin, h⟩).trans hout)]
  refine congrArg (fun u => Host.Outcome.next (State.respond u (Response.bare .ok))) ?_
  rcases h01 with rfl | rfl
  · exact hstrobe false
  · exact hstrobe true

/-- Settles O51: the latch driven is the one that Level shows of an output. -/
theorem writeLevelThenReadLevel : Obligations.WriteLevelThenReadLevel := by
  intro pin h value s p hv hL hr hu h01 hout hl
  refine ⟨_, exec_writeLevel_of_output s pin h value hv hL hr hu h01 hout hl, fun u hup huc huo hul huu => ?_⟩
  change u.params = s.params at hup
  have hline : ∀ q, u.line q = s.line q := line_congr s u hul
  have hLu : LinesResolved u := fun q => by rw [hline, hup]; exact hL q
  have ht : 1 ≤ u.turn := le_trans (by decide) huu.2
  have hlevel : u.levelBit p = decide (value = 1) := by
    rw [State.levelBit, isOutput_congr hup huc, (isOutput_iff s p).2 hout, if_pos rfl, huo]
    exact Vector.getElem_set_self p.isLt
  refine ⟨_, exec_readLevel_of_ready u pin h hLu (by rw [hline]; exact hr) huu.1 ht, ?_⟩
  rw [extract_memRead_level u (hup ▸ hv), hlevel]
  rcases h01 with rfl | rfl <;> rfl

/-! ### What no command changes (R62, R98, R212) -/

/-- Settles O33: a command's effect keeps what is outside the block. -/
theorem commandsLeavePadsAndEvents : Obligations.CommandsLeavePadsAndEvents := by
  intro i s t hv hL ht
  obtain ⟨hpad, hev, henv, hpar, hsch⟩ := effect_outsideKept s i t hv hL (effect_of_exec i s t ht)
  exact ⟨hpad, hev, henv, hsch, hpar⟩

end Sys2Proof.Machine
end

section
/-!
PROOFS. A hold is bounded: the port that holds a lock is never stopped by one (R68).
-/

namespace Sys2Proof.Machine

/-- The holder of a lock needs none, so its next step is enabled. -/
theorem enabled_of_held (s : State) (k off : Nat) (h : s.held k = some off) : s.enabled k = true := by
  obtain ⟨q, f, hq, hf, ho⟩ := (held_eq_some s k off).1 h
  have hn : f.pos.needs = none := by
    cases hn : f.pos.needs with
    | none => rfl
    | some off' => simp [Phase.holds_of_needs hn] at ho
  simp [State.enabled, hq, hf, hn]

/-- A port with work has an enabled step, or the holder of the lock that stops it has one. -/
theorem exists_enabled_of_work (s : State) (h : LocksHeld s) (k : Nat) (q : Port) (hq : s.ports[k]? = some q)
    (hw : q.inflight ≠ none ∨ q.pending ≠ []) : ∃ l, s.enabled l = true := by
  cases hi : q.inflight with
  | none =>
    have hp : q.pending ≠ [] := by simpa [hi] using hw
    exact ⟨k, by simpa [State.enabled, hq, hi] using hp⟩
  | some f =>
    cases hn : f.pos.needs with
    | none => exact ⟨k, by simp [State.enabled, hq, hi, hn]⟩
    | some off =>
      cases hl : Sparse.find off s.locks with
      | none => exact ⟨k, by simp [State.enabled, hq, hi, hn, State.lockFree, hl]⟩
      | some holder => exact ⟨holder, enabled_of_held s holder off ((((locksHeld_iff s).1 h).2 off holder).1 hl)⟩

/-- Only a port that exists is enabled, so the search for the first one finds it. -/
theorem firstEnabled_of_enabled (s : State) (l : Nat) (h : s.enabled l = true) : ∃ k, s.firstEnabled = some k := by
  have hlt : l < s.ports.length := by
    by_contra hge
    simp [State.enabled, List.getElem?_eq_none (Nat.le_of_not_lt hge)] at h
  exact Option.isSome_iff_exists.1 (List.find?_isSome.2 ⟨l, List.mem_range.2 hlt, h⟩)

/-- Settles O42: the port with work is enabled, or the one whose lock it waits for. -/
theorem somePortCanMove : Obligations.SomePortCanMove := by
  intro s k q hI hq hw
  obtain ⟨l, hl⟩ := exists_enabled_of_work s hI.locks k q hq hw
  exact firstEnabled_of_enabled s l hl

end Sys2Proof.Machine
end

section
/-!
PROOFS. The encoding: decoding inverts encoding on the well-formed commands, encoding inverts decoding on the legal words,
and the legal words are those of the table's rows (R90 to R98, R102).
-/

namespace Sys2Proof

/-! ### The fields of a command -/

/-- The fields of a legal command word and the command they stand for: the format has a family or the family is 0, it has
a function or the function is 0, and the pair of opcode and family is not refused (R91, R94, R98). -/
structure Instr.OfFields (i : Instr) (op : Op) (f : Family) (fn : Fn) (pin : Nat) (opnd : Word) : Prop where
  family   : op.format = .core ∨ f = .functionSelect
  function : op.format = .lineFn ∨ fn = .input
  instr    : Instr.ofFields op f fn pin opnd = some i

/-- A word made of a command's fields decodes to the command. -/
theorem Instr.OfFields.decode_eq {i : Instr} {op : Op} {f : Family} {fn : Fn} {pin : Nat} {opnd : Word}
    (h : i.OfFields op f fn pin opnd) (hp : pin < 65536) :
    decode (commandWord op.code f.code fn.code pin) opnd = .ok i := by
  have hf : ¬(op.format ≠ .core ∧ f ≠ .functionSelect) := by have := h.family; tauto
  have hn : ¬(op.format ≠ .lineFn ∧ fn.code ≠ 0) := by
    rintro ⟨hl, h0⟩
    exact h0 (by rw [h.function.resolve_left hl]; rfl)
  rw [decode_commandWord op f fn pin opnd hp, if_neg hf, if_neg hn, h.instr]

/-- The words that decode to a command are those made of its fields. -/
theorem decode_eq_ok_iff (cmd opnd : Word) (i : Instr) :
    decode cmd opnd = .ok i ↔
      ∃ op f fn, cmd = commandWord op.code f.code fn.code (pinField cmd) ∧ i.OfFields op f fn (pinField cmd) opnd := by
  constructor
  · intro h
    obtain ⟨op, f, fn, hc, hf, hn, hi⟩ := decode_ok cmd opnd i h
    exact ⟨op, f, fn, hc, hf, hn, hi⟩
  · rintro ⟨op, f, fn, hc, h⟩
    have hd := h.decode_eq (pinField_lt cmd)
    rwa [← hc] at hd

/-- Every command has fields, with its own pin (R92). -/
theorem Instr.exists_ofFields (i : Instr) : ∃ op f fn opnd, i.OfFields op f fn i.pin opnd := by
  cases i with
  | resolveFunctionSelect pin => exact ⟨.resolve, .functionSelect, .input, 0, .inl rfl, .inr rfl, rfl⟩
  | resolveSet pin => exact ⟨.resolve, .set, .input, 0, .inl rfl, .inr rfl, rfl⟩
  | resolveClear pin => exact ⟨.resolve, .clear, .input, 0, .inl rfl, .inr rfl, rfl⟩
  | resolveLevel pin => exact ⟨.resolve, .level, .input, 0, .inl rfl, .inr rfl, rfl⟩
  | resolveEventStatus pin => exact ⟨.resolve, .eventStatus, .input, 0, .inl rfl, .inr rfl, rfl⟩
  | resolveRisingEdge pin => exact ⟨.resolve, .risingEdge, .input, 0, .inl rfl, .inr rfl, rfl⟩
  | resolveFallingEdge pin => exact ⟨.resolve, .fallingEdge, .input, 0, .inl rfl, .inr rfl, rfl⟩
  | resolveHighLevel pin => exact ⟨.resolve, .highLevel, .input, 0, .inl rfl, .inr rfl, rfl⟩
  | resolveLowLevel pin => exact ⟨.resolve, .lowLevel, .input, 0, .inl rfl, .inr rfl, rfl⟩
  | resolveAsyncRising pin => exact ⟨.resolve, .asyncRising, .input, 0, .inl rfl, .inr rfl, rfl⟩
  | resolveAsyncFalling pin => exact ⟨.resolve, .asyncFalling, .input, 0, .inl rfl, .inr rfl, rfl⟩
  | resolvePullConfig pin => exact ⟨.resolve, .pullConfig, .input, 0, .inl rfl, .inr rfl, rfl⟩
  | readFieldFunctionSelect pin => exact ⟨.readField, .functionSelect, .input, 0, .inl rfl, .inr rfl, rfl⟩
  | readFieldLevel pin => exact ⟨.readField, .level, .input, 0, .inl rfl, .inr rfl, rfl⟩
  | readFieldEventStatus pin => exact ⟨.readField, .eventStatus, .input, 0, .inl rfl, .inr rfl, rfl⟩
  | readFieldRisingEdge pin => exact ⟨.readField, .risingEdge, .input, 0, .inl rfl, .inr rfl, rfl⟩
  | readFieldFallingEdge pin => exact ⟨.readField, .fallingEdge, .input, 0, .inl rfl, .inr rfl, rfl⟩
  | readFieldHighLevel pin => exact ⟨.readField, .highLevel, .input, 0, .inl rfl, .inr rfl, rfl⟩
  | readFieldLowLevel pin => exact ⟨.readField, .lowLevel, .input, 0, .inl rfl, .inr rfl, rfl⟩
  | readFieldAsyncRising pin => exact ⟨.readField, .asyncRising, .input, 0, .inl rfl, .inr rfl, rfl⟩
  | readFieldAsyncFalling pin => exact ⟨.readField, .asyncFalling, .input, 0, .inl rfl, .inr rfl, rfl⟩
  | readFieldPullConfig pin => exact ⟨.readField, .pullConfig, .input, 0, .inl rfl, .inr rfl, rfl⟩
  | writeFieldFunctionSelect pin v => exact ⟨.writeField, .functionSelect, .input, v, .inl rfl, .inr rfl, rfl⟩
  | writeFieldSet pin v => exact ⟨.writeField, .set, .input, v, .inl rfl, .inr rfl, rfl⟩
  | writeFieldClear pin v => exact ⟨.writeField, .clear, .input, v, .inl rfl, .inr rfl, rfl⟩
  | writeFieldRisingEdge pin v => exact ⟨.writeField, .risingEdge, .input, v, .inl rfl, .inr rfl, rfl⟩
  | writeFieldFallingEdge pin v => exact ⟨.writeField, .fallingEdge, .input, v, .inl rfl, .inr rfl, rfl⟩
  | writeFieldHighLevel pin v => exact ⟨.writeField, .highLevel, .input, v, .inl rfl, .inr rfl, rfl⟩
  | writeFieldLowLevel pin v => exact ⟨.writeField, .lowLevel, .input, v, .inl rfl, .inr rfl, rfl⟩
  | writeFieldAsyncRising pin v => exact ⟨.writeField, .asyncRising, .input, v, .inl rfl, .inr rfl, rfl⟩
  | writeFieldAsyncFalling pin v => exact ⟨.writeField, .asyncFalling, .input, v, .inl rfl, .inr rfl, rfl⟩
  | writeFieldPullConfig pin v => exact ⟨.writeField, .pullConfig, .input, v, .inl rfl, .inr rfl, rfl⟩
  | request pin => exact ⟨.request, .functionSelect, .input, 0, .inr rfl, .inr rfl, rfl⟩
  | configureFunction pin fn => exact ⟨.configureFunction, .functionSelect, fn, 0, .inr rfl, .inl rfl, rfl⟩
  | writeLevel pin v => exact ⟨.writeLevel, .functionSelect, .input, v, .inr rfl, .inr rfl, rfl⟩
  | readLevel pin => exact ⟨.readLevel, .functionSelect, .input, 0, .inr rfl, .inr rfl, rfl⟩
  | release pin => exact ⟨.release, .functionSelect, .input, 0, .inr rfl, .inr rfl, rfl⟩

/-! ### The encoder on a command's fields (R95, R102) -/

theorem encode_ofResolve (f : Family) (pin : Nat) : encode (Instr.ofResolve f pin) = encodeCore .resolve f pin 0 := by
  cases f <;> rfl

theorem encode_ofReadField {f : Family} {pin : Nat} {i : Instr} (hi : Instr.ofReadField f pin = some i) :
    encode i = encodeCore .readField f pin 0 := by
  cases f <;> cases hi <;> rfl

theorem encode_ofWriteField {f : Family} {pin : Nat} {v : Word} {i : Instr} (hi : Instr.ofWriteField f pin v = some i) :
    encode i = encodeCore .writeField f pin v := by
  cases f <;> cases hi <;> rfl

theorem pin_ofFields {op : Op} {f : Family} {fn : Fn} {pin : Nat} {opnd : Word} {i : Instr}
    (hi : Instr.ofFields op f fn pin opnd = some i) : i.pin = pin := by
  cases op with
  | resolve | readField | writeField => cases f <;> cases hi <;> rfl
  | _ => cases hi; rfl

/-- The encoder makes a command's word of its fields, and keeps the operand word of WRITE_FIELD and WRITE_LEVEL; for
every other opcode it presents 0, and whatever operand word stands there is ignored (R95). -/
theorem Instr.OfFields.encode_eq {i : Instr} {op : Op} {f : Family} {fn : Fn} {pin : Nat} {opnd : Word}
    (h : i.OfFields op f fn pin opnd) :
    encode i = { cmd := commandWord op.code f.code fn.code pin, opnd := opnd } ∨
      (encode i = { cmd := commandWord op.code f.code fn.code pin, opnd := 0 } ∧
        ∀ o : Word, i.OfFields op f fn pin o) := by
  obtain ⟨hf, hn, hi⟩ := h
  cases op with
  | resolve =>
    obtain rfl : fn = .input := by simpa [Op.format] using hn
    cases hi
    exact .inr ⟨encode_ofResolve f pin, fun _ => ⟨hf, hn, rfl⟩⟩
  | readField =>
    obtain rfl : fn = .input := by simpa [Op.format] using hn
    exact .inr ⟨encode_ofReadField hi, fun _ => ⟨hf, hn, hi⟩⟩
  | writeField =>
    obtain rfl : fn = .input := by simpa [Op.format] using hn
    exact .inl (encode_ofWriteField hi)
  | configureFunction =>
    obtain rfl : f = .functionSelect := by simpa [Op.format] using hf
    cases hi
    exact .inr ⟨rfl, fun _ => ⟨hf, hn, rfl⟩⟩
  | writeLevel =>
    obtain rfl : f = .functionSelect := by simpa [Op.format] using hf
    obtain rfl : fn = .input := by simpa [Op.format] using hn
    cases hi
    exact .inl rfl
  | request | readLevel | release =>
    obtain rfl : f = .functionSelect := by simpa [Op.format] using hf
    obtain rfl : fn = .input := by simpa [Op.format] using hn
    cases hi
    exact .inr ⟨rfl, fun _ => ⟨hf, hn, rfl⟩⟩

/-! ### The two round trips -/

/-- Settles O2: the encoder makes the word of the command's fields, and the word of fields decodes to their command. -/
theorem decodeEncodeRoundTrip : Obligations.DecodeEncodeRoundTrip := by
  intro i hw
  have hp : i.pin < 65536 := of_decide_eq_true hw
  obtain ⟨op, f, fn, opnd, h⟩ := i.exists_ofFields
  rcases h.encode_eq with he | ⟨he, hall⟩ <;> rw [he]
  · exact h.decode_eq hp
  · exact (hall 0).decode_eq hp

/-- Settles O3: a legal word is made of the fields of its command, of which the encoder makes it again. -/
theorem encodeDecodeRoundTrip : Obligations.EncodeDecodeRoundTrip := by
  intro cmd opnd i hd
  obtain ⟨op, f, fn, hc, h⟩ := (decode_eq_ok_iff cmd opnd i).1 hd
  have hw : i.wellFormed = true := decide_eq_true (pin_ofFields h.instr ▸ pinField_lt cmd)
  refine ⟨hw, ?_⟩
  rcases h.encode_eq with he | ⟨he, hall⟩ <;> rw [he]
  · exact ⟨hc.symm, .inl rfl⟩
  · exact ⟨hc.symm, .inr ⟨rfl, fun o => (decode_eq_ok_iff cmd o i).2 ⟨op, f, fn, hc, hall o⟩⟩⟩

/-- Settles O1: each word is decoded by running the decoder. -/
theorem specWordsDecode : Obligations.SpecWordsDecode := by
  unfold Obligations.SpecWordsDecode
  decide

end Sys2Proof
end

section
/-!
PROOFS. The opcode table: a row is the words of one legal pair of opcode and family, which are those that decode
(R92, R97, R98).
-/

namespace Sys2Proof

/-! ### The legal pairs of opcode and family (R92, R98) -/

/-- The pairs of opcode and family that R98 refuses. -/
def refusedPair : Op → Family → Bool
  | .readField, .set => true
  | .readField, .clear => true
  | .writeField, .level => true
  | .writeField, .eventStatus => true
  | _, _ => false

/-- Fields stand for a command unless their opcode and family are refused; the other fields do not matter. -/
theorem ofFields_eq_none_iff (op : Op) (f : Family) (fn : Fn) (pin : Nat) (opnd : Word) :
    Instr.ofFields op f fn pin opnd = none ↔ refusedPair op f = true := by
  cases op with
  | readField | writeField => cases f <;> simp [Instr.ofFields, Instr.ofReadField, Instr.ofWriteField, refusedPair]
  | _ => simp [Instr.ofFields, refusedPair]

/-- The eight opcodes, by code (R92). -/
def opcodes : List Op :=
  [.resolve, .readField, .writeField, .request, .configureFunction, .writeLevel, .readLevel, .release]

theorem mem_opcodes (op : Op) : op ∈ opcodes := by cases op <;> decide

/-- The pairs of which there are legal words: a family other than 0 needs a format with one, and the pair is not refused. -/
def legalPairs : List (Op × Family) :=
  (opcodes.product families).filter fun h => (h.1.format == .core || h.2 == .functionSelect) && !refusedPair h.1 h.2

theorem mem_legalPairs (op : Op) (f : Family) :
    (op, f) ∈ legalPairs ↔ (op.format = .core ∨ f = .functionSelect) ∧ refusedPair op f = false := by
  simp [legalPairs, mem_opcodes, mem_families]

/-! ### Rows -/

/-- The bits a row of the opcode fixes: all above the pin, but not the function's where the format has one (R91). -/
def rowMask (op : Op) : Word := if op.format = .lineFn then 0xFFF80000 else 0xFFFF0000

/-- The table's rows are those of the legal pairs. -/
theorem opcodeRows_bits :
    opcodeRows.map (fun r => (r.bits, r.mask)) =
      legalPairs.map fun h => (commandWord h.1.code h.2.code 0 0, rowMask h.1) := by decide

/-- A word is of a row of the table when it is of the row of a legal pair. -/
theorem exists_row_iff (cmd : Word) :
    (∃ r ∈ opcodeRows, r.holds cmd = true) ↔
      ∃ op f, (op, f) ∈ legalPairs ∧ cmd &&& rowMask op = commandWord op.code f.code 0 0 := by
  have h := congrArg (fun l => ∃ b ∈ l, cmd &&& b.2 = b.1) opcodeRows_bits
  simp only [List.mem_map, exists_exists_and_eq_and, eq_iff_iff] at h
  simpa only [OpcodeRow.holds, beq_iff_eq, Prod.exists] using h

/-- Under a mask of the bits from `k` on, a word is its value without the `k` low bits. -/
theorem and_mask_eq_iff (k : Nat) (mask : Word) (hm : ∀ n : Fin 32, mask.getLsbD n.val = decide (k ≤ n.val))
    (cmd b : Word) : cmd &&& mask = b ↔ 2 ^ k * (cmd.toNat / 2 ^ k) = b.toNat := by
  have h := Laws.MatchesRow.and_upper k mask hm (cmd.toNat / 2 ^ k) _ (Nat.mod_lt cmd.toNat (Nat.two_pow_pos k))
  rw [Nat.div_add_mod, BitVec.ofNat_toNat, BitVec.setWidth_eq] at h
  have hlt : 2 ^ k * (cmd.toNat / 2 ^ k) < 2 ^ 32 := lt_of_le_of_lt (Nat.mul_div_le _ _) cmd.isLt
  rw [h, ← BitVec.toNat_inj, BitVec.toNat_ofNat, Nat.mod_eq_of_lt hlt]

/-- A word is of a pair's row when it is made of the pair's codes, and of a function where the format has one. -/
theorem of_row_iff (op : Op) (f : Family) (cmd : Word) :
    cmd &&& rowMask op = commandWord op.code f.code 0 0 ↔
      ∃ fn : Fn, (op.format = .lineFn ∨ fn = .input) ∧ cmd = commandWord op.code f.code fn.code (pinField cmd) := by
  have hb := toNat_commandWord op.code f.code 0 0 op.code_lt f.code_lt (by decide) (by decide)
  have hw (fn : Fn) := toNat_commandWord op.code f.code fn.code _ op.code_lt f.code_lt fn.code_lt (pinField_lt cmd)
  by_cases hl : op.format = .lineFn
  · have hm : rowMask op = 0xFFF80000 := if_pos hl
    rw [hm, and_mask_eq_iff 19 _ (by decide), hb]
    constructor
    · intro h
      have hn : fnField cmd < 8 := Nat.mod_lt _ (by decide)
      refine ⟨Fn.ofCode (fnField cmd), .inl hl, BitVec.eq_of_toNat_eq ?_⟩
      rw [hw, Fn.code_ofCode _ hn, fnField, pinField]
      omega
    · rintro ⟨fn, -, h⟩
      have hn := fn.code_lt
      have hp := pinField_lt cmd
      rw [h, hw]
      omega
  · have hm : rowMask op = 0xFFFF0000 := if_neg hl
    rw [hm, and_mask_eq_iff 16 _ (by decide), hb]
    constructor
    · intro h
      refine ⟨.input, .inr rfl, BitVec.eq_of_toNat_eq ?_⟩
      rw [hw, Fn.code, pinField]
      omega
    · rintro ⟨fn, hn, h⟩
      obtain rfl := hn.resolve_left hl
      have hp := pinField_lt cmd
      rw [h, hw, Fn.code]
      omega

/-- Two rows that differ where both masks look have no word in common. -/
theorem not_holds_both (a b : OpcodeRow) (h : a.bits &&& b.mask ≠ b.bits &&& a.mask) (cmd : Word) :
    ¬(a.holds cmd = true ∧ b.holds cmd = true) := by
  rintro ⟨ha, hb⟩
  rw [OpcodeRow.holds, beq_iff_eq] at ha hb
  apply h
  rw [← ha, ← hb, BitVec.and_assoc, BitVec.and_assoc, BitVec.and_comm a.mask]

theorem opcodeRows_differ : opcodeRows.Pairwise fun a b => a.bits &&& b.mask ≠ b.bits &&& a.mask := by decide

/-- The legal words are those of the table's rows: both are the words of a legal pair. -/
theorem exists_decode_iff (cmd opnd : Word) :
    (∃ i, decode cmd opnd = .ok i) ↔ ∃ r ∈ opcodeRows, r.holds cmd = true := by
  rw [exists_row_iff]
  constructor
  · rintro ⟨i, hd⟩
    obtain ⟨op, f, fn, hc, hf, hn, hi⟩ := (decode_eq_ok_iff cmd opnd i).1 hd
    have hr : refusedPair op f = false := by
      rw [← Bool.not_eq_true, ← ofFields_eq_none_iff op f fn (pinField cmd) opnd, hi]; simp
    exact ⟨op, f, (mem_legalPairs op f).2 ⟨hf, hr⟩, (of_row_iff op f cmd).2 ⟨fn, hn, hc⟩⟩
  · rintro ⟨op, f, hm, hrow⟩
    obtain ⟨hf, hr⟩ := (mem_legalPairs op f).1 hm
    obtain ⟨fn, hn, hc⟩ := (of_row_iff op f cmd).1 hrow
    obtain ⟨i, hi⟩ : ∃ i, Instr.ofFields op f fn (pinField cmd) opnd = some i := by
      rw [← Option.ne_none_iff_exists', ne_eq, ofFields_eq_none_iff, hr]; simp
    exact ⟨i, (decode_eq_ok_iff cmd opnd i).2 ⟨op, f, fn, hc, hf, hn, hi⟩⟩

/-- Settles O4: two rows differ in bits that both fix, and the rows are those of the legal pairs. -/
theorem legalWordsAreTableRows : Obligations.LegalWordsAreTableRows :=
  ⟨rfl, fun cmd => opcodeRows_differ.imp fun h => not_holds_both _ _ h cmd, exists_decode_iff⟩

end Sys2Proof
end

section
/-!
PROOFS. Illegal words: the tests of R97 in their order, and the step that answers one. With it two more commands whose
first step answers: RESOLVE, and a REQUEST that fails.
-/

namespace Sys2Proof

/-! ### The tests on codes (R92, R93, R97, R98) -/

theorem Op.format_eq_core_iff (op : Op) : op.format = .core ↔ op.code ∈ [0x01, 0x02, 0x03] := by
  cases op <;> decide

theorem Op.format_ne_core_iff (op : Op) : op.format ≠ .core ↔ op.code ∈ [0x10, 0x11, 0x12, 0x13, 0x14] := by
  cases op <;> decide

theorem Op.format_eq_lineFn_iff (op : Op) : op.format = .lineFn ↔ op.code = 0x11 := by
  cases op <;> decide

theorem Family.eq_functionSelect_iff (f : Family) : f = .functionSelect ↔ f.code = 0 := by
  cases f <;> decide

/-- The refused pairs by their codes (R98). -/
theorem refusedPair_iff_code (op : Op) (f : Family) :
    refusedPair op f = true ↔ (op.code = 0x02 ∧ f.code ∈ [1, 2]) ∨ (op.code = 0x03 ∧ f.code ∈ [3, 4]) := by
  cases op with
  | readField | writeField => cases f <;> decide
  | _ => simp [refusedPair, Op.code]

/-! ### The first test a word fails (R97) -/

/-- The test of R97 that makes a word illegal, on the numbers in its fields: the first of (a) to (e) that holds. -/
def illegalBy (cmd : Word) : Option Illegal :=
  if opField cmd ∉ [0x01, 0x02, 0x03, 0x10, 0x11, 0x12, 0x13, 0x14] then some .reservedOpcode
  else if zeroField cmd ≠ 0 then some .mustBeZero
  else if (opField cmd ∈ [0x01, 0x02, 0x03] ∧ 12 ≤ famField cmd) ∨
      (opField cmd ∈ [0x10, 0x11, 0x12, 0x13, 0x14] ∧ famField cmd ≠ 0) then some .reservedFamily
  else if opField cmd ≠ 0x11 ∧ fnField cmd ≠ 0 then some .unusedFunction
  else if (opField cmd = 0x02 ∧ famField cmd ∈ [1, 2]) ∨ (opField cmd = 0x03 ∧ famField cmd ∈ [3, 4]) then
    some .refusedPair
  else none

/-- R97 (c) for a listed opcode: the family's code is reserved, or the format has no family and the code is not 0. -/
theorem reservedFamily_iff (op : Op) (n : Nat) :
    ((op.code ∈ [0x01, 0x02, 0x03] ∧ 12 ≤ n) ∨ (op.code ∈ [0x10, 0x11, 0x12, 0x13, 0x14] ∧ n ≠ 0)) ↔
      Family.ofCode n = none ∨ (op.format ≠ .core ∧ n ≠ 0) := by
  rw [← op.format_eq_core_iff, ← op.format_ne_core_iff, Family.ofCode_eq_none]
  by_cases hc : op.format = .core
  · simp [hc]
  · simp only [hc, false_and, ne_eq, not_false_eq_true, true_and, false_or]
    omega

/-- The decoder rejects a word by the first test it fails, and a word that fails none decodes. -/
theorem decode_cases (cmd opnd : Word) :
    (∃ why, illegalBy cmd = some why ∧ decode cmd opnd = .error why) ∨
      (illegalBy cmd = none ∧ ∃ i, decode cmd opnd = .ok i) := by
  cases ho : Op.ofCode (opField cmd) with
  | none => exact .inl ⟨.reservedOpcode, if_pos ((Op.ofCode_eq_none _).1 ho), by simp only [decode, ho]⟩
  | some op =>
    have ha : ¬opField cmd ∉ [0x01, 0x02, 0x03, 0x10, 0x11, 0x12, 0x13, 0x14] := by
      rw [← Op.ofCode_eq_none, ho]; simp
    have hop := (Op.ofCode_eq_some _ _).1 ho
    rw [illegalBy, if_neg ha]
    by_cases hz : zeroField cmd ≠ 0
    · exact .inl ⟨.mustBeZero, if_pos hz, by simp only [decode, ho, if_pos hz]⟩
    rw [if_neg hz, hop]
    simp only [reservedFamily_iff]
    cases hf : Family.ofCode (famField cmd) with
    | none => exact .inl ⟨.reservedFamily, if_pos (.inl rfl), by simp only [decode, ho, if_neg hz, hf]⟩
    | some f =>
      have hfam := (Family.ofCode_eq_some _ _).1 hf
      have hn : fnField cmd = (Fn.ofCode (fnField cmd)).code := (Fn.code_ofCode _ (Nat.mod_lt _ (by decide))).symm
      rw [decode_of_fields cmd op f _ _ opnd hop hfam (not_not.1 hz) hn rfl, ← hn, hfam]
      simp only [← refusedPair_iff_code, ← ofFields_eq_none_iff op f (Fn.ofCode (fnField cmd)) (pinField cmd) opnd,
        op.format_eq_lineFn_iff, f.eq_functionSelect_iff, reduceCtorEq, false_or, ne_eq]
      by_cases hc : ¬op.format = .core ∧ ¬f.code = 0
      · simp [hc]
      by_cases hd : ¬op.code = 0x11 ∧ ¬fnField cmd = 0
      · simp [hc, hd]
      cases Instr.ofFields op f (Fn.ofCode (fnField cmd)) (pinField cmd) opnd <;> simp [hc, hd]

theorem decode_eq_error_iff (cmd opnd : Word) (why : Illegal) :
    decode cmd opnd = .error why ↔ illegalBy cmd = some why := by
  rcases decode_cases cmd opnd with ⟨w, hb, hd⟩ | ⟨hb, i, hd⟩ <;> simp [hb, hd]

/-- The tests in their order, each made only when the ones before it fail. -/
theorem firstTest_iff {a b c d e : Prop} [Decidable a] [Decidable b] [Decidable c] [Decidable d] [Decidable e]
    (r : Option Illegal)
    (hr : r = if a then some .reservedOpcode else if b then some .mustBeZero else if c then some .reservedFamily
      else if d then some .unusedFunction else if e then some .refusedPair else none) :
    (r = some .reservedOpcode ↔ a) ∧
    (r = some .mustBeZero ↔ ¬a ∧ b) ∧
    (r = some .reservedFamily ↔ ¬a ∧ ¬b ∧ c) ∧
    (r = some .unusedFunction ↔ ¬a ∧ ¬b ∧ ¬c ∧ d) ∧
    (r = some .refusedPair ↔ ¬a ∧ ¬b ∧ ¬c ∧ ¬d ∧ e) := by
  subst hr
  by_cases ha : a
  · simp [ha]
  · by_cases hb : b
    · simp [ha, hb]
    · by_cases hc : c
      · simp [ha, hb, hc]
      · by_cases hd : d <;> simp [ha, hb, hc, hd]

end Sys2Proof

namespace Sys2Proof.Machine

/-- The port of the turn is idle and its oldest command is illegal: the turn takes the command and answers it. -/
theorem portTurn_rejects (s : State) (q : Port) (cmd opnd : Word) (cs : List (Word × Word)) (why : Illegal)
    (hq : s.ports[s.active]? = some q) (hi : q.inflight = none) (hp : q.pending = (cmd, opnd) :: cs)
    (hd : decode cmd opnd = .error why) :
    portTurn s = .next
      { s with
        ports := s.ports.modify s.active fun p =>
          { p with pending := cs, responses := p.responses ++ [Response.bare .illegalCommand] } } := by
  rw [portTurn_of_illegal s q (cmd, opnd) cs why hq hi hp hd]
  have hm : s.accept.ports.modify s.active (Port.answer (Response.bare .illegalCommand)) =
      s.ports.modify s.active fun p =>
        { p with pending := cs, responses := p.responses ++ [Response.bare .illegalCommand] } := by
    rw [State.accept, State.onPort_ports, modify_modify]
    exact modify_congr _ _ q _ _ hq (by simp [Port.answer, hp, hi])
  exact congrArg (fun l => Host.Outcome.next { s with ports := l }) hm

/-- Settles O5: a word is rejected by the first test it fails, and the turn that takes it answers. -/
theorem illegalCommands : Obligations.IllegalCommands := by
  constructor
  · intro cmd opnd
    simp only [decode_eq_error_iff]
    exact firstTest_iff (illegalBy cmd) rfl
  · intro s k more rest q cmd opnd cs why hv hs hq hi hp hd
    have hports : s.ports ≠ [] := by rintro h; simp [h] at hq
    rw [step_of_port s hv hports k more (nextMove_of_sched s _ rest hs), afterMove_of_sched s _ rest hs]
    exact portTurn_rejects _ q cmd opnd cs why hq hi hp hd

/-! ### Two commands that answer at once (R120, R171) -/

/-- Settles O8: RESOLVE of a valid pin answers the resolver's address. -/
theorem resolveAnswersAddress : Obligations.ResolveAnswersAddress := by
  intro f pin s h
  rw [exec_ofResolve, State.resolveCommand, withPin_of_lt s pin h]
  rfl

/-- A REQUEST of a pin that is not `Ready` answers the failure of the environment that takes effect. -/
theorem request_of_failure (pin : Nat) (h : pin < 58) (s : State) (hl : (s.line ⟨pin, h⟩).state ≠ .ready) (st : Status)
    (hf : s.requestFailure = some st) : exec (.request pin) s = .next (s.raise st) := by
  rw [exec, execRequest, withPin_of_lt s pin h, if_neg hl, hf]

/-- Settles O21: under each of the three conditions the failure takes effect. -/
theorem requestFailureStatuses : Obligations.RequestFailureStatuses := by
  intro pin h s hl
  refine ⟨fun he h0 => ?_, fun he h0 => ?_, fun he => ?_⟩
  · exact request_of_failure pin h s hl _ (by simp [State.requestFailure, he, h0])
  · exact request_of_failure pin h s hl _ (by simp [State.requestFailure, he, h0])
  · exact request_of_failure pin h s hl _ (by simp [State.requestFailure, he])

end Sys2Proof.Machine
end

section
/-!
PROOFS. The resolver's laws L1 to L7 (R128): the fields of the pins of a word are apart and fill its mask, and the word
index and the shift determine the pin.
-/

namespace Sys2Proof

theorem width_pos (f : Family) : 0 < f.width := by
  cases f <;> decide

/-- The fields of a full word fit the word (R24). -/
theorem pinsPerWord_mul_width_le (f : Family) : f.pinsPerWord * f.width ≤ 32 := by
  cases f <;> decide

/-! ### The masks, as so many fields from bit 0 on (R124) -/

/-- Every word but the last has `G` pins. -/
theorem fullMask_eq (f : Family) : f.fullMask = BitVec.ofNat 32 (2 ^ (f.pinsPerWord * f.width) - 1) := by
  cases f <;> rfl

/-- The last word has the pins that the words before it leave of the 58. -/
theorem lastMask_eq (f : Family) :
    f.lastMask = BitVec.ofNat 32 (2 ^ ((58 - (f.wordCount - 1) * f.pinsPerWord) * f.width) - 1) := by
  cases f <;> rfl

/-- The last word has a pin, and the words together have room for the 58. -/
theorem pins_of_words (f : Family) :
    (f.wordCount - 1) * f.pinsPerWord < 58 ∧ 58 ≤ (f.wordCount - 1) * f.pinsPerWord + f.pinsPerWord := by
  cases f <;> decide

/-- The valid bits of a word are those of as many fields as the word has pins. -/
theorem mask_eq (f : Family) (k : Nat) (hk : k < f.wordCount) :
    f.mask k = BitVec.ofNat 32 (2 ^ (min f.pinsPerWord (58 - k * f.pinsPerWord) * f.width) - 1) := by
  have hpins := pins_of_words f
  by_cases hlast : k = f.wordCount - 1
  · rw [Family.mask, if_pos hlast, lastMask_eq, hlast, min_eq_right (by omega)]
  · have hle : (k + 1) * f.pinsPerWord ≤ (f.wordCount - 1) * f.pinsPerWord := Nat.mul_le_mul_right _ (by omega)
    rw [Nat.add_one_mul] at hle
    rw [Family.mask, if_neg hlast, fullMask_eq, min_eq_left (by omega)]

/-- A bit is valid when the field it lies in is that of a pin of the word. -/
theorem mask_bit_iff (f : Family) (k n : Nat) (hk : k < f.wordCount) :
    (f.mask k).getLsbD n = true ↔ n / f.width < f.pinsPerWord ∧ k * f.pinsPerWord + n / f.width < 58 := by
  have hfit : n < min f.pinsPerWord (58 - k * f.pinsPerWord) * f.width → n < 32 := fun h =>
    (h.trans_le (Nat.mul_le_mul_right _ (min_le_left _ _))).trans_le (pinsPerWord_mul_width_le f)
  calc (f.mask k).getLsbD n = true
      ↔ n < min f.pinsPerWord (58 - k * f.pinsPerWord) * f.width := by
        rw [mask_eq f k hk, BitVec.getLsbD_ofNat, Nat.testBit_two_pow_sub_one]
        simpa using hfit
    _ ↔ n / f.width < f.pinsPerWord ∧ k * f.pinsPerWord + n / f.width < 58 := by
        rw [← Nat.div_lt_iff_lt_mul (width_pos f), lt_min_iff, Nat.lt_sub_iff_add_lt']

/-! ### The pin at a place of a word (R121, R122) -/

/-- The `j`-th pin of word `k`, when there is one, has that word index and the `j`-th field. -/
theorem exists_pin_at (f : Family) (k j : Nat) (hj : j < f.pinsPerWord) (h : k * f.pinsPerWord + j < 58) :
    ∃ q : PinIndex, wordIndexOf q f = k ∧ shiftOf q f = j * f.width := by
  refine ⟨⟨k * f.pinsPerWord + j, h⟩, ?_, ?_⟩
  · rw [wordIndexOf_eq]
    change (k * f.pinsPerWord + j) / f.pinsPerWord = k
    rw [Nat.add_comm, Nat.add_mul_div_right _ _ (Nat.zero_lt_of_lt hj), Nat.div_eq_of_lt hj, Nat.zero_add]
  · rw [shiftOf, Nat.mul_add_mod', Nat.mod_eq_of_lt hj]

/-- L6: the word index and the shift determine the pin. -/
theorem pin_eq (p : PinIndex) (f : Family) : p.val = wordIndexOf p f * f.pinsPerWord + shiftOf p f / f.width := by
  rw [wordIndexOf_eq, shiftOf, Nat.mul_div_cancel _ (width_pos f), Nat.div_add_mod']

/-- L7: the highest pin is in the last word. -/
theorem wordIndexOf_last (f : Family) : wordIndexOf 57 f = f.wordCount - 1 := by
  cases f <;> decide

/-! ### The fields of a word -/

theorem fieldMask_bit_iff (ps : Params) (p : PinIndex) (f : Family) (n : Nat) :
    ((resolve ps p f).fieldMask f.width).getLsbD n = true ↔ shiftOf p f ≤ n ∧ n < shiftOf p f + f.width := by
  rw [fieldMask_bit, decide_eq_true_iff]

/-- L3, by bits: a pin's field lies in the valid bits of its word. -/
theorem mask_bit_of_fieldMask_bit (ps : Params) (p : PinIndex) (f : Family) (n : Nat)
    (h : ((resolve ps p f).fieldMask f.width).getLsbD n = true) : (f.mask (wordIndexOf p f)).getLsbD n = true := by
  obtain ⟨hle, hlt⟩ := (fieldMask_bit_iff ps p f n).1 h
  have hm := mask_bit p f (n - shiftOf p f) (by omega)
  rwa [Nat.add_sub_cancel' hle] at hm

/-- L3: no bit of a pin's field is reserved. -/
theorem fieldMask_reserved (ps : Params) (p : PinIndex) (f : Family) :
    (resolve ps p f).fieldMask f.width &&& ~~~(resolve ps p f).writeMask = 0 := by
  refine BitVec.eq_of_getLsbD_eq fun n _ => ?_
  rw [BitVec.getLsbD_and, BitVec.getLsbD_not]
  cases hb : ((resolve ps p f).fieldMask f.width).getLsbD n with
  | false => simp
  | true =>
    have hm : (resolve ps p f).writeMask.getLsbD n = true := mask_bit_of_fieldMask_bit ps p f n hb
    simp [hm]

/-- L4: no bit is in the fields of two pins of a word. -/
theorem fieldMask_disjoint (ps : Params) (p q : PinIndex) (f : Family) (hpq : p ≠ q)
    (hw : wordIndexOf p f = wordIndexOf q f) :
    (resolve ps p f).fieldMask f.width &&& (resolve ps q f).fieldMask f.width = 0 := by
  have hapart := fields_apart p q f hpq hw
  refine BitVec.eq_of_getLsbD_eq fun n _ => ?_
  rw [BitVec.getLsbD_and, fieldMask_bit, fieldMask_bit, ← Bool.decide_and]
  refine (decide_eq_false ?_).trans BitVec.getLsbD_zero.symm
  omega

/-- L5: each valid bit of a word is in the field of one of its pins. -/
theorem exists_fieldMask_bit (ps : Params) (f : Family) (k n : Nat) (hk : k < f.wordCount)
    (h : (f.mask k).getLsbD n = true) :
    ∃ q : PinIndex, wordIndexOf q f = k ∧ ((resolve ps q f).fieldMask f.width).getLsbD n = true := by
  obtain ⟨hj, hpin⟩ := (mask_bit_iff f k n hk).1 h
  obtain ⟨q, hq, hs⟩ := exists_pin_at f k (n / f.width) hj hpin
  refine ⟨q, hq, (fieldMask_bit_iff ps q f n).2 ?_⟩
  rw [hs]
  exact ⟨Nat.div_mul_le_self n f.width, Nat.lt_div_mul_add (width_pos f)⟩

/-- Settles O9: L1 to L7, each by its lemma. -/
theorem resolverLaws : Obligations.ResolverLaws := by
  intro ps f p
  refine ⟨?_, shift_add_width_le p f, fieldMask_reserved ps p f, ?_, fun n => ⟨?_, ?_⟩, pin_eq p f, ?_⟩
  · rw [← wordIndexOf_eq]
    exact wordIndexOf_lt p f
  · exact fun q hqp hw => fieldMask_disjoint ps p q f hqp.symm hw.symm
  · exact exists_fieldMask_bit ps f _ n (wordIndexOf_lt p f)
  · rintro ⟨q, hq, hb⟩
    have hm := mask_bit_of_fieldMask_bit ps q f n hb
    exact (congrArg (fun k => (f.mask k).getLsbD n = true) hq).mp hm
  · intro h
    obtain rfl : p = 57 := Fin.ext h
    exact wordIndexOf_last f

end Sys2Proof
end

section
/-!
PROOFS. WRITE_FIELD on a read-write family, whole (R146, R151), and which commands change the stored words and which the output
latches (R154).
-/

namespace Sys2Proof.Machine

/-! ### The word a read-modify-write leaves (R146, R151) -/

/-- The word written is the valid bits of the word read, the field's masked out, with the value's low bits in their place. -/
theorem merge_eq_masked (a : Resolved) (width : Nat) (current value : Word) :
    a.merge width current value =
      (current &&& a.writeMask &&& ~~~(unshiftedMask width <<< a.shift)) ||| ((value &&& unshiftedMask width) <<< a.shift) := by
  rw [merge_eq, BitVec.and_assoc, BitVec.and_comm a.writeMask]

/-- Settles O14: the undisturbed read-modify-write of the pin's field. -/
theorem writeFieldStoresField : Obligations.WriteFieldStoresField := by
  intro f pin h value i s ha hi hv hu a fm new hl
  have hnew : a.merge f.width (Memory.read s.csr a.off) value = new := merge_eq_masked a f.width _ value
  refine ⟨_, exec_ofWriteField_readWrite f pin value i s ha hi, ?_⟩
  rw [State.modifyFieldCommand, withPin_of_lt s pin h, rmw_undisturbed s hv ⟨pin, h⟩ f ha value none hu hl, hnew]
  exact ⟨rfl, rfl, fun off hoff => (Memory.read_write s.csr a.off new off).trans (if_neg hoff), rfl,
    s.memRead a.off, memRead_readMask s hv ⟨pin, h⟩ f ha, rfl⟩

/-- Settles O16: the word written differs from the word read in the pin's field alone, and no other word is written. -/
theorem writeFieldIsolatesOtherPins : Obligations.WriteFieldIsolatesOtherPins := by
  intro f p value i s ha hi hv hu hl
  obtain ⟨t, het, hp, -, hc⟩ := exec_writeField_modify s hv p f ha value i hi hu hl
  obtain ⟨hown, hother⟩ := fieldValue_merge s t hv hp p f value hc
  exact ⟨t, het, hown, fun g q _ hne => hother g q hne⟩

/-! ### Which commands write a stored word, and which a latch (R146, R147, R154, R174, R175) -/

/-- A strobe stores no word (R60). -/
theorem memWrite_strobe_csr (s : State) (hv : s.params.valid = true) (p : PinIndex) (f : Family) (ha : f.access = .strobe)
    (v : Word) : (s.memWrite (resolve s.params p f).off v).csr = s.csr := by
  obtain ⟨level, hw⟩ := memWrite_strobe s hv p f ha v
  rw [hw]
  rfl

/-- A command outside a read-modify-write stores no word: its writes, if any, are strobes. -/
theorem advance_csr_of_not_modifies (s : State) (hv : s.params.valid = true) (ha : ActiveOk s)
    (hm : ∀ j, s.modifies ≠ some j) : s.advance.csr = s.csr := by
  have hc := advance_cases s
  generalize s.advance = t at hc
  cases hc with
  | wordWritten j c hp => exact absurd (modifies_of_at hp) (hm j)
  | strobeWritten a d hp =>
    obtain ⟨p, f, v, hf, rfl, rfl⟩ := ha.at (ph := .strobeWrite a d) hp
    exact memWrite_strobe_csr s hv p f hf _
  | levelDriven a d hp =>
    obtain ⟨p, f, hf, rfl, rfl⟩ := ha.at (ph := .driveLevel a d) hp
    exact memWrite_strobe_csr s hv p f hf _
  | _ => rfl

/-- The active port's command, its temporaries in order and outside a read-modify-write, has stored no word since `s`. -/
structure StoresNothing (s t : State) : Prop where
  params   : t.params = s.params
  active   : ActiveOk t
  modifies : ∀ j, t.modifies ≠ some j
  csr      : t.csr = s.csr

theorem StoresNothing.advance {s t : State} (hv : s.params.valid = true) (h : StoresNothing s t) :
    StoresNothing s t.advance where
  params := (advance_sameOthers t).params.trans h.params
  active := advance_activeOk t h.active
  modifies := fun j hj => h.modifies j ((advance_notesOwn t).modifies j hj)
  csr := (advance_csr_of_not_modifies t (h.params ▸ hv) h.active h.modifies).trans h.csr

/-- A command that enters a position with no read-modify-write to come stores no word. -/
theorem proceed_csr (s : State) (hv : s.params.valid = true) (ph : Phase) (hok : ph.ok s.params)
    (hm : ∀ j, ph.modifies ≠ some j) : (s.proceed ph).csr = s.csr :=
  (proceed_keeps (StoresNothing s) (fun _ => StoresNothing.advance hv) s ph
    { params := rfl
      active := activeOk_goto s ph hok
      modifies := fun j hj => hm j (modifies_goto s ph j hj)
      csr := rfl }).csr

/-- A command that enters a position with no strobe to come changes no latch. -/
theorem proceed_olat (s : State) (hv : s.params.valid = true) (ph : Phase) (hok : ph.ok s.params)
    (hs : ∀ a, ph.strobes ≠ some a) : (s.proceed ph).olat = s.olat :=
  pins_ext _ _ fun p => (run_turnFrame (s.goto ph) hv (activeOk_goto s ph hok) s.turn).latches p fun a ha =>
    absurd (strobes_goto s ph a ha) (hs a)

/-- Of the commands other than WRITE_FIELD on a read-write family, only CONFIGURE_FUNCTION stores a word. -/
theorem effect_csr (s : State) (i : Instr) (t : State) (hv : s.params.valid = true) (hL : LinesResolved s)
    (h : Effect s i t) (hw : ∀ f pin v, f.access = .readWrite → Instr.ofWriteField f pin v ≠ some i)
    (hc : ∀ pin fn, i ≠ .configureFunction pin fn) : t.csr = s.csr := by
  cases h with
  | modified i p f v ha hi => exact absurd hi (hw f p.val v ha)
  | configured p fn => exact absurd rfl (hc p.val fn)
  | strobed i p f v ha => exact proceed_csr s hv _ ⟨p, f, v, ha, rfl, rfl⟩ nofun
  | levelWritten p v f hf hl =>
    have ha : f.access = .strobe := by rcases hf with rfl | rfl <;> rfl
    exact proceed_csr s hv _ ⟨p, f, lineAddr_of_ready s hL p hl _, ha, lineAddr_of_ready s hL p hl _⟩ nofun
  | levelRead p hl => exact proceed_csr s hv _ ⟨p, lineAddr_of_ready s hL p hl _⟩ nofun
  | _ => rfl

/-- Of the commands other than WRITE_FIELD on Set and Clear, only WRITE_LEVEL changes a latch. -/
theorem effect_olat (s : State) (i : Instr) (t : State) (hv : s.params.valid = true) (hL : LinesResolved s)
    (h : Effect s i t) (hset : ∀ pin v, i ≠ .writeFieldSet pin v) (hclear : ∀ pin v, i ≠ .writeFieldClear pin v)
    (hlevel : ∀ pin v, i ≠ .writeLevel pin v) : t.olat = s.olat := by
  cases h with
  | modified i p f v ha => exact proceed_olat s hv _ ⟨p, f, ha, rfl, rfl⟩ nofun
  | configured p fn hl =>
    exact proceed_olat s hv _ ⟨p, .functionSelect, rfl, lineAddr_of_ready s hL p hl _, rfl⟩ nofun
  | strobed i p f v ha hi =>
    obtain ⟨level, rfl⟩ := strobe_family f ha
    cases level with
    | true => exact absurd (Option.some.inj hi).symm (hset p.val v)
    | false => exact absurd (Option.some.inj hi).symm (hclear p.val v)
  | levelWritten p v => exact absurd rfl (hlevel p.val v)
  | levelRead p hl => exact proceed_olat s hv _ ⟨p, lineAddr_of_ready s hL p hl _⟩ nofun
  | _ => rfl

/-- Settles O34: by the command's effect, the stored words and the latches apart. -/
theorem registerFrame : Obligations.RegisterFrame := by
  intro i s t hv hL ht
  have he := effect_of_exec i s t ht
  exact ⟨effect_csr s i t hv hL he, effect_olat s i t hv hL he⟩

end Sys2Proof.Machine
end

section
/-!
PROOFS. The line layer's commands: when REQUEST and RELEASE write the line and the count and when REQUEST leaves both
(R170 to R173, R177), and what CONFIGURE_FUNCTION and WRITE_LEVEL do to the pin of a `Ready` line (R174, R175, R205, R206, R234).
-/

namespace Sys2Proof.Machine

/-! ### REQUEST and RELEASE (R171, R172, R173, R177) -/

theorem request_of_ready (pin : Nat) (h : pin < 58) (s : State) (hr : (s.line ⟨pin, h⟩).state = .ready) :
    exec (.request pin) s = .next (s.respond (Response.bare .ok)) := by
  rw [exec, execRequest, withPin_of_lt s pin h, if_pos hr]

/-- A REQUEST of a pin that is not `Ready` creates the line when no failure of the environment takes effect. -/
theorem request_of_no_failure (pin : Nat) (h : pin < 58) (s : State) (hr : (s.line ⟨pin, h⟩).state ≠ .ready)
    (hf : s.requestFailure = none) :
    exec (.request pin) s = .next ((s.createLine ⟨pin, h⟩).respond (Response.bare .ok)) := by
  rw [exec, execRequest, withPin_of_lt s pin h, if_neg hr, hf]

/-- A failure to open or map takes effect only while the region is not mapped (R171, R202, R203). -/
theorem requestFailure_eq_none (s : State) (h : s.envFail = .none ∨
    (s.refcount ≠ 0 ∧ (s.envFail = .deviceOpenFailed ∨ s.envFail = .mapFailed))) : s.requestFailure = none := by
  rcases h with he | ⟨h0, he | he⟩
  · simp [State.requestFailure, he]
  · simp [State.requestFailure, he, h0]
  · simp [State.requestFailure, he, h0]

/-- Settles O22: a REQUEST raises its status, which changes nothing else, or it answers `Ok`. -/
theorem requestRollsBack : Obligations.RequestRollsBack := by
  intro pin s
  by_cases h : pin < 58
  · by_cases hr : (s.line ⟨pin, h⟩).state = .ready
    · exact ⟨_, _, request_of_ready pin h s hr, rfl, fun _ => rfl⟩
    · cases hf : s.requestFailure with
      | some st => exact ⟨_, _, request_of_failure pin h s hr st hf, rfl, fun _ => rfl⟩
      | none => exact ⟨_, _, request_of_no_failure pin h s hr hf, rfl, fun hok => absurd rfl hok⟩
  · refine ⟨s.raise .badPin, Response.bare .badPin, ?_, rfl, fun _ => rfl⟩
    rw [exec, execRequest, withPin_of_ge s pin (by omega)]

/-- Settles O20: no failure takes effect, so the line is created. -/
theorem requestCreatesLine : Obligations.RequestCreatesLine := by
  intro pin h s p hr hf
  exact request_of_no_failure pin h s hr (requestFailure_eq_none s hf)

/-- Settles O23: the line's state is looked at before `env_fail`. -/
theorem requestOfReadyPinKeepsLine : Obligations.RequestOfReadyPinKeepsLine := request_of_ready

/-- Settles O30: RELEASE of a `Ready` line ends it and answers. -/
theorem releaseEndsLine : Obligations.ReleaseEndsLine := by
  intro pin h s p hr
  rw [exec, execRelease, withReady_of_ready s pin h hr]
  rfl

/-! ### The transitions of a command (R170) -/

/-- A command that writes one line's entry, as REQUEST and RELEASE do, changes the state of no other line. -/
theorem transition_of_written {s u t : State} {p q : PinIndex} {l : Line}
    (hu : u.line q = if q = p then l else s.line q) (h : SameLines u t) (hq : (t.line q).state ≠ (s.line q).state) :
    q = p ∧ (t.line q).state = l.state := by
  rw [h.state, hu] at hq ⊢
  by_cases hqp : q = p
  · exact ⟨hqp, by rw [if_pos hqp]⟩
  · exact absurd (by rw [if_neg hqp]) hq

/-- Settles O31: of a command's effects on the lines, creating and ending one are those that change a state. -/
theorem lineTransitions : Obligations.LineTransitions := by
  intro i s t q ht hq
  rcases effect_lines s i t (effect_of_exec i s t ht) with h | ⟨p, hi, hl, h⟩ | ⟨p, hi, hl, h⟩
  · exact absurd (h.state q) hq
  · obtain ⟨rfl, hready⟩ := transition_of_written (line_createLine s p q) h hq
    exact .inl ⟨hi, hl, hready⟩
  · obtain ⟨rfl, hreleased⟩ := transition_of_written (line_endLine s p q) h hq
    exact .inr ⟨hi, hl, hreleased⟩

/-! ### CONFIGURE_FUNCTION (R174) -/

/-- A function's code fits the three bits of its field (R28). -/
theorem code_and_unshiftedMask (fn : Fn) : BitVec.ofNat 32 fn.code &&& unshiftedMask 3 = BitVec.ofNat 32 fn.code := by
  cases fn <;> rfl

/-- Settles O25: the undisturbed read-modify-write of the FunctionSelect field, which notes the code. -/
theorem configureFunctionWritesCode : Obligations.ConfigureFunctionWritesCode := by
  intro pin h fn s p hv hL hr hu a new hl
  have hnew : a.merge 3 (Memory.read s.csr a.off) (BitVec.ofNat 32 fn.code) = new := by
    rw [merge_eq_masked, code_and_unshiftedMask]
    rfl
  have hrmw := rmw_undisturbed s hv p .functionSelect rfl (BitVec.ofNat 32 fn.code) (some (p, fn)) hu hl
  rw [show Family.functionSelect.width = 3 from rfl, hnew] at hrmw
  refine ⟨_, (exec_configureFunction_of_ready s pin h fn hL hr).trans (congrArg _ hrmw), rfl, rfl, fun off hoff => ?_,
    rfl, rfl, s.memRead a.off, memRead_readMask s hv p .functionSelect rfl, rfl⟩
  exact (Memory.read_write s.csr a.off new off).trans (if_neg hoff)

/-! ### WRITE_LEVEL (R175, R205, R206, R234) -/

/-- Settles O28: the value is looked at before the command enters a position. -/
theorem writeLevelOutOfRange : Obligations.WriteLevelOutOfRange := by
  intro pin h value s hr h0 h1
  have hlt : 1 < value.toNat := by bv_omega
  rw [exec, execWriteLevel, withReady_of_ready s pin h hr, if_pos hlt]
  rfl

/-- Settles O26: the check's read, then one strobe. -/
theorem writeLevelDrivesOutput : Obligations.WriteLevelDrivesOutput := by
  intro pin h value s p hv hL hr hu h01 hout a b hl
  have he := exec_writeLevel_of_output s pin h value hv hL hr hu h01 hout hl
  rw [strobeData_one] at he
  exact ⟨_, he, rfl, rfl, rfl, s.memRead a.off, memRead_readMask s hv p .functionSelect rfl, List.append_assoc _ _ _⟩

/-- The check alone: the function is read, and the command goes on to its strobe or ends (R175 step 2). -/
theorem advance_checkFn (s : State) (f : InFlight) (h : s.inflight = some f) (fsel target : Resolved) :
    (s.goto (.checkFn fsel target)).advance =
      if fsel.extract 3 (s.memRead fsel.off) = 1 then
        (s.busRead fsel.off).goto (.driveLevel target (target.strobeData 1))
      else (s.busRead fsel.off).raise .pinMisconfigured := by
  rw [advance_goto s f h, State.advanceFrom]
  simp only [memRead_goto, busRead_goto, goto_goto, raise_goto]

/-- A check that does not find OUTPUT ends the command, whoever holds the strobe's lock (R205). -/
theorem proceed_checkFn_misconfigured (s : State) (hacc : s.accepted) (ht : 1 ≤ s.turn) (fsel target : Resolved)
    (hf : fsel.extract 3 (s.memRead fsel.off) ≠ 1) :
    s.proceed (.checkFn fsel target) = (s.busRead fsel.off).raise .pinMisconfigured := by
  obtain ⟨f, hfl⟩ := inflight_of_accepted s hacc
  obtain ⟨n, hn⟩ : ∃ n, s.turn = n + 1 := ⟨s.turn - 1, by omega⟩
  rw [State.proceed, hn, State.run, advance_checkFn s f hfl, if_neg hf]
  exact run_idle _ (inflight_raise _ _) n

/-- Interrupted after a check that finds OUTPUT, the command stands before its strobe (R234). -/
theorem proceed_checkFn_interrupted (s : State) (hacc : s.accepted) (ht : s.turn = 1) (fsel target : Resolved)
    (hf : fsel.extract 3 (s.memRead fsel.off) = 1) :
    s.proceed (.checkFn fsel target) = (s.busRead fsel.off).goto (.driveLevel target (target.strobeData 1)) := by
  obtain ⟨f, hfl⟩ := inflight_of_accepted s hacc
  rw [State.proceed, ht, State.run, advance_checkFn s f hfl, if_pos hf, State.run]

/-- Settles O27: the check finds another function than OUTPUT. -/
theorem writeLevelPinMisconfigured : Obligations.WriteLevelPinMisconfigured := by
  intro pin h value s p hv hL hr hacc ht h01 hout
  have hoff : (resolve s.params p .functionSelect).off = 4 * (pin / 10) := by
    rw [resolve_off, RegWord.off, ofPin_idx, wordIndexOf_eq]
    exact Nat.zero_add _
  have hf := mt (check_reads_field s hv p).symm.trans hout
  refine ⟨_, (writeLevel_enters pin h value s hL hr h01).trans
    (congrArg _ (proceed_checkFn_misconfigured s hacc ht _ _ hf)), rfl, rfl, s.memRead (4 * (pin / 10)), ?_⟩
  rw [State.raise_bus, State.busRead_bus, hoff]

/-- WRITE_LEVEL's strobe, in whatever state the command goes on, if it finds its lock free (R175 step 3). -/
theorem run_of_at_driveLevel (u : State) (a : Resolved) (data : Word) (hp : u.at (.driveLevel a data))
    (hl : u.lockFree a.off = true) : u.run 1 = (u.busWrite a.off data).respond (Response.bare .ok) := by
  obtain ⟨f, hf, hpos⟩ := Option.map_eq_some_iff.1 hp
  rw [State.run, State.run, advance_some u f hf, hpos, State.advanceFrom, if_pos hl]

/-- Settles O52: the position before the strobe holds no lock, and the step from it reads nothing. -/
theorem writeLevelCheckThenWrite : Obligations.WriteLevelCheckThenWrite := by
  intro pin h value s p hv hL hr hacc ht h01 hout b
  have hgo := proceed_checkFn_interrupted s hacc ht (resolve s.params p .functionSelect) b
    ((check_reads_field s hv p).trans hout)
  refine ⟨_, (writeLevel_enters pin h value s hL hr h01).trans (congrArg _ hgo), rfl, rfl, ?_, fun u _ hi hl => ?_⟩
  · obtain ⟨f, hf⟩ := inflight_of_accepted s hacc
    simp [hf]
  · have hat : u.at (.driveLevel b (b.strobeData 1)) := by
      rw [State.at, hi]
      exact at_goto (s := s.busRead _) hacc _
    rw [run_of_at_driveLevel u b _ hat hl, strobeData_one]
    exact ⟨by simp, inflight_respond _ _⟩

end Sys2Proof.Machine
end

section
/-!
PROOFS. The two checks that come before everything else a command does: the pin of every command (R201), and the line's
state of the line commands other than REQUEST (R178, R204).
-/

namespace Sys2Proof.Machine

/-- Every command begins with the check of its pin, whatever it does once the pin is found valid (R201). -/
theorem exec_begins_with_withPin {op : Op} {f : Family} {fn : Fn} {pin : Nat} {opnd : Word} {i : Instr}
    (hi : Instr.ofFields op f fn pin opnd = some i) (s : State) : ∃ k, exec i s = .next (s.withPin pin k) := by
  cases op with
  | resolve =>
    cases hi
    exact ⟨_, exec_ofResolve f pin s⟩
  | readField => exact ⟨_, exec_ofReadField f pin i s hi⟩
  | writeField =>
    rcases exec_ofWriteField f pin opnd i s hi with ⟨-, h⟩ | ⟨-, h⟩
    · exact ⟨_, h⟩
    · exact ⟨_, h⟩
  | request | configureFunction | writeLevel | readLevel | release =>
    cases hi
    exact ⟨_, rfl⟩

/-- Settles O10: the pin check fails, so the command's continuation is not entered. -/
theorem badPinReturned : Obligations.BadPinReturned := by
  intro i s hpin
  obtain ⟨op, f, fn, opnd, hi⟩ := i.exists_ofFields
  obtain ⟨k, hk⟩ := exec_begins_with_withPin hi.instr s
  rw [hk, withPin_of_ge s i.pin hpin]
  rfl

/-- The line commands other than REQUEST check the pin and the line's state before anything else, a value of WRITE_LEVEL
included (R178, R210). -/
theorem exec_begins_with_withReady (pin : Nat) (fn : Fn) (value : Word) (s : State) :
    ∀ i ∈ [Instr.configureFunction pin fn, Instr.writeLevel pin value, Instr.readLevel pin, Instr.release pin],
      ∃ k, exec i s = .next (s.withReady pin k) := by
  simp only [List.forall_mem_cons]
  exact ⟨⟨_, rfl⟩, ⟨_, rfl⟩, ⟨_, rfl⟩, ⟨_, rfl⟩, List.forall_mem_nil _⟩

/-- Settles O24: the line-state check fails, so the command's continuation is not entered. -/
theorem lineCommandsNeedReady : Obligations.LineCommandsNeedReady := by
  intro pin h fn value s hr i hi
  obtain ⟨k, hk⟩ := exec_begins_with_withReady pin fn value s i hi
  rw [hk, withReady_of_not_ready s pin h hr]
  rfl

end Sys2Proof.Machine
end
